-- ==== Sys2Proof/Word.lean ====
section
/-!
DEFINITION. The two word types of the CORE: bytes (field elements, unit indices) and 32-bit command and response words.
-/
namespace Sys2Proof

/-- A byte: 8 bits, bit 0 the least significant (R9). A field element, a unit index or an SB byte. -/
abbrev Byte := BitVec 8

/-- A command word or a response word (R80, R81). -/
abbrev Word := BitVec 32

end Sys2Proof
end

