-- ==== Sys2Proof/Config.lean ====
section
/-!
DEFINITION. What is fixed for the machine, and the one free value the spec leaves open.
-/
namespace Sys2Proof

/-- The low byte of GF_POLY = x^8 + x^4 + x^3 + x^2 + 1 = 0x11D (R101).
DESIGN CHOICE, unsafe for a CORE built with another polynomial: the spec allows a parameter (D1) and its rule states this
value; the model takes it (notes/assumptions/6.md). -/
def Config.gfPolyLow : Byte := 0x1D#8

/-- The Cauchy row sequence x_i = i, used for the parity rows only (R121).
DESIGN CHOICE, unsafe for a CORE built with another sequence: the value of the rule, the default of D5
(notes/assumptions/7.md). -/
def Config.cauchyX (i : Nat) : Byte := BitVec.ofNat 8 i

/-- The Cauchy column sequence y_j = j (R121).
DESIGN CHOICE, unsafe for a CORE built with another sequence: the value of the rule, the default of D5
(notes/assumptions/7.md). -/
def Config.cauchyY (j : Nat) : Byte := BitVec.ofNat 8 j

/-- FREE VALUE, safe: SB_RESET, what the SB byte at an address holds from a hardware reset until it is written
(R41, R240, U6, D20). The first argument counts the hardware resets, so that each leaves contents of its own.
Nothing can evaluate it (notes/assumptions/1.md and 2.md). -/
opaque Config.sbReset : Nat → Nat → Byte

end Sys2Proof
end

