-- ==== Sys2Proof/Machine/Gf256.lean ====
section
/-!
DEFINITION. Field arithmetic over GF(2^8) (R100 to R109): the one multiplier every unit uses.
-/
namespace Sys2Proof.Machine

/-- a ⊗ x: shift left, drop bit 8, and subtract GF_POLY when bit 7 was set (the loop body of R103). -/
def xtime (a : Byte) : Byte :=
  if a.getLsbD 7 then (a <<< 1) ^^^ Config.gfPolyLow else a <<< 1

/-- `n` more iterations of the loop of R103 from bit `i` on: `a` holds (original a) ⊗ x^i, `p` the sum so far. -/
def gfMulLoop (b : Byte) : Nat → Nat → Byte → Byte → Byte
  | 0, _, _, p => p
  | n + 1, i, a, p => gfMulLoop b n (i + 1) (xtime a) (if b.getLsbD i then p ^^^ a else p)

/-- The field product (R103). -/
def gfMul (a b : Byte) : Byte := gfMulLoop b 8 0 a 0#8

/-- The field sum, which is also the difference (R102). -/
def gfAdd (a b : Byte) : Byte := a ^^^ b

/-- a to the natural power n, the empty product being 1 for every a (R107). -/
def gfPow (a : Byte) : Nat → Byte
  | 0 => 1#8
  | n + 1 => gfMul (gfPow a n) a

/-- The inverse of a ≠ 0, as a^254 (R105) by squaring: 254 = 2 + 4 + 8 + 16 + 32 + 64 + 128.
At 0 it has the unused value 0: every use is behind a zero test or on a nonzero argument (U1, R115;
DESIGN CHOICE, safe, notes/assumptions/8.md). -/
def gfInv (a : Byte) : Byte :=
  let a2 := gfMul a a
  let a4 := gfMul a2 a2
  let a8 := gfMul a4 a4
  let a16 := gfMul a8 a8
  let a32 := gfMul a16 a16
  let a64 := gfMul a32 a32
  let a128 := gfMul a64 a64
  gfMul a2 (gfMul a4 (gfMul a8 (gfMul a16 (gfMul a32 (gfMul a64 a128)))))

/-- a divided by b ≠ 0 (R106). -/
def gfDiv (a b : Byte) : Byte := gfMul a (gfInv b)

/-- ⊕ of f 0 to f (n − 1), 0x00 when n = 0 (R10). -/
def xorSum (n : Nat) (f : Nat → Byte) : Byte :=
  (List.range n).foldl (fun v j => gfAdd v (f j)) 0#8

end Sys2Proof.Machine
end

