-- ==== Sys2Proof/Syntax.lean ====
section
/-!
DEFINITION. The commands of the set ECC1: one constructor per row of spec/opcode_table.json (R84).
-/
namespace Sys2Proof

/-- The datapath selector bk of ENCODE and DECODE (R83): 0 is Software, 1 is HardwareOffload. -/
inductive Datapath where
  | software
  | hardwareOffload
  deriving DecidableEq, Repr

/-- A command with its operands, each the unsigned value of its field (R83). -/
inductive Instr where
  /-- GFMUL a, b (R110). -/
  | gfmul (a b : Byte)
  /-- GFDIV a, b (R111). -/
  | gfdiv (a b : Byte)
  /-- GFINV a (R112). -/
  | gfinv (a : Byte)
  /-- GFPOW a, b with b the exponent (R113). -/
  | gfpow (a b : Byte)
  /-- MKENC k, m (R125). -/
  | mkenc (k m : BitVec 12)
  /-- MKDEC (R129). -/
  | mkdec
  /-- RDENC a, b: row, column (R132). -/
  | rdenc (a b : Byte)
  /-- RDDEC a, b: row, column (R133). -/
  | rddec (a b : Byte)
  /-- RDSRV a: position (R134). -/
  | rdsrv (a : Byte)
  /-- ENCODE bk (R151). -/
  | encode (bk : Datapath)
  /-- DECODE bk (R152). -/
  | decode (bk : Datapath)
  /-- SETUS n (R170). -/
  | setus (n : BitVec 24)
  /-- ERASCLR (R171). -/
  | erasclr
  /-- ERASSET a: unit (R172). -/
  | erasset (a : Byte)
  /-- ERASDEL a: unit (R173). -/
  | erasdel (a : Byte)
  /-- CLRERR (R174). -/
  | clrerr
  /-- RDSTAT (R175). -/
  | rdstat
  /-- RDERR a: selector (R176). -/
  | rderr (a : Byte)
  /-- SRESET (R177). -/
  | sreset
  /-- RDERAS a: byte index (R178). -/
  | rderas (a : Byte)
  /-- RDUS (R179). -/
  | rdus
  deriving DecidableEq, Repr

end Sys2Proof
end

