-- ==== Sys2Proof/WellFormed.lean ====
section
/-!
DEFINITION. Which commands have a legal word: the two operand conditions that are part of the encoding (R85 (c), (d)).
-/
namespace Sys2Proof

/-- R85: RDERR's selector is at most 1 and RDERAS's byte index at most 31; every other operand value is legal. -/
def Instr.wellFormed : Instr → Bool
  | .gfmul _ _ => true
  | .gfdiv _ _ => true
  | .gfinv _ => true
  | .gfpow _ _ => true
  | .mkenc _ _ => true
  | .mkdec => true
  | .rdenc _ _ => true
  | .rddec _ _ => true
  | .rdsrv _ => true
  | .encode _ => true
  | .decode _ => true
  | .setus _ => true
  | .erasclr => true
  | .erasset _ => true
  | .erasdel _ => true
  | .clrerr => true
  | .rdstat => true
  | .rderr a => decide (a.toNat ≤ 1)
  | .sreset => true
  | .rderas a => decide (a.toNat ≤ 31)
  | .rdus => true

/-- A command is well-formed when it has a legal word (R85). -/
abbrev WellFormed (i : Instr) : Prop := i.wellFormed = true

end Sys2Proof
end

