-- ==== Sys2Proof/Decode.lean ====
section
/-!
DEFINITION. Decoding a 32-bit command word, total and rejecting by name (R85, R86, R89); the encoder, written from the
same formats (R82, R84); the match and mask table of R84.
-/
namespace Sys2Proof

/-! ### Fields of a command word (R81, R82) -/

/-- cmd[31:24], the opcode. -/
def opcOf (w : Word) : Byte := w.extractLsb' 24 8

/-- cmd[23:0], the payload. -/
def payloadOf (w : Word) : BitVec 24 := w.extractLsb' 0 24

/-- cmd[23:16], operand a. -/
def fieldA (w : Word) : Byte := w.extractLsb' 16 8

/-- cmd[15:8], operand b. -/
def fieldB (w : Word) : Byte := w.extractLsb' 8 8

/-- cmd[23:12], operand k of format P; also ERR.info0 of a BadCommand (R207). -/
def fieldHi12 (w : Word) : BitVec 12 := w.extractLsb' 12 12

/-- cmd[11:0], operand m of format P; also ERR.info1 of a BadCommand (R207). -/
def fieldLo12 (w : Word) : BitVec 12 := w.extractLsb' 0 12

/-- R83: bk = 0 selects the Software datapath, bk = 1 the HardwareOffload datapath. -/
def datapathOf (bk : BitVec 1) : Datapath := if bk = 0#1 then .software else .hardwareOffload

/-- The bit that selects a datapath (R83). -/
def bkOf : Datapath → BitVec 1
  | .software => 0#1
  | .hardwareOffload => 1#1

/-! ### The decoder -/

/-- Why a word is illegal (R85, R86). -/
inductive DecodeError where
  /-- The opcode is none of the twenty-one (R85 (a)). -/
  | reservedOpcode
  /-- An rz bit of the format is 1 (R85 (b)). -/
  | reservedBitSet
  /-- RDERR with a selector above 1 (R85 (c)). -/
  | selectorOutOfRange
  /-- RDERAS with a byte index above 31 (R85 (d)). -/
  | byteIndexOutOfRange
  deriving DecidableEq, Repr

/-- Format Z: cmd[23:0] must be zero. -/
def decodeZ (w : Word) (i : Instr) : Except DecodeError Instr :=
  if w.extractLsb' 0 24 = 0#24 then .ok i else .error .reservedBitSet

/-- Format A1: operand a in cmd[23:16], cmd[15:0] must be zero. -/
def decodeA1 (w : Word) (f : Byte → Instr) : Except DecodeError Instr :=
  if w.extractLsb' 0 16 = 0#16 then .ok (f (fieldA w)) else .error .reservedBitSet

/-- Format A2: operands a, b in cmd[23:16], cmd[15:8]; cmd[7:0] must be zero. -/
def decodeA2 (w : Word) (f : Byte → Byte → Instr) : Except DecodeError Instr :=
  if w.extractLsb' 0 8 = 0#8 then .ok (f (fieldA w) (fieldB w)) else .error .reservedBitSet

/-- Format P: operands k, m in cmd[23:12], cmd[11:0]; no rz bit. -/
def decodeP (w : Word) (f : BitVec 12 → BitVec 12 → Instr) : Except DecodeError Instr :=
  .ok (f (fieldHi12 w) (fieldLo12 w))

/-- Format W: operand n in cmd[23:0]; no rz bit. -/
def decodeW (w : Word) (f : BitVec 24 → Instr) : Except DecodeError Instr :=
  .ok (f (payloadOf w))

/-- Format F: bk in cmd[0], cmd[23:1] must be zero. -/
def decodeF (w : Word) (f : Datapath → Instr) : Except DecodeError Instr :=
  if w.extractLsb' 1 23 = 0#23 then .ok (f (datapathOf (w.extractLsb' 0 1))) else .error .reservedBitSet

/-- RDERR: format A1 and a selector of at most 1 (R85 (c)). -/
def decodeRderr (w : Word) : Except DecodeError Instr :=
  if w.extractLsb' 0 16 = 0#16 then
    if (fieldA w).toNat ≤ 1 then .ok (.rderr (fieldA w)) else .error .selectorOutOfRange
  else .error .reservedBitSet

/-- RDERAS: format A1 and a byte index of at most 31 (R85 (d)). -/
def decodeRderas (w : Word) : Except DecodeError Instr :=
  if w.extractLsb' 0 16 = 0#16 then
    if (fieldA w).toNat ≤ 31 then .ok (.rderas (fieldA w)) else .error .byteIndexOutOfRange
  else .error .reservedBitSet

/-- R89: the opcode selects the row of R84, its format checks the rz bits and reads the operands. Reads no state. -/
def decode (w : Word) : Except DecodeError Instr :=
  match opcOf w with
  | 0x10#8 => decodeA2 w .gfmul
  | 0x11#8 => decodeA2 w .gfdiv
  | 0x12#8 => decodeA1 w .gfinv
  | 0x13#8 => decodeA2 w .gfpow
  | 0x20#8 => decodeP w .mkenc
  | 0x21#8 => decodeZ w .mkdec
  | 0x22#8 => decodeA2 w .rdenc
  | 0x23#8 => decodeA2 w .rddec
  | 0x24#8 => decodeA1 w .rdsrv
  | 0x30#8 => decodeF w .encode
  | 0x31#8 => decodeF w .decode
  | 0x40#8 => decodeW w .setus
  | 0x41#8 => decodeZ w .erasclr
  | 0x42#8 => decodeA1 w .erasset
  | 0x43#8 => decodeA1 w .erasdel
  | 0x44#8 => decodeZ w .clrerr
  | 0x45#8 => decodeZ w .rdstat
  | 0x46#8 => decodeRderr w
  | 0x47#8 => decodeZ w .sreset
  | 0x48#8 => decodeRderas w
  | 0x49#8 => decodeZ w .rdus
  | _ => .error .reservedOpcode

/-! ### The encoder -/

/-- Format Z. -/
def encodeZ (opc : Byte) : Word := opc ++ 0#24

/-- Format A1. -/
def encodeA1 (opc a : Byte) : Word := opc ++ a ++ 0#16

/-- Format A2. -/
def encodeA2 (opc a b : Byte) : Word := opc ++ a ++ b ++ 0#8

/-- Format P. -/
def encodeP (opc : Byte) (k m : BitVec 12) : Word := opc ++ k ++ m

/-- Format W. -/
def encodeW (opc : Byte) (n : BitVec 24) : Word := opc ++ n

/-- Format F. -/
def encodeF (opc : Byte) (bk : Datapath) : Word := opc ++ 0#23 ++ bkOf bk

/-- The command word of a command (R82 to R84). -/
def encode : Instr → Word
  | .gfmul a b => encodeA2 0x10#8 a b
  | .gfdiv a b => encodeA2 0x11#8 a b
  | .gfinv a => encodeA1 0x12#8 a
  | .gfpow a b => encodeA2 0x13#8 a b
  | .mkenc k m => encodeP 0x20#8 k m
  | .mkdec => encodeZ 0x21#8
  | .rdenc a b => encodeA2 0x22#8 a b
  | .rddec a b => encodeA2 0x23#8 a b
  | .rdsrv a => encodeA1 0x24#8 a
  | .encode bk => encodeF 0x30#8 bk
  | .decode bk => encodeF 0x31#8 bk
  | .setus n => encodeW 0x40#8 n
  | .erasclr => encodeZ 0x41#8
  | .erasset a => encodeA1 0x42#8 a
  | .erasdel a => encodeA1 0x43#8 a
  | .clrerr => encodeZ 0x44#8
  | .rdstat => encodeZ 0x45#8
  | .rderr a => encodeA1 0x46#8 a
  | .sreset => encodeZ 0x47#8
  | .rderas a => encodeA1 0x48#8 a
  | .rdus => encodeZ 0x49#8

/-! ### The table of R84 -/

/-- One row of the match and mask table: a word selects the row when its masked bits equal the match. -/
structure TableRow where
  mnemonic : String
  matchBits : Word
  mask : Word
  deriving DecidableEq, Repr

/-- The match and mask table of R84. -/
def opcodeTable : List TableRow :=
  [ ⟨"GFMUL", 0x10000000#32, 0xFF0000FF#32⟩,
    ⟨"GFDIV", 0x11000000#32, 0xFF0000FF#32⟩,
    ⟨"GFINV", 0x12000000#32, 0xFF00FFFF#32⟩,
    ⟨"GFPOW", 0x13000000#32, 0xFF0000FF#32⟩,
    ⟨"MKENC", 0x20000000#32, 0xFF000000#32⟩,
    ⟨"MKDEC", 0x21000000#32, 0xFFFFFFFF#32⟩,
    ⟨"RDENC", 0x22000000#32, 0xFF0000FF#32⟩,
    ⟨"RDDEC", 0x23000000#32, 0xFF0000FF#32⟩,
    ⟨"RDSRV", 0x24000000#32, 0xFF00FFFF#32⟩,
    ⟨"ENCODE", 0x30000000#32, 0xFFFFFFFE#32⟩,
    ⟨"DECODE", 0x31000000#32, 0xFFFFFFFE#32⟩ ] ++
  [ ⟨"SETUS", 0x40000000#32, 0xFF000000#32⟩,
    ⟨"ERASCLR", 0x41000000#32, 0xFFFFFFFF#32⟩,
    ⟨"ERASSET", 0x42000000#32, 0xFF00FFFF#32⟩,
    ⟨"ERASDEL", 0x43000000#32, 0xFF00FFFF#32⟩,
    ⟨"CLRERR", 0x44000000#32, 0xFFFFFFFF#32⟩,
    ⟨"RDSTAT", 0x45000000#32, 0xFFFFFFFF#32⟩,
    ⟨"RDERR", 0x46000000#32, 0xFFFEFFFF#32⟩,
    ⟨"SRESET", 0x47000000#32, 0xFFFFFFFF#32⟩,
    ⟨"RDERAS", 0x48000000#32, 0xFFE0FFFF#32⟩,
    ⟨"RDUS", 0x49000000#32, 0xFFFFFFFF#32⟩ ]

/-- The mnemonic of a command (R84, R91). -/
def mnemonicOf : Instr → String
  | .gfmul _ _ => "GFMUL"
  | .gfdiv _ _ => "GFDIV"
  | .gfinv _ => "GFINV"
  | .gfpow _ _ => "GFPOW"
  | .mkenc _ _ => "MKENC"
  | .mkdec => "MKDEC"
  | .rdenc _ _ => "RDENC"
  | .rddec _ _ => "RDDEC"
  | .rdsrv _ => "RDSRV"
  | .encode _ => "ENCODE"
  | .decode _ => "DECODE"
  | .setus _ => "SETUS"
  | .erasclr => "ERASCLR"
  | .erasset _ => "ERASSET"
  | .erasdel _ => "ERASDEL"
  | .clrerr => "CLRERR"
  | .rdstat => "RDSTAT"
  | .rderr _ => "RDERR"
  | .sreset => "SRESET"
  | .rderas _ => "RDERAS"
  | .rdus => "RDUS"

/-! ### The host's numbering of the opcode table -/

/-- The command word the table's bits stand for: bit 0 is the least significant, bits at and above `nbits` are 0. -/
def tableWord (nbits w : Nat) : Word := BitVec.ofNat 32 (w % 2 ^ nbits)

/-- What the decoder reads from an instruction whose bits are `w`, numbered as spec/opcode_table.json numbers them. A
command is one 32-bit value and no memory image (R62), so its bits are the word's own. -/
def decodeTableWord (nbits w : Nat) : Option Instr := (decode (tableWord nbits w)).toOption

end Sys2Proof
end

