-- ==== Sys2Proof/Machine/State.lean ====
section
/-!
DEFINITION. The state of the CORE as the spec lists it (R20), the host's side of the interface, the state after reset, and
the reasons a step could stop.
-/
namespace Sys2Proof.Machine

/-- The error record ERR (R32): kind 0 means that no error is recorded. -/
structure ErrRecord where
  kind : BitVec 4
  op : Byte
  info0 : BitVec 12
  info1 : BitVec 12
  deriving DecidableEq, Repr

/-- A matrix of field elements as a list of rows, row index first (R11). -/
abbrev Matrix := List (List Byte)

/-- SB as the bytes written since the last hardware reset: (address, byte) pairs, addresses strictly rising.
An address not listed has no written byte; what it reads as is `Config.sbReset`, a free value, so no entry can be known to
equal it (R41, U6, notes/assumptions/1.md). -/
abbrev Memory := List Host.Cell

/-- The canonical form of SB: addresses strictly rising and below 2^32 (R60). -/
abbrev Memory.wf (m : Memory) : Prop :=
  m.Pairwise (fun c d => c.1 < d.1) ∧ ∀ c ∈ m, c.1 < 2 ^ 32

/-- What the host does between two responses (R72, R80, R240). -/
inductive HostMove where
  /-- Present a command word and wait for its response (R80). -/
  | command (w : Word)
  /-- Write one SB byte (R72). -/
  | writeByte (addr : BitVec 32) (v : Byte)
  /-- Read one SB byte (R72). -/
  | readByte (addr : BitVec 32)
  /-- Change ACC: bit u says whether the offload datapath may access unit u (R36, R72). -/
  | setAcc (acc : BitVec 256)
  /-- Pulse the hardware reset (R240). -/
  | hardReset
  deriving DecidableEq, Repr

/-- What the host is answered. -/
inductive Reply where
  /-- The response word of a command (R90). -/
  | response (r : Word)
  /-- The SB byte a host read returned (R72). -/
  | byte (v : Byte)
  deriving DecidableEq, Repr

/-- The state. The first block is the architectural state of R20; `acc` is the environment input of R36; the last three
fields are the model's own (notes/assumptions/2.md, 3.md, 4.md). -/
structure State where
  /-- K, the data-unit count (R21). -/
  k : Byte
  /-- M, the parity-unit count (R22). -/
  m : Byte
  /-- USIZE, the bytes per unit (R23). -/
  usize : BitVec 24
  /-- ERAS, the erasure set: bit u is unit u (R24). -/
  eras : BitVec 256
  /-- EM, the encode-matrix store: the K+M rows in use (R25). -/
  em : Matrix
  /-- EMV, the valid bit of EM (R27). -/
  emv : Bool
  /-- DM, the decode-matrix store: the K rows in use (R28). -/
  dm : Matrix
  /-- SRV, the survivor list: the K entries in use (R29). -/
  srv : List Byte
  /-- DMV, the valid bit of DM and SRV (R30). -/
  dmv : Bool
  /-- ERR, the error record (R32). -/
  err : ErrRecord
  /-- HALT (R33). -/
  halt : Bool
  /-- SB, the stripe buffer (R35). -/
  sb : Memory
  /-- ACC, one bit per unit index (R36): the environment's, never written by the CORE. -/
  acc : BitVec 256
  /-- How many hardware resets have happened: which unspecified SB contents stand behind the written bytes. -/
  resets : Nat
  /-- The host's coming moves, the next one first. -/
  inbox : List HostMove
  /-- What the host has been answered, oldest first. -/
  replies : List Reply
  deriving DecidableEq, Repr

/-- Why a step could stop with a fault. The step of the CORE is a total function (R214, R261) and every SB address exists
(R65), so there is no such reason: nothing raises one. -/
inductive Fault where
  deriving DecidableEq, Repr

/-- Why a step could give no meaning. -/
inductive Refusal where
  /-- The arm of a command that has no meaning yet; safe. No arm of exec raises it. -/
  | notModelled (mnemonic : String)
  deriving DecidableEq, Repr

/-- No error recorded: all zeros (R32). -/
def ErrRecord.none : ErrRecord := { kind := 0#4, op := 0#8, info0 := 0#12, info1 := 0#12 }

/-- The state after hardware reset (R41, R240). EM, DM and SRV are unspecified and unobservable there: DESIGN CHOICE, safe,
nothing stored (notes/assumptions/5.md). SB lists nothing, so every byte is the free value. ACC has no reset value:
DESIGN CHOICE, unsafe, no unit registered (notes/assumptions/4.md). -/
def State.reset : State :=
  { k := 0#8, m := 0#8, usize := 0#24, eras := 0#256, em := [], emv := false, dm := [], srv := [], dmv := false,
    err := ErrRecord.none, halt := false, sb := [], acc := 0#256, resets := 0, inbox := [], replies := [] }

end Sys2Proof.Machine
end

