-- ==== Sys2Proof/Machine/Ops.lean ====
section
/-!
DEFINITION. The named operations over memory, the response port and the error record, shared by every command:
SB accesses (R60, R64), `respond` (R90), `raise` (R211), refusal (R213), the ways out of an error (R217) and hardware
reset (R240).
-/
namespace Sys2Proof.Machine

/-- The result type of a meaning. -/
abbrev Result := Host.Outcome State Fault Refusal

/-! ### The stripe buffer -/

/-- SB(u, t) = the unit index in bits 31:24 and the byte offset in bits 23:0 (R60). -/
def sbAddr (u : Byte) (t : BitVec 24) : BitVec 32 := u ++ t

/-- The byte written last at an address, if any. -/
def memLookup : Memory → Nat → Option Byte
  | [], _ => none
  | (a, v) :: m, x => if x = a then some v else memLookup m x

/-- Write one byte, keeping the addresses rising. -/
def memWrite : Memory → Nat → Byte → Memory
  | [], x, v => [(x, v)]
  | (a, w) :: m, x, v =>
    if x < a then (x, v) :: (a, w) :: m
    else if x = a then (x, v) :: m
    else (a, w) :: memWrite m x v

/-- Write a list of bytes, first to last. -/
def memWriteAll (m : Memory) (cells : List Host.Cell) : Memory :=
  cells.foldl (fun m c => memWrite m c.1 c.2) m

/-- MemRead(addr, 1) (R13): the written byte, or the arbitrary byte a hardware reset left there (R41). -/
def State.sbRead (s : State) (a : BitVec 32) : Byte :=
  (memLookup s.sb a.toNat).getD (Config.sbReset s.resets a.toNat)

/-- MemWrite(addr, 1, v) (R13). -/
def State.sbWrite (s : State) (a : BitVec 32) (v : Byte) : State :=
  { s with sb := memWrite s.sb a.toNat v }

/-- The writes of one ENCODE or DECODE, all made when it completes (R14). -/
def State.sbWriteAll (s : State) (cells : List Host.Cell) : State :=
  { s with sb := memWriteAll s.sb cells }

/-! ### The registers and the matrix stores -/

/-- USIZE <- n (R170). -/
def State.setUsize (s : State) (n : BitVec 24) : State := { s with usize := n }

/-- ERAS <- e (R171 to R173). -/
def State.setEras (s : State) (e : BitVec 256) : State := { s with eras := e }

/-- What a successful MKENC writes: EM, K, M, EMV and the cleared DMV (R125). -/
def State.loadEncode (s : State) (em : Matrix) (k m : Byte) : State :=
  { s with em := em, k := k, m := m, emv := true, dmv := false }

/-- What a successful MKDEC writes: DM, SRV and DMV together (R129). -/
def State.loadDecode (s : State) (dm : Matrix) (srv : List Byte) : State :=
  { s with dm := dm, srv := srv, dmv := true }

/-- The environment changes ACC between commands (R36, R72). -/
def State.setAccess (s : State) (acc : BitVec 256) : State := { s with acc := acc }

/-- The host's coming moves become these. -/
def State.setInbox (s : State) (moves : List HostMove) : State := { s with inbox := moves }

/-! ### The response port -/

/-- A response word: status in bits 31:28, zero in 27:24, data in 23:0 (R90). -/
def responseWord (st : BitVec 4) (data : BitVec 24) : Word := st ++ 0#4 ++ data

/-- Answer the host. -/
def State.reply (s : State) (r : Reply) : State := { s with replies := s.replies ++ [r] }

/-- `respond(d)`: the command completed, its result is d (R13, R90). -/
def respond (d : BitVec 24) (s : State) : Result := .next (s.reply (.response (responseWord 0x0#4 d)))

/-- The gate's refusal: response 0xF0000000 and no other effect (R213). -/
def refuse (s : State) : Result := .next (s.reply (.response (responseWord 0xF#4 0#24)))

/-! ### Errors -/

/-- The error kinds of the document and of the spec (R200). -/
inductive ErrorKind where
  | divisionByZero
  | invalidParameters
  | singularMatrix
  | inconsistentErasureSet
  | unregisteredBuffer
  | backendMismatch
  | matrixNotValid
  | badCommand
  deriving DecidableEq, Repr

/-- The code of a kind (R200). BackendMismatch has one and the CORE never records it (R209). -/
def errorCode : ErrorKind → BitVec 4
  | .divisionByZero => 1#4
  | .invalidParameters => 2#4
  | .singularMatrix => 3#4
  | .inconsistentErasureSet => 4#4
  | .unregisteredBuffer => 5#4
  | .backendMismatch => 6#4
  | .matrixNotValid => 7#4
  | .badCommand => 8#4

/-- The fatal kinds (R208). -/
def isFatal : ErrorKind → Bool
  | .divisionByZero => true
  | .invalidParameters => false
  | .singularMatrix => true
  | .inconsistentErasureSet => false
  | .unregisteredBuffer => false
  | .backendMismatch => false
  | .matrixNotValid => false
  | .badCommand => false

/-- The state `raise` leaves: ERR written, HALT set for a fatal kind, nothing else (R211). -/
def State.recordError (s : State) (x : ErrorKind) (op : Byte) (i0 i1 : BitVec 12) : State :=
  { s with err := { kind := errorCode x, op := op, info0 := i0, info1 := i1 }, halt := s.halt || isFatal x }

/-- `raise X(op, i0, i1)` (R211): record the error, answer with its code, write nothing else. -/
def raise (x : ErrorKind) (op : Byte) (i0 i1 : BitVec 12) (s : State) : Result :=
  .next ((s.recordError x op i0 i1).reply (.response (responseWord (errorCode x) 0#24)))

/-- BadCommand records the whole word: op = cmd[31:24], info0 = cmd[23:12], info1 = cmd[11:0] (R207). -/
def raiseBadCommand (w : Word) (s : State) : Result :=
  raise .badCommand (opcOf w) (fieldHi12 w) (fieldLo12 w) s

/-- Whether an error is pending (R213). -/
def State.pending (s : State) : Bool := decide (s.err.kind ≠ 0#4)

/-- The return from a reported error: ERR all zeros, nothing else (R174, R217). -/
def State.clearErr (s : State) : State := { s with err := ErrRecord.none }

/-- Soft reset (R177, R241): everything but SB and the environment's input. The bytes of EM, DM and SRV are left as they
were, unobservable behind valid bits that are 0 (notes/assumptions/5.md). -/
def State.softReset (s : State) : State :=
  { s with k := 0#8, m := 0#8, usize := 0#24, eras := 0#256, emv := false, dmv := false,
           err := ErrRecord.none, halt := false }

/-- Hardware reset (R240): the reset state, SB's contents a fresh arbitrary value, and what belongs to the host and the
environment (ACC, the coming moves, the answers given) kept (notes/assumptions/2.md). -/
def State.hardwareReset (s : State) : State :=
  { State.reset with acc := s.acc, resets := s.resets + 1, inbox := s.inbox, replies := s.replies }

end Sys2Proof.Machine
end

