-- ==== Sys2Proof/Machine/Operands.lean ====
section
/-!
DEFINITION. Operand forms: every operand is the unsigned value of its field (R83); the widenings `zext_N` of R9 and the
context forms of the error record (R32).
-/
namespace Sys2Proof.Machine

/-- zext_24 of a byte, for a response's data (R9). -/
def zext24 (a : Byte) : BitVec 24 := a.setWidth 24

/-- zext_12 of a byte operand, for an error's context (R9). -/
def zext12 (a : Byte) : BitVec 12 := a.setWidth 12

/-- A unit index, a column number or a count as an error's context: its low 12 bits; every one the CORE records is at
most 256 (R114). -/
def info12 (n : Nat) : BitVec 12 := BitVec.ofNat 12 n

/-- A unit index as the byte that addresses it, u[7:0] (R60). -/
def unitByte (u : Nat) : Byte := BitVec.ofNat 8 u

/-- u ∈ E (R12). -/
def State.erased (s : State) (u : Nat) : Bool := s.eras.getLsbD u

/-- ACC(u) (R36). -/
def State.accessible (s : State) (u : Nat) : Bool := s.acc.getLsbD u

/-- K as a number. -/
def State.kN (s : State) : Nat := s.k.toNat

/-- M as a number. -/
def State.mN (s : State) : Nat := s.m.toNat

/-- K + M, the number of units, without wrap-around (R114). -/
def State.nUnits (s : State) : Nat := s.k.toNat + s.m.toNat

/-- X[i][j] of a matrix store (R11). Outside the stored rows and columns it is 0, which no command can observe (U5). -/
def matGet (x : Matrix) (i j : Nat) : Byte := (x.getD i []).getD j 0#8

/-- SRV[r] (R13). -/
def State.srvAt (s : State) (r : Nat) : Byte := s.srv.getD r 0#8

/-- ERAS with bit u set (R172). -/
def erasInsert (e : BitVec 256) (u : Byte) : BitVec 256 := e ||| (1#256 <<< u.toNat)

/-- ERAS with bit u cleared (R173). -/
def erasRemove (e : BitVec 256) (u : Byte) : BitVec 256 := e &&& ~~~(1#256 <<< u.toNat)

/-- Bits 8a+7 to 8a of ERAS (R178). -/
def erasByte (e : BitVec 256) (a : Byte) : Byte := e.extractLsb' (8 * a.toNat) 8

end Sys2Proof.Machine
end

