-- ==== Sys2Proof/Machine/Arithmetic.lean ====
section
/-!
DEFINITION. The meanings of GFMUL, GFDIV, GFINV, GFPOW (R110 to R113).
-/
namespace Sys2Proof.Machine

/-- GFMUL a, b (R110). -/
def execGfmul (a b : Byte) (s : State) : Result := respond (zext24 (gfMul a b)) s

/-- GFDIV a, b (R111): DivisionByZero for b = 0, whatever a is. -/
def execGfdiv (a b : Byte) (s : State) : Result :=
  if b = 0#8 then raise .divisionByZero 0x11#8 (zext12 a) (zext12 b) s
  else respond (zext24 (gfDiv a b)) s

/-- GFINV a (R112): DivisionByZero for a = 0. -/
def execGfinv (a : Byte) (s : State) : Result :=
  if a = 0#8 then raise .divisionByZero 0x12#8 0#12 0#12 s
  else respond (zext24 (gfInv a)) s

/-- GFPOW a, b (R113): b is a plain exponent. -/
def execGfpow (a b : Byte) (s : State) : Result := respond (zext24 (gfPow a b.toNat)) s

end Sys2Proof.Machine
end

