-- ==== Sys2Proof/Machine/MatrixOps.lean ====
section
/-!
DEFINITION. The functions of the matrix builder: legal parameters (R122), the encode matrix (R123), survivors (R126), the
erasure-set check (R130), Gauss-Jordan inversion (R127), recovery rows (R131), the two flat layouts (R40, R159).
-/
namespace Sys2Proof.Machine

/-- R122: 1 ≤ m, m ≤ k and k + m ≤ 256. -/
def legalParams (k m : Nat) : Bool := decide (1 ≤ m ∧ m ≤ k ∧ k + m ≤ 256)

/-- build_encode_matrix(k, m) (R123): identity rows, then Cauchy rows 1/(x_i − y_j) (R121). -/
def buildEncodeMatrix (k m : Nat) : Matrix :=
  (List.range (k + m)).map fun i => (List.range k).map fun j =>
    if i < k then (if i = j then 1#8 else 0#8)
    else gfInv (gfAdd (Config.cauchyX i) (Config.cauchyY j))

/-- survivors(K, M, E) (R126): the K lowest unit indices not in E, ascending. -/
def survivors (k m : Nat) (eras : BitVec 256) : List Nat :=
  ((List.range (k + m)).filter fun u => !eras.getLsbD u).take k

/-- The results of eras_check (R130). -/
inductive ErasCheck where
  | ok
  | outOfRange (u : Nat)
  | tooMany (n : Nat)
  deriving DecidableEq, Repr

/-- |E| (R12). -/
def erasCount (eras : BitVec 256) : Nat := (List.range 256).countP fun u => eras.getLsbD u

/-- eras_check(K, M, ERAS) (R130): the lowest index of K + M or more first, then the count against M. -/
def erasCheck (k m : Nat) (eras : BitVec 256) : ErasCheck :=
  match (List.range 256).find? (fun u => eras.getLsbD u && decide (k + m ≤ u)) with
  | some u => .outOfRange u
  | none => if m < erasCount eras then .tooMany (erasCount eras) else .ok

/-- A row of the working pair of R127: its part of W and its part of B. -/
structure AugRow where
  w : List Byte
  b : List Byte
  deriving DecidableEq, Repr

/-- The results of gf_invert (R127). -/
inductive InvertResult where
  | inverse (b : Matrix)
  | singular (c : Nat)
  deriving DecidableEq, Repr

/-- The n × n identity. -/
def identityMatrix (n : Nat) : Matrix :=
  (List.range n).map fun i => (List.range n).map fun j => if i = j then 1#8 else 0#8

/-- The pivot of column c: the first row from c down to n − 1 with a nonzero entry there (R127). -/
def pivotRow (n c : Nat) (rows : List AugRow) : Option Nat :=
  (List.range' c (n - c)).find? fun r => decide ((rows.getD r ⟨[], []⟩).w.getD c 0#8 ≠ 0#8)

/-- Swap rows c and p of W and of B; no change when p = c (R127). -/
def swapRows (c p : Nat) (rows : List AugRow) : List AugRow :=
  (rows.set c (rows.getD p ⟨[], []⟩)).set p (rows.getD c ⟨[], []⟩)

/-- A row times s, in W and in B. -/
def scaleRow (s : Byte) (r : AugRow) : AugRow := ⟨r.w.map (gfMul s), r.b.map (gfMul s)⟩

/-- A row plus f times another, in W and in B. -/
def addScaledRow (f : Byte) (piv r : AugRow) : AugRow :=
  ⟨List.zipWith (fun x y => gfAdd x (gfMul f y)) r.w piv.w, List.zipWith (fun x y => gfAdd x (gfMul f y)) r.b piv.b⟩

/-- Put the scaled pivot row at c and clear column c of every other row, above and below (R127). -/
def clearColumn (c : Nat) (piv : AugRow) (rows : List AugRow) : List AugRow :=
  rows.mapIdx fun r row =>
    if r = c then piv
    else if row.w.getD c 0#8 = 0#8 then row
    else addScaledRow (row.w.getD c 0#8) piv row

/-- The columns of gf_invert from c on, `fuel` of them (R127). -/
def gfInvertFrom (n : Nat) : Nat → Nat → List AugRow → InvertResult
  | 0, _, rows => .inverse (rows.map AugRow.b)
  | fuel + 1, c, rows =>
    match pivotRow n c rows with
    | none => .singular c
    | some p =>
      let swapped := swapRows c p rows
      let top := swapped.getD c ⟨[], []⟩
      gfInvertFrom n fuel (c + 1) (clearColumn c (scaleRow (gfInv (top.w.getD c 0#8)) top) swapped)

/-- gf_invert(A, n) (R127). -/
def gfInvert (a : Matrix) (n : Nat) : InvertResult :=
  gfInvertFrom n n 0 (List.zipWith AugRow.mk a (identityMatrix n))

/-- The n × n matrix of the rows of x that a list of n row numbers names (R129). -/
def selectRows (x : Matrix) (n : Nat) (rows : List Nat) : Matrix :=
  rows.map fun u => (List.range n).map fun c => matGet x u c

/-- rec_row(e)[r] (R131): an entry of DM for a data unit, of EM[e] × DM for a parity unit. -/
def recCoeff (em dm : Matrix) (k e r : Nat) : Byte :=
  if e < k then matGet dm e r
  else xorSum k fun c => gfMul (matGet em e c) (matGet dm c r)

/-- The row-major layout of an R × C matrix: element (i, j) at i × C + j (R40). -/
def rowMajor (x : Matrix) (r c : Nat) : List Byte :=
  (List.range r).flatMap fun i => (List.range c).map fun j => matGet x i j

/-- The transposed layout of an R × C matrix: element (i, j) at j × R + i (R40, R159). -/
def transposed (x : Matrix) (r c : Nat) : List Byte :=
  (List.range c).flatMap fun j => (List.range r).map fun i => matGet x i j

end Sys2Proof.Machine
end

