-- ==== Sys2Proof/Machine/Codec.lean ====
section
/-!
DEFINITION. The encode and decode engines: the access check (R154), the dot product (R150), the two datapaths (R158, R159),
and the meanings of ENCODE (R151) and DECODE (R152).
-/
namespace Sys2Proof.Machine

/-- access_check(bk, units) (R154): Software is never denied; HardwareOffload is denied at the lowest unit it would touch
that ACC does not allow. -/
def accessCheck (bk : Datapath) (s : State) (units : Nat → Bool) : Option Nat :=
  match bk with
  | .software => none
  | .hardwareOffload => (List.range 256).find? fun u => units u && !s.accessible u

/-- The coefficient X[i][j] as a datapath fetches it from an R × C matrix: Software from the logical container,
HardwareOffload from the transposed copy (R159; DESIGN CHOICE, safe, notes/assumptions/10.md). -/
def coeff (bk : Datapath) (x : Matrix) (r c i j : Nat) : Byte :=
  match bk with
  | .software => matGet x i j
  | .hardwareOffload => (transposed x r c).getD (j * r + i) 0#8

/-- dot(g, s, t) (R150) with K = n: g the coefficients, src the source units, t the offset. -/
def dot (s : State) (n : Nat) (g : Nat → Byte) (src : Nat → Byte) (t : BitVec 24) : Byte :=
  xorSum n fun r => gfMul (g r) (s.sbRead (sbAddr (src r) t))

/-- The bytes of one output unit: a dot product at every offset below USIZE, each on its own (R155). -/
def unitCells (s : State) (n : Nat) (g : Nat → Byte) (src : Nat → Byte) (dst : Byte) : List Host.Cell :=
  (List.range s.usize.toNat).map fun t =>
    ((sbAddr dst (BitVec.ofNat 24 t)).toNat, dot s n g src (BitVec.ofNat 24 t))

/-- The bytes ENCODE writes: unit K+p from row K+p of EM and the data units, p = 0..M−1 (R151). All are computed from the
state the command starts in: no byte written is read (R74; DEDUCED, safe, notes/assumptions/9.md). -/
def encodeCells (bk : Datapath) (s : State) : List Host.Cell :=
  (List.range' s.kN s.mN).flatMap fun i =>
    unitCells s s.kN (fun j => coeff bk s.em s.nUnits s.kN i j) unitByte (unitByte i)

/-- ENCODE bk (R151). -/
def execEncode (bk : Datapath) (s : State) : Result :=
  if s.emv = false then raise .matrixNotValid 0x30#8 0#12 0#12 s
  else match accessCheck bk s (fun u => decide (u < s.nUnits)) with
    | some u => raise .unregisteredBuffer 0x30#8 (info12 u) 0#12 s
    | none => respond 0#24 (s.sbWriteAll (encodeCells bk s))

/-- The first position of SRV whose unit is erased (R152, R153). -/
def erasedSurvivor (s : State) : Option Nat :=
  (List.range s.kN).find? fun r => s.erased (s.srvAt r).toNat

/-- Whether DECODE reads or writes unit u: a unit of SRV or of E (R152). -/
def decodeTouches (s : State) (u : Nat) : Bool :=
  s.erased u || (List.range s.kN).any fun r => decide ((s.srvAt r).toNat = u)

/-- The members of E below K + M, ascending: the units DECODE writes (R152). -/
def erasedUnits (s : State) : List Nat := (List.range s.nUnits).filter fun u => s.erased u

/-- The recovery rows of the erased units, one row of K coefficients each (R131). -/
def recoveryMatrix (s : State) : Matrix :=
  (erasedUnits s).map fun e => (List.range s.kN).map fun r => recCoeff s.em s.dm s.kN e r

/-- The bytes DECODE writes: each erased unit from its recovery row and the units of SRV (R152). All are computed from
the state the command starts in: no byte written is read (R74, R162). -/
def decodeCells (bk : Datapath) (s : State) : List Host.Cell :=
  (erasedUnits s).zipIdx.flatMap fun ep =>
    unitCells s s.kN (fun r => coeff bk (recoveryMatrix s) (erasedUnits s).length s.kN ep.2 r) s.srvAt (unitByte ep.1)

/-- DECODE bk (R152). -/
def execDecode (bk : Datapath) (s : State) : Result :=
  if s.dmv = false then raise .matrixNotValid 0x31#8 0x001#12 0#12 s
  else match erasCheck s.kN s.mN s.eras with
    | .outOfRange u => raise .inconsistentErasureSet 0x31#8 (info12 u) 0x001#12 s
    | .tooMany n => raise .inconsistentErasureSet 0x31#8 (info12 n) 0x002#12 s
    | .ok =>
      match erasedSurvivor s with
      | some r => raise .inconsistentErasureSet 0x31#8 (zext12 (s.srvAt r)) 0x003#12 s
      | none =>
        match accessCheck bk s (decodeTouches s) with
        | some u => raise .unregisteredBuffer 0x31#8 (info12 u) 0#12 s
        | none => respond 0#24 (s.sbWriteAll (decodeCells bk s))

end Sys2Proof.Machine
end

