-- ==== Sys2Proof/Machine/Flags.lean ====
section
/-!
DEFINITION. The views that read commands return: STATUS, the only flags the CORE has (R34), and the error record (R176).
No arithmetic command sets a flag.
-/
namespace Sys2Proof.Machine

/-- A valid bit, HALT or ERRP as one bit. -/
def bit (b : Bool) : BitVec 1 := BitVec.ofBool b

/-- STATUS = M, K, ERR.kind, ERRP, HALT, DMV, EMV from the top bit down (R34, R175). -/
def statusView (s : State) : BitVec 24 :=
  s.m ++ s.k ++ s.err.kind ++ bit s.pending ++ bit s.halt ++ bit s.dmv ++ bit s.emv

/-- RDERR 0: zero, ERR.op, 0b000, HALT, ERR.kind (R176). -/
def errView0 (s : State) : BitVec 24 := 0#8 ++ s.err.op ++ 0#3 ++ bit s.halt ++ s.err.kind

/-- RDERR 1: ERR.info0, ERR.info1 (R176). -/
def errView1 (s : State) : BitVec 24 := s.err.info0 ++ s.err.info1

end Sys2Proof.Machine
end

