-- ==== Sys2Proof/Machine/Control.lean ====
section
/-!
DEFINITION. The meanings of SETUS, ERASCLR, ERASSET, ERASDEL, CLRERR, RDSTAT, RDERR, SRESET, RDERAS, RDUS (R170 to R179).
-/
namespace Sys2Proof.Machine

/-- SETUS n (R170). -/
def execSetus (n : BitVec 24) (s : State) : Result := respond 0#24 (s.setUsize n)

/-- ERASCLR (R171). -/
def execErasclr (s : State) : Result := respond 0#24 (s.setEras 0#256)

/-- ERASSET a (R172). -/
def execErasset (a : Byte) (s : State) : Result := respond 0#24 (s.setEras (erasInsert s.eras a))

/-- ERASDEL a (R173). -/
def execErasdel (a : Byte) (s : State) : Result := respond 0#24 (s.setEras (erasRemove s.eras a))

/-- CLRERR (R174): reached only with HALT = 0, by the gate (R213). -/
def execClrerr (s : State) : Result := respond 0#24 s.clearErr

/-- RDSTAT (R175). -/
def execRdstat (s : State) : Result := respond (statusView s) s

/-- RDERR a (R176). A selector above 1 has no legal word (R85): BadCommand, as its word would raise (R86;
DEDUCED, safe, notes/assumptions/12.md). -/
def execRderr (a : Byte) (s : State) : Result :=
  if a = 0#8 then respond (errView0 s) s
  else if a = 1#8 then respond (errView1 s) s
  else raiseBadCommand (encode (.rderr a)) s

/-- SRESET (R177). -/
def execSreset (s : State) : Result := respond 0#24 s.softReset

/-- RDERAS a (R178). A byte index above 31 has no legal word (R85): BadCommand, as its word would raise (R86;
DEDUCED, safe, notes/assumptions/12.md). -/
def execRderas (a : Byte) (s : State) : Result :=
  if a.toNat ≤ 31 then respond (zext24 (erasByte s.eras a)) s
  else raiseBadCommand (encode (.rderas a)) s

/-- RDUS (R179). -/
def execRdus (s : State) : Result := respond s.usize s

end Sys2Proof.Machine
end

