-- ==== Sys2Proof/Machine/Matrices.lean ====
section
/-!
DEFINITION. The meanings of MKENC, MKDEC, RDENC, RDDEC, RDSRV (R125, R129, R132 to R134).
-/
namespace Sys2Proof.Machine

/-- MKENC k, m (R125). -/
def execMkenc (k m : BitVec 12) (s : State) : Result :=
  if legalParams k.toNat m.toNat then
    respond 0#24 (s.loadEncode (buildEncodeMatrix k.toNat m.toNat) (k.setWidth 8) (m.setWidth 8))
  else raise .invalidParameters 0x20#8 k m s

/-- MKDEC (R129): the new inverse is committed only when the inversion has succeeded. -/
def execMkdec (s : State) : Result :=
  if s.emv = false then raise .matrixNotValid 0x21#8 0#12 0#12 s
  else match erasCheck s.kN s.mN s.eras with
    | .outOfRange u => raise .inconsistentErasureSet 0x21#8 (info12 u) 0x001#12 s
    | .tooMany n => raise .inconsistentErasureSet 0x21#8 (info12 n) 0x002#12 s
    | .ok =>
      match gfInvert (selectRows s.em s.kN (survivors s.kN s.mN s.eras)) s.kN with
      | .singular c => raise .singularMatrix 0x21#8 (info12 c) 0#12 s
      | .inverse b =>
        respond 0#24 (s.loadDecode b ((survivors s.kN s.mN s.eras).map unitByte))

/-- RDENC a, b (R132). -/
def execRdenc (a b : Byte) (s : State) : Result :=
  if s.emv = false then raise .matrixNotValid 0x22#8 0#12 0#12 s
  else if s.nUnits ≤ a.toNat ∨ s.kN ≤ b.toNat then raiseBadCommand (encode (.rdenc a b)) s
  else respond (zext24 (matGet s.em a.toNat b.toNat)) s

/-- RDDEC a, b (R133). -/
def execRddec (a b : Byte) (s : State) : Result :=
  if s.dmv = false then raise .matrixNotValid 0x23#8 0x001#12 0#12 s
  else if s.kN ≤ a.toNat ∨ s.kN ≤ b.toNat then raiseBadCommand (encode (.rddec a b)) s
  else respond (zext24 (matGet s.dm a.toNat b.toNat)) s

/-- RDSRV a (R134). -/
def execRdsrv (a : Byte) (s : State) : Result :=
  if s.dmv = false then raise .matrixNotValid 0x24#8 0x001#12 0#12 s
  else if s.kN ≤ a.toNat then raiseBadCommand (encode (.rdsrv a)) s
  else respond (zext24 (s.srvAt a.toNat)) s

end Sys2Proof.Machine
end

