-- ==== Sys2Proof/Machine/Dispatch.lean ====
section
/-!
DEFINITION. `execute d` of R214: the pseudocode of each command's rule, one arm per command. The gate is outside it, in
Sys2Proof/Machine/Gate.lean.
-/
namespace Sys2Proof.Machine

def exec (i : Instr) (s : State) : Host.Outcome State Fault Refusal :=
  match i with
  | .gfmul a b => Sys2Proof.Machine.execGfmul a b s
  | .gfdiv a b => Sys2Proof.Machine.execGfdiv a b s
  | .gfinv a => Sys2Proof.Machine.execGfinv a s
  | .gfpow a b => Sys2Proof.Machine.execGfpow a b s
  | .mkenc k m => Sys2Proof.Machine.execMkenc k m s
  | .mkdec => Sys2Proof.Machine.execMkdec s
  | .rdenc a b => Sys2Proof.Machine.execRdenc a b s
  | .rddec a b => Sys2Proof.Machine.execRddec a b s
  | .rdsrv a => Sys2Proof.Machine.execRdsrv a s
  | .encode bk => Sys2Proof.Machine.execEncode bk s
  | .decode bk => Sys2Proof.Machine.execDecode bk s
  | .setus n => Sys2Proof.Machine.execSetus n s
  | .erasclr => Sys2Proof.Machine.execErasclr s
  | .erasset a => Sys2Proof.Machine.execErasset a s
  | .erasdel a => Sys2Proof.Machine.execErasdel a s
  | .clrerr => Sys2Proof.Machine.execClrerr s
  | .rdstat => Sys2Proof.Machine.execRdstat s
  | .rderr a => Sys2Proof.Machine.execRderr a s
  | .sreset => Sys2Proof.Machine.execSreset s
  | .rderas a => Sys2Proof.Machine.execRderas a s
  | .rdus => Sys2Proof.Machine.execRdus s

end Sys2Proof.Machine
end

