-- ==== Sys2Proof/Machine/Gate.lean ====
section
/-!
DEFINITION. The step of the CORE on one command word (R214): the gate of R213 around the execution of a command; and the
host's moves (R72, R240).
-/
namespace Sys2Proof.Machine

/-- The commands accepted while an error is pending: RDSTAT, RDERR, RDERAS, RDUS, SRESET, and CLRERR with HALT = 0 (R213). -/
def acceptedWhilePending (halt : Bool) : Instr → Bool
  | .gfmul _ _ => false
  | .gfdiv _ _ => false
  | .gfinv _ => false
  | .gfpow _ _ => false
  | .mkenc _ _ => false
  | .mkdec => false
  | .rdenc _ _ => false
  | .rddec _ _ => false
  | .rdsrv _ => false
  | .encode _ => false
  | .decode _ => false
  | .setus _ => false
  | .erasclr => false
  | .erasset _ => false
  | .erasdel _ => false
  | .clrerr => !halt
  | .rdstat => true
  | .rderr _ => true
  | .sreset => true
  | .rderas _ => true
  | .rdus => true

/-- step(cmd) of R214. -/
def runWord (w : Word) (s : State) : Result :=
  match decode w with
  | .ok i =>
    if s.pending && !acceptedWhilePending s.halt i then refuse s else exec i s
  | .error _ =>
    if s.pending then refuse s else raiseBadCommand w s

/-- One move of the host: a command runs to its response; the others act between commands (R72). -/
def hostMove (m : HostMove) (s : State) : Result :=
  match m with
  | .command w => runWord w s
  | .writeByte a v => .next (s.sbWrite a v)
  | .readByte a => .next (s.reply (.byte (s.sbRead a)))
  | .setAcc acc => .next (s.setAccess acc)
  | .hardReset => .next s.hardwareReset

/-- Take the host's next move and make it; with none, the CORE waits and nothing changes (R226). -/
def transact (s : State) : Result :=
  match s.inbox with
  | [] => .next s
  | m :: rest => hostMove m (s.setInbox rest)

/-- Make a command word the host's next move (notes/assumptions/3.md). -/
def presentWord (w : Word) (s : State) : State := s.setInbox (.command w :: s.inbox)

end Sys2Proof.Machine
end

