-- ==== Sys2Proof/Machine/Step.lean ====
section
/-!
DEFINITION. One step of the machine, and the state in which the next step runs a given command word.
-/
namespace Sys2Proof.Machine

/-- One step: the host's next move (Sys2Proof/Machine/Gate.lean). -/
def step (s : State) : Host.Outcome State Fault Refusal := transact s

/-- `s` with the command word of an opcode-table row as the host's next move, so that the next step runs it. -/
def State.withFetchWord (s : State) (nbits w : Nat) : State := presentWord (tableWord nbits w) s

end Sys2Proof.Machine
end

