-- ==== Sys2Proof/Safety.lean ====
section
/-!
DEFINITION. What the machine keeps at all times (R26, R27, R29, R31, R33), and the terms claims about runs use: an inverse
(R28), a consistent stripe (R160), a completed pass (the model's choice, notes/assumptions/17.md).
-/
namespace Sys2Proof.Machine

/-- The error record is one the CORE writes: a code of R200 other than 6 (R209), all zeros when no error is recorded (R32),
and HALT set exactly for the fatal kinds (R33, R208). -/
abbrev State.errInv (s : State) : Prop :=
  s.err.kind ∈ [0#4, 1#4, 2#4, 3#4, 4#4, 5#4, 7#4, 8#4] ∧
  (s.err.kind = 0#4 → s.err = ErrRecord.none) ∧
  (s.halt = true ↔ s.err.kind = 1#4 ∨ s.err.kind = 3#4)

/-- While EMV = 1, K and M are legal and EM is the matrix built for them (R26, R27). -/
abbrev State.encInv (s : State) : Prop :=
  s.emv = true → legalParams s.kN s.mN = true ∧ s.em = buildEncodeMatrix s.kN s.mN

/-- While DMV = 1, EMV = 1 (R31) and SRV is K ascending unit indices below K + M (R29). -/
abbrev State.decInv (s : State) : Prop :=
  s.dmv = true → s.emv = true ∧ s.srv.length = s.kN ∧ s.srv.Pairwise (fun a b => a.toNat < b.toNat) ∧
    ∀ u ∈ s.srv, u.toNat < s.nUnits

/-- What every step keeps. -/
abbrev State.Inv (s : State) : Prop := s.errInv ∧ s.encInv ∧ s.decInv ∧ Memory.wf s.sb

/-- Entry (i, j) of the product of two n × n matrices over the field. -/
def matMulAt (n : Nat) (x y : Matrix) (i j : Nat) : Byte :=
  xorSum n fun c => gfMul (matGet x i c) (matGet y c j)

/-- B × A = identity, n × n. -/
abbrev IsLeftInverse (n : Nat) (b a : Matrix) : Prop :=
  ∀ i < n, ∀ j < n, matMulAt n b a i j = if i = j then 1#8 else 0#8

/-- The matrix DM was inverted from: rows SRV[0..K−1] of EM (R28). -/
def State.survivorMatrix (s : State) : Matrix := selectRows s.em s.kN (s.srv.map BitVec.toNat)

/-- While DMV = 1, DM × A = A × DM = identity for the matrix A it was built from (R28). -/
abbrev State.dmInverse (s : State) : Prop :=
  s.dmv = true → IsLeftInverse s.kN s.dm s.survivorMatrix ∧ IsLeftInverse s.kN s.survivorMatrix s.dm

/-- The byte at offset t of unit u. -/
def State.unitAt (s : State) (u t : Nat) : Byte := s.sbRead (sbAddr (unitByte u) (BitVec.ofNat 24 t))

/-- Every parity unit holds what ENCODE would write for the data units present, at offsets below USIZE (R160). -/
abbrev State.consistent (s : State) : Prop :=
  ∀ i, s.kN ≤ i → i < s.nUnits → ∀ t < s.usize.toNat,
    s.unitAt i t = xorSum s.kN fun j => gfMul (matGet s.em i j) (s.unitAt j t)

/-- A pass counts as completed when no error is pending at its end. DESIGN CHOICE, unsafe: R244 says only that a run that
ends with an error pending has not completed its pass; that no pending error is enough is the model's own, and it holds at
reset and after CLRERR of an aborted pass too (notes/assumptions/17.md). No statement uses it. -/
abbrev State.passCompleted (s : State) : Prop := s.err.kind = 0#4

/-! ### The ways a command ends, spelled out for claims -/

/-- `s` after a response of status `st` and data `d`: bits 31:28, zero in 27:24, bits 23:0 (R90). -/
def State.answered (s : State) (st : BitVec 4) (d : BitVec 24) : State :=
  { s with replies := s.replies ++ [.response (st ++ 0#4 ++ d)] }

/-- `s` after an error of this code and context, HALT raised for a fatal one (R211). -/
def State.failed (s : State) (code : BitVec 4) (op : Byte) (i0 i1 : BitVec 12) (fatal : Bool) : State :=
  { s with err := { kind := code, op := op, info0 := i0, info1 := i1 }, halt := s.halt || fatal,
           replies := s.replies ++ [.response (code ++ 0#4 ++ 0#24)] }

/-- The last answer is 0x00000000: the command from `s` to `t` succeeded and had no result (R90). -/
def Succeeded (s t : State) : Prop := t.replies = s.replies ++ [.response 0x00000000#32]

/-- Every command that reads EM, DM or SRV fails with MatrixNotValid and the context of its rule: their contents cannot be
observed (R41, R206). -/
def MatricesUnreadable (s : State) : Prop :=
  (∀ a b : Byte,
    exec (.rdenc a b) s = .next (s.failed 7#4 0x22#8 0x000#12 0x000#12 false) ∧
    exec (.rddec a b) s = .next (s.failed 7#4 0x23#8 0x001#12 0x000#12 false) ∧
    exec (.rdsrv a) s = .next (s.failed 7#4 0x24#8 0x001#12 0x000#12 false)) ∧
  exec .mkdec s = .next (s.failed 7#4 0x21#8 0x000#12 0x000#12 false) ∧
  ∀ bk : Datapath,
    exec (.encode bk) s = .next (s.failed 7#4 0x30#8 0x000#12 0x000#12 false) ∧
    exec (.decode bk) s = .next (s.failed 7#4 0x31#8 0x001#12 0x000#12 false)

/-- Units not in E keep their bytes from `s` to `lost`, at offsets below USIZE; those of E may have been lost (R160). -/
def LostOnly (s lost : State) : Prop :=
  lost = { s with sb := lost.sb } ∧
    ∀ u < s.nUnits, s.eras.getLsbD u = false → ∀ t < s.usize.toNat, lost.unitAt u t = s.unitAt u t

/-! ### ENCODE and DECODE with their accesses one after another, as R151 and R152 write them -/

/-- The loops of R151: every byte is computed from SB as the writes before it left it. -/
def encodeInterleaved (s : State) : State :=
  (List.range' s.kN s.mN).foldl (fun s1 i =>
    (List.range s.usize.toNat).foldl (fun s2 t =>
      s2.sbWrite (sbAddr (unitByte i) (BitVec.ofNat 24 t)) (xorSum s.kN fun j =>
        gfMul (matGet s.em i j) (s2.unitAt j t))) s1) s

/-- The loops of R152: every byte is computed from SB as the writes before it left it. -/
def decodeInterleaved (s : State) : State :=
  (List.range s.nUnits).foldl (fun s1 e =>
    if s.eras.getLsbD e then
      (List.range s.usize.toNat).foldl (fun s2 t =>
        s2.sbWrite (sbAddr (unitByte e) (BitVec.ofNat 24 t)) (xorSum s.kN fun r =>
          gfMul (recCoeff s.em s.dm s.kN e r) (s2.sbRead (sbAddr (s.srvAt r) (BitVec.ofNat 24 t))))) s1
    else s1) s

end Sys2Proof.Machine
end

