-- ==== Sys2Proof/Certificates/Slice0/Obligations.lean ====
section
/-!
DEFINITION. The statements for the provers, from the numbered rules of spec/. `exec` is the pseudocode of a command (R214),
the gate stands around it in `step`; a statement about `exec` holds in every state, pending or not.
-/
open Sys2Proof Sys2Proof.Machine

/-! ## Field arithmetic (spec/40) -/

/-- A byte as a polynomial over GF(2): bit i is the coefficient of x^i (R100). -/
noncomputable def Sys2Proof.bytePoly (a : Byte) : Polynomial (ZMod 2) :=
  ∑ i ∈ Finset.range 8, if a.getLsbD i then Polynomial.X ^ i else 0

/-- GF_POLY = x^8 + x^4 + x^3 + x^2 + 1 (R101). -/
noncomputable def Sys2Proof.gfPoly : Polynomial (ZMod 2) :=
  Polynomial.X ^ 8 + Polynomial.X ^ 4 + Polynomial.X ^ 3 + Polynomial.X ^ 2 + 1

/-- R103: gf_mul is the product of the polynomials of its operands, reduced modulo GF_POLY. -/
def Obligations.GfMulIsPolynomialProduct : Prop :=
  ∀ a b : Byte, bytePoly (gfMul a b) = (bytePoly a * bytePoly b) %ₘ gfPoly

/-- R104 (b) to (h), which the spec derives from R101 and R103: the product is commutative, associative, distributes over ⊕,
has 0x01 as its unit and 0x00 as its zero, no zero divisors, and one inverse of every nonzero byte; (a), closure, is the
type. -/
def Obligations.GfMulFieldLaws : Prop :=
  ∀ a b c : Byte,
    gfMul a b = gfMul b a ∧
    gfMul (gfMul a b) c = gfMul a (gfMul b c) ∧
    gfMul a (b ^^^ c) = gfMul a b ^^^ gfMul a c ∧
    gfMul a 0x01#8 = a ∧
    gfMul a 0x00#8 = 0x00#8 ∧
    (gfMul a b = 0x00#8 → a = 0x00#8 ∨ b = 0x00#8) ∧
    (a ≠ 0x00#8 → ∃! d : Byte, gfMul a d = 0x01#8)

/-- R105: the inverse of a nonzero byte is the one byte whose product with it is 1, and is its 254th power; the inverse of 0
does not exist and asking for it fails. -/
def Obligations.GfInvIsTheInverse : Prop :=
  (∀ a : Byte, a ≠ 0x00#8 →
    (∀ d : Byte, gfMul a d = 0x01#8 ↔ d = gfInv a) ∧ gfInv a = gfPow a 254 ∧ gfInv (gfInv a) = a) ∧
  gfInv 0x01#8 = 0x01#8 ∧
  ∀ s : State, exec (.gfinv 0x00#8) s = .next (s.failed 1#4 0x12#8 0x000#12 0x000#12 true)

/-- R107: the power of a byte, 0^0 = 1, and its period for a nonzero byte. -/
def Obligations.GfPowLaws : Prop :=
  ∀ (a : Byte) (n : Nat),
    gfPow a 0 = 0x01#8 ∧
    gfPow a (n + 1) = gfMul (gfPow a n) a ∧
    (1 ≤ n → gfPow 0x00#8 n = 0x00#8) ∧
    (a ≠ 0x00#8 → gfPow a n = gfPow a (n % 255))

/-- R101: 0x02 generates the multiplicative group, its order is 255. -/
def Obligations.TwoHasOrder255 : Prop :=
  ∀ a : Byte, a ≠ 0x00#8 → ∃! n : Nat, n < 255 ∧ gfPow 0x02#8 n = a

/-- R110, R113: the words of GFMUL and GFPOW, and that each completes with the field's value and writes no state. -/
def Obligations.GfmulGfpowComplete : Prop :=
  ∀ (a b : Byte) (s : State),
    decode (0x10#8 ++ a ++ b ++ 0x00#8) = .ok (.gfmul a b) ∧
    exec (.gfmul a b) s = .next (s.answered 0x0#4 (0#16 ++ gfMul a b)) ∧
    decode (0x13#8 ++ a ++ b ++ 0x00#8) = .ok (.gfpow a b) ∧
    exec (.gfpow a b) s = .next (s.answered 0x0#4 (0#16 ++ gfPow a b.toNat))

/-- R106, R111: GFDIV by a nonzero divisor completes with the one byte whose product with the divisor is the dividend; by
0 it raises DivisionByZero with both operands as context, for every dividend. -/
def Obligations.GfdivDividesOrFails : Prop :=
  ∀ (a b : Byte) (s : State),
    decode (0x11#8 ++ a ++ b ++ 0x00#8) = .ok (.gfdiv a b) ∧
    (b ≠ 0x00#8 → ∃ q : Byte, (∀ x : Byte, gfMul x b = a ↔ x = q) ∧ q = gfMul a (gfInv b) ∧
      exec (.gfdiv a b) s = .next (s.answered 0x0#4 (0#16 ++ q))) ∧
    (b = 0x00#8 → exec (.gfdiv a b) s = .next (s.failed 1#4 0x11#8 (0#4 ++ a) 0x000#12 true))

/-- R112: GFINV of a nonzero byte completes with its inverse; of 0 it raises DivisionByZero. -/
def Obligations.GfinvInvertsOrFails : Prop :=
  ∀ (a : Byte) (s : State),
    decode (0x12#8 ++ a ++ 0x0000#16) = .ok (.gfinv a) ∧
    (a ≠ 0x00#8 → ∃ d : Byte, gfMul a d = 0x01#8 ∧ exec (.gfinv a) s = .next (s.answered 0x0#4 (0#16 ++ d))) ∧
    (a = 0x00#8 → exec (.gfinv a) s = .next (s.failed 1#4 0x12#8 0x000#12 0x000#12 true))

/-- R115, which the spec derives from R105, R121 and R127: the builder never inverts 0, the pivot is never 0, and
DivisionByZero is raised only by GFINV 0 and GFDIV by 0. -/
def Obligations.DivisionByZeroOnlyFromZeroOperand : Prop :=
  (∀ k m i j : Nat, legalParams k m = true → k ≤ i → i < k + m → j < k →
    gfAdd (Config.cauchyX i) (Config.cauchyY j) ≠ 0x00#8) ∧
  (∀ (n c p : Nat) (rows : List AugRow), c < rows.length → p < rows.length → pivotRow n c rows = some p →
    ((swapRows c p rows).getD c ⟨[], []⟩).w.getD c 0x00#8 ≠ 0x00#8) ∧
  (∀ (i : Instr) (s t : State), exec i s = .next t → t.err.kind = 1#4 → s.err.kind ≠ 1#4 →
    i = .gfinv 0x00#8 ∨ ∃ a, i = .gfdiv a 0x00#8)

/-! ## Matrix builder (spec/41) -/

/-- R122, R125, R202: MKENC with legal parameters builds the matrix, sets K, M and EMV and clears DMV; with any other pair
it records the pair and changes nothing else. -/
def Obligations.MkencBuildsOrRejects : Prop :=
  ∀ (k m : BitVec 12) (s : State),
    decode (0x20#8 ++ k ++ m) = .ok (.mkenc k m) ∧
    (1 ≤ m.toNat ∧ m.toNat ≤ k.toNat ∧ k.toNat + m.toNat ≤ 256 →
      exec (.mkenc k m) s = .next (State.answered { s with
        em := buildEncodeMatrix k.toNat m.toNat, k := k.extractLsb' 0 8, m := m.extractLsb' 0 8,
        emv := true, dmv := false } 0x0#4 0#24) ∧
      k.toNat ≤ 255 ∧ m.toNat ≤ 128) ∧
    (¬(1 ≤ m.toNat ∧ m.toNat ≤ k.toNat ∧ k.toNat + m.toNat ≤ 256) →
      exec (.mkenc k m) s = .next (s.failed 2#4 0x20#8 k m false))

/-- R121, R123: the shape and every entry of the encode matrix: the identity on top, below it the inverse of i ⊕ j (the one
byte whose product with it is 1); the x values and the y values are distinct, and no x equals a y. -/
def Obligations.EncodeMatrixEntries : Prop :=
  ∀ k m : Nat, 1 ≤ m → m ≤ k → k + m ≤ 256 →
    (buildEncodeMatrix k m).length = k + m ∧
    (∀ row ∈ buildEncodeMatrix k m, row.length = k) ∧
    (∀ i < k, ∀ j < k, matGet (buildEncodeMatrix k m) i j = if i = j then 0x01#8 else 0x00#8) ∧
    (∀ i, k ≤ i → i < k + m → ∀ j < k,
      matGet (buildEncodeMatrix k m) i j ≠ 0x00#8 ∧
      gfMul (matGet (buildEncodeMatrix k m) i j) (BitVec.ofNat 8 i ^^^ BitVec.ofNat 8 j) = 0x01#8) ∧
    (∀ i < k + m, ∀ i' < k + m, Config.cauchyX i = Config.cauchyX i' → i = i') ∧
    (∀ j < k, ∀ j' < k, Config.cauchyY j = Config.cauchyY j' → j = j') ∧
    (∀ i, k ≤ i → i < k + m → ∀ j < k, Config.cauchyX i ≠ Config.cauchyY j)

/-- R124 (c): every square submatrix of the parity block is invertible. -/
def Obligations.ParitySubmatricesInvertible : Prop :=
  ∀ (k m : Nat) (rows cols : List Nat), 1 ≤ m → m ≤ k → k + m ≤ 256 →
    rows.Nodup → cols.Nodup → rows.length = cols.length →
    (∀ i ∈ rows, k ≤ i ∧ i < k + m) → (∀ j ∈ cols, j < k) →
    ∃ b : Matrix,
      IsLeftInverse rows.length b (rows.map fun i => cols.map fun j => matGet (buildEncodeMatrix k m) i j) ∧
      IsLeftInverse rows.length (rows.map fun i => cols.map fun j => matGet (buildEncodeMatrix k m) i j) b

/-- R126: with an erasure set that passes the check, the survivors are the K smallest unit indices not in it, ascending. -/
def Obligations.SurvivorsAreTheLowest : Prop :=
  ∀ (k m : Nat) (e : BitVec 256), erasCheck k m e = .ok →
    (survivors k m e).length = k ∧
    (survivors k m e).Pairwise (fun u v => u < v) ∧
    ∀ u ∈ survivors k m e, u < k + m ∧ e.getLsbD u = false ∧
      ∀ v < u, e.getLsbD v = false → v ∈ survivors k m e

/-- R127, R128: what gf_invert returns for an n × n matrix is its inverse on both sides, and every left inverse has the same
entries. -/
def Obligations.GfInvertReturnsTheInverse : Prop :=
  ∀ (n : Nat) (a b : Matrix), a.length = n → (∀ row ∈ a, row.length = n) → gfInvert a n = .inverse b →
    IsLeftInverse n b a ∧ IsLeftInverse n a b ∧
    ∀ b' : Matrix, IsLeftInverse n b' a → ∀ i < n, ∀ j < n, matGet b' i j = matGet b i j

/-- R128: gf_invert returns Singular exactly for a matrix that has no inverse. -/
def Obligations.GfInvertSingularIffNoInverse : Prop :=
  ∀ (n : Nat) (a : Matrix), a.length = n → (∀ row ∈ a, row.length = n) →
    ((∃ c, gfInvert a n = .singular c) ↔ ¬∃ b : Matrix, IsLeftInverse n b a)

/-- R130: what eras_check answers, with the set counted as a finite set. -/
def Obligations.ErasCheckAnswers : Prop :=
  ∀ (k m : Nat) (e : BitVec 256),
    (∀ u, erasCheck k m e = .outOfRange u ↔
      (u < 256 ∧ e.getLsbD u = true ∧ k + m ≤ u ∧ ∀ v < u, e.getLsbD v = true → v < k + m)) ∧
    (∀ n, erasCheck k m e = .tooMany n ↔
      ((∀ v < 256, e.getLsbD v = true → v < k + m) ∧
        n = ((Finset.range 256).filter fun v => e.getLsbD v = true).card ∧ m < n)) ∧
    (erasCheck k m e = .ok ↔
      ((∀ v < 256, e.getLsbD v = true → v < k + m) ∧
        ((Finset.range 256).filter fun v => e.getLsbD v = true).card ≤ m))

/-- R129: MKDEC in every state, its tests in their order: no encode matrix, an erased index out of range, too many
erased, no pivot (fatal), or the new DM, SRV and DMV and nothing else. -/
def Obligations.MkdecOutcomes : Prop :=
  decode 0x21000000#32 = .ok .mkdec ∧
  ∀ s : State,
    (s.emv = false → exec .mkdec s = .next (s.failed 7#4 0x21#8 0x000#12 0x000#12 false)) ∧
    (s.emv = true → ∀ u, erasCheck s.k.toNat s.m.toNat s.eras = .outOfRange u →
      exec .mkdec s = .next (s.failed 4#4 0x21#8 (BitVec.ofNat 12 u) 0x001#12 false)) ∧
    (s.emv = true → ∀ n, erasCheck s.k.toNat s.m.toNat s.eras = .tooMany n →
      exec .mkdec s = .next (s.failed 4#4 0x21#8 (BitVec.ofNat 12 n) 0x002#12 false)) ∧
    (s.emv = true → erasCheck s.k.toNat s.m.toNat s.eras = .ok →
      ∀ a : Matrix, a = (survivors s.k.toNat s.m.toNat s.eras).map
          (fun u => (List.range s.k.toNat).map fun c => matGet s.em u c) →
        (∀ c, gfInvert a s.k.toNat = .singular c →
          exec .mkdec s = .next (s.failed 3#4 0x21#8 (BitVec.ofNat 12 c) 0x000#12 true)) ∧
        (∀ b, gfInvert a s.k.toNat = .inverse b →
          exec .mkdec s = .next (State.answered { s with
            dm := b, srv := (survivors s.k.toNat s.m.toNat s.eras).map (BitVec.ofNat 8), dmv := true } 0x0#4 0#24)))

/-- R135, which the spec derives from R124 and R128: with the encode matrix MKENC built and an erasure set that passes the
check, MKDEC always succeeds: SingularMatrix is unreachable. -/
def Obligations.MkdecNeverSingular : Prop :=
  ∀ s : State, s.encInv → s.emv = true → erasCheck s.k.toNat s.m.toNat s.eras = .ok →
    ∃ t, exec .mkdec s = .next t ∧ Succeeded s t ∧ t.dmv = true ∧ t.err = s.err ∧ t.halt = s.halt

/-- R132: RDENC in every state. -/
def Obligations.RdencOutcomes : Prop :=
  ∀ (a b : Byte) (s : State),
    decode (0x22#8 ++ a ++ b ++ 0x00#8) = .ok (.rdenc a b) ∧
    (s.emv = false → exec (.rdenc a b) s = .next (s.failed 7#4 0x22#8 0x000#12 0x000#12 false)) ∧
    (s.emv = true → s.k.toNat + s.m.toNat ≤ a.toNat ∨ s.k.toNat ≤ b.toNat →
      exec (.rdenc a b) s =
        .next (s.failed 8#4 0x22#8 (a ++ b.extractLsb' 4 4) (b.extractLsb' 0 4 ++ 0x00#8) false)) ∧
    (s.emv = true → a.toNat < s.k.toNat + s.m.toNat → b.toNat < s.k.toNat →
      exec (.rdenc a b) s = .next (s.answered 0x0#4 (0#16 ++ matGet s.em a.toNat b.toNat)))

/-- R133, R134: RDDEC and RDSRV in every state. -/
def Obligations.RddecRdsrvOutcomes : Prop :=
  ∀ (a b : Byte) (s : State),
    decode (0x23#8 ++ a ++ b ++ 0x00#8) = .ok (.rddec a b) ∧
    decode (0x24#8 ++ a ++ 0x0000#16) = .ok (.rdsrv a) ∧
    (s.dmv = false →
      exec (.rddec a b) s = .next (s.failed 7#4 0x23#8 0x001#12 0x000#12 false) ∧
      exec (.rdsrv a) s = .next (s.failed 7#4 0x24#8 0x001#12 0x000#12 false)) ∧
    (s.dmv = true → s.k.toNat ≤ a.toNat ∨ s.k.toNat ≤ b.toNat →
      exec (.rddec a b) s =
        .next (s.failed 8#4 0x23#8 (a ++ b.extractLsb' 4 4) (b.extractLsb' 0 4 ++ 0x00#8) false)) ∧
    (s.dmv = true → s.k.toNat ≤ a.toNat →
      exec (.rdsrv a) s = .next (s.failed 8#4 0x24#8 (a ++ 0x0#4) 0x000#12 false)) ∧
    (s.dmv = true → a.toNat < s.k.toNat → b.toNat < s.k.toNat →
      exec (.rddec a b) s = .next (s.answered 0x0#4 (0#16 ++ matGet s.dm a.toNat b.toNat))) ∧
    (s.dmv = true → a.toNat < s.k.toNat →
      exec (.rdsrv a) s = .next (s.answered 0x0#4 (0#16 ++ s.srv.getD a.toNat 0x00#8)))

/-! ## Codec (spec/42) -/

/-- R150, R151: ENCODE in every state, its tests in their order. It completes, fills every byte of every parity unit below
USIZE with the dot product of its row of EM and the data bytes at the same offset, and changes no other byte and nothing
else; or it fails and writes the error alone. The premise K + M ≤ 256 is part of the invariant of StepKeepsInvariant. -/
def Obligations.EncodeOutcomes : Prop :=
  decode 0x30000000#32 = .ok (.encode .software) ∧ decode 0x30000001#32 = .ok (.encode .hardwareOffload) ∧
  (∀ (bk : Datapath) (s : State), s.emv = true → s.k.toNat + s.m.toNat ≤ 256 →
      (bk = .hardwareOffload → ∀ u < s.k.toNat + s.m.toNat, s.acc.getLsbD u = true) →
      ∃ t, exec (.encode bk) s = .next t ∧
        t = State.answered { s with sb := t.sb } 0x0#4 0#24 ∧
        (∀ i, s.k.toNat ≤ i → i < s.k.toNat + s.m.toNat → ∀ o < s.usize.toNat,
          t.sbRead (sbAddr (BitVec.ofNat 8 i) (BitVec.ofNat 24 o)) =
            xorSum s.k.toNat fun j =>
              gfMul (matGet s.em i j) (s.sbRead (sbAddr (BitVec.ofNat 8 j) (BitVec.ofNat 24 o)))) ∧
        (∀ x : BitVec 32,
          (∀ i, s.k.toNat ≤ i → i < s.k.toNat + s.m.toNat → ∀ o < s.usize.toNat,
            x ≠ sbAddr (BitVec.ofNat 8 i) (BitVec.ofNat 24 o)) →
          t.sbRead x = s.sbRead x)) ∧
  ∀ (bk : Datapath) (s : State),
    (s.emv = false → exec (.encode bk) s = .next (s.failed 7#4 0x30#8 0x000#12 0x000#12 false)) ∧
    (s.emv = true → bk = .hardwareOffload →
      ∀ u < 256, u < s.k.toNat + s.m.toNat → s.acc.getLsbD u = false → (∀ v < u, s.acc.getLsbD v = true) →
        exec (.encode bk) s = .next (s.failed 5#4 0x30#8 (BitVec.ofNat 12 u) 0x000#12 false))

/-- R151: encoding the same data twice with the same matrix yields identical parity. -/
def Obligations.EncodeIsIdempotent : Prop :=
  ∀ (bk bk' : Datapath) (s t u : State), s.k.toNat + s.m.toNat ≤ 256 →
    exec (.encode bk) s = .next t → Succeeded s t → exec (.encode bk') t = .next u → Succeeded t u →
    ∀ x : BitVec 32, u.sbRead x = t.sbRead x

/-- R131, R152: DECODE in every state, its tests in their order. It completes, fills every byte of every erased unit below
USIZE from its recovery row (a row of DM for a data unit, EM[e] × DM for a parity unit) and the units of SRV, and changes no
other byte and nothing else; or it fails and writes the error alone. -/
def Obligations.DecodeOutcomes : Prop :=
  decode 0x31000000#32 = .ok (.decode .software) ∧ decode 0x31000001#32 = .ok (.decode .hardwareOffload) ∧
  (∀ (bk : Datapath) (s : State), s.dmv = true → erasCheck s.k.toNat s.m.toNat s.eras = .ok →
      (∀ r < s.k.toNat, s.eras.getLsbD (s.srv.getD r 0x00#8).toNat = false) →
      (bk = .hardwareOffload →
        (∀ u, s.eras.getLsbD u = true → s.acc.getLsbD u = true) ∧
        (∀ r < s.k.toNat, s.acc.getLsbD (s.srv.getD r 0x00#8).toNat = true)) →
      ∃ t, exec (.decode bk) s = .next t ∧
        t = State.answered { s with sb := t.sb } 0x0#4 0#24 ∧
        (∀ e, s.eras.getLsbD e = true → ∀ o < s.usize.toNat,
          t.sbRead (sbAddr (BitVec.ofNat 8 e) (BitVec.ofNat 24 o)) =
            xorSum s.k.toNat fun r =>
              gfMul
                (if e < s.k.toNat then matGet s.dm e r
                 else xorSum s.k.toNat fun c => gfMul (matGet s.em e c) (matGet s.dm c r))
                (s.sbRead (sbAddr (s.srv.getD r 0x00#8) (BitVec.ofNat 24 o)))) ∧
        (∀ x : BitVec 32,
          (∀ e, s.eras.getLsbD e = true → ∀ o < s.usize.toNat,
            x ≠ sbAddr (BitVec.ofNat 8 e) (BitVec.ofNat 24 o)) →
          t.sbRead x = s.sbRead x)) ∧
  ∀ (bk : Datapath) (s : State),
    (s.dmv = false → exec (.decode bk) s = .next (s.failed 7#4 0x31#8 0x001#12 0x000#12 false)) ∧
    (s.dmv = true → ∀ u, erasCheck s.k.toNat s.m.toNat s.eras = .outOfRange u →
      exec (.decode bk) s = .next (s.failed 4#4 0x31#8 (BitVec.ofNat 12 u) 0x001#12 false)) ∧
    (s.dmv = true → ∀ n, erasCheck s.k.toNat s.m.toNat s.eras = .tooMany n →
      exec (.decode bk) s = .next (s.failed 4#4 0x31#8 (BitVec.ofNat 12 n) 0x002#12 false)) ∧
    (s.dmv = true → erasCheck s.k.toNat s.m.toNat s.eras = .ok →
      ∀ r < s.k.toNat, s.eras.getLsbD (s.srv.getD r 0x00#8).toNat = true →
        (∀ r' < r, s.eras.getLsbD (s.srv.getD r' 0x00#8).toNat = false) →
        exec (.decode bk) s =
          .next (s.failed 4#4 0x31#8 (0x0#4 ++ s.srv.getD r 0x00#8) 0x003#12 false)) ∧
    (s.dmv = true → erasCheck s.k.toNat s.m.toNat s.eras = .ok →
      (∀ r < s.k.toNat, s.eras.getLsbD (s.srv.getD r 0x00#8).toNat = false) → bk = .hardwareOffload →
      ∀ u < 256, (s.eras.getLsbD u = true ∨ ∃ r < s.k.toNat, (s.srv.getD r 0x00#8).toNat = u) →
        s.acc.getLsbD u = false →
        (∀ v < u, (s.eras.getLsbD v = true ∨ ∃ r < s.k.toNat, (s.srv.getD r 0x00#8).toNat = v) →
          s.acc.getLsbD v = true) →
        exec (.decode bk) s = .next (s.failed 5#4 0x31#8 (BitVec.ofNat 12 u) 0x000#12 false))

/-- R158: in every state in which both datapaths succeed they leave identical states, for ENCODE and for DECODE, although
HardwareOffload fetches its coefficients from a transposed copy. -/
def Obligations.BackendsAgree : Prop :=
  ∀ s t t' : State, Succeeded s t → Succeeded s t' →
    (exec (.encode .software) s = .next t → exec (.encode .hardwareOffload) s = .next t' → t = t') ∧
    (exec (.decode .software) s = .next t → exec (.decode .hardwareOffload) s = .next t' → t = t')

/-- R40, R159: the transposed layout is a permutation of the row-major one: element (i, j) stands at j × R + i in the one
and at i × C + j in the other, with the same value. -/
def Obligations.TransposedIsAPermutation : Prop :=
  ∀ (x : Matrix) (r c : Nat),
    (transposed x r c).Perm (rowMajor x r c) ∧
    ∀ i < r, ∀ j < c,
      (transposed x r c)[j * r + i]? = some (matGet x i j) ∧ (rowMajor x r c)[i * c + j]? = some (matGet x i j)

/-- R74 (notes/assumptions/9.md): the order of a command's accesses cannot change its result: with every access made one
after another as R151 and R152 write them, the state is the one the command leaves. -/
def Obligations.AccessOrderIsIrrelevant : Prop :=
  ∀ (bk : Datapath) (s t : State), Succeeded s t →
    (s.k.toNat + s.m.toNat ≤ 256 → exec (.encode bk) s = .next t →
      t = (encodeInterleaved s).answered 0x0#4 0#24) ∧
    (exec (.decode bk) s = .next t → t = (decodeInterleaved s).answered 0x0#4 0#24)

/-- R156: the bytes ENCODE writes are a function of EM, K, M, USIZE and the data units alone, not of the datapath, of ACC,
of the erasure set or of the old parity. -/
def Obligations.EncodeDependsOnItsInputsOnly : Prop :=
  ∀ (bk bk' : Datapath) (s s' t t' : State),
    s.em = s'.em → s.k = s'.k → s.m = s'.m → s.usize = s'.usize → s.k.toNat + s.m.toNat ≤ 256 →
    (∀ j < s.k.toNat, ∀ o < s.usize.toNat, s.unitAt j o = s'.unitAt j o) →
    exec (.encode bk) s = .next t → Succeeded s t → exec (.encode bk') s' = .next t' → Succeeded s' t' →
    ∀ i, s.k.toNat ≤ i → i < s.k.toNat + s.m.toNat → ∀ o < s.usize.toNat, t.unitAt i o = t'.unitAt i o

/-- R156, and R162, which the spec derives from R152: the bytes DECODE writes are a function of DM, SRV, EM, K, M, E,
USIZE and the units of SRV alone: an erased unit may hold anything. -/
def Obligations.DecodeDependsOnItsInputsOnly : Prop :=
  ∀ (bk bk' : Datapath) (s s' t t' : State),
    s.em = s'.em → s.dm = s'.dm → s.srv = s'.srv → s.k = s'.k → s.m = s'.m → s.usize = s'.usize → s.eras = s'.eras →
    (∀ r < s.k.toNat, ∀ o < s.usize.toNat,
      s.unitAt (s.srv.getD r 0x00#8).toNat o = s'.unitAt (s.srv.getD r 0x00#8).toNat o) →
    exec (.decode bk) s = .next t → Succeeded s t → exec (.decode bk') s' = .next t' → Succeeded s' t' →
    ∀ e, s.eras.getLsbD e = true → ∀ o < s.usize.toNat, t.unitAt e o = t'.unitAt e o

/-- R153: a stored inverse serves any erasure set that passes the check and leaves the units of SRV alone: DECODE restores
the bytes of a stripe that was consistent when they were lost, whichever set MKDEC saw. -/
def Obligations.StoredInverseServesOtherSets : Prop :=
  ∀ (bk : Datapath) (s lost t : State),
    s.dmv = true → s.encInv → s.decInv → s.dmInverse → s.consistent → LostOnly s lost →
    exec (.decode bk) lost = .next t → Succeeded lost t →
    ∀ e, s.eras.getLsbD e = true → ∀ o < s.usize.toNat, t.unitAt e o = s.unitAt e o

/-- R160: encode, lose any set of units the check allows, MKDEC, DECODE: every lost byte is back. DECODE succeeds as well
where the stripe is not consistent: it cannot tell. -/
def Obligations.RoundTripRestoresLostUnits : Prop :=
  (∀ s : State, s.dmv = true → erasCheck s.k.toNat s.m.toNat s.eras = .ok →
    (∀ r < s.k.toNat, s.eras.getLsbD (s.srv.getD r 0x00#8).toNat = false) →
    ∃ t, exec (.decode .software) s = .next t ∧ Succeeded s t) ∧
  ∀ (bk : Datapath) (s lost t u : State),
    s.emv = true → s.encInv → s.consistent → erasCheck s.k.toNat s.m.toNat s.eras = .ok → LostOnly s lost →
    exec .mkdec lost = .next t → Succeeded lost t →
    exec (.decode bk) t = .next u → Succeeded t u →
    ∀ e, s.eras.getLsbD e = true → ∀ o < s.usize.toNat, u.unitAt e o = s.unitAt e o

/-! ## Control (spec/43) -/

/-- R170 to R173: SETUS writes USIZE, ERASCLR, ERASSET and ERASDEL write ERAS one bit at a time, and nothing else. -/
def Obligations.OperandSetUpComplete : Prop :=
  ∀ (n : BitVec 24) (a : Byte) (s : State),
    decode (0x40#8 ++ n) = .ok (.setus n) ∧ decode 0x41000000#32 = .ok .erasclr ∧
    decode (0x42#8 ++ a ++ 0x0000#16) = .ok (.erasset a) ∧ decode (0x43#8 ++ a ++ 0x0000#16) = .ok (.erasdel a) ∧
    exec (.setus n) s = .next (State.answered { s with usize := n } 0x0#4 0#24) ∧
    (∃ e : BitVec 256, exec .erasclr s = .next (State.answered { s with eras := e } 0x0#4 0#24) ∧
      ∀ u < 256, e.getLsbD u = false) ∧
    (∃ e : BitVec 256, exec (.erasset a) s = .next (State.answered { s with eras := e } 0x0#4 0#24) ∧
      ∀ u < 256, e.getLsbD u = (decide (u = a.toNat) || s.eras.getLsbD u)) ∧
    (∃ e : BitVec 256, exec (.erasdel a) s = .next (State.answered { s with eras := e } 0x0#4 0#24) ∧
      ∀ u < 256, e.getLsbD u = (!decide (u = a.toNat) && s.eras.getLsbD u))

/-- R174, R177: CLRERR writes ERR alone, and is refused while HALT = 1; SRESET writes everything but SB and what is not the
CORE's, and is accepted in every state; it is the only command that clears HALT, and after it no matrix can be read. -/
def Obligations.ClrerrSresetComplete : Prop :=
  decode 0x44000000#32 = .ok .clrerr ∧ decode 0x47000000#32 = .ok .sreset ∧
  (∀ (i : Instr) (s t : State), exec i s = .next t → s.halt = true → t.halt = false → i = .sreset) ∧
  ∀ (s : State) (rest : List HostMove),
    exec .clrerr s = .next (State.answered { s with err := ⟨0#4, 0#8, 0#12, 0#12⟩ } 0x0#4 0#24) ∧
    (s.inbox = .command 0x44000000#32 :: rest → s.err.kind ≠ 0#4 → s.halt = true →
      step s = .next (State.answered { s with inbox := rest } 0xF#4 0#24)) ∧
    (∃ t, exec .sreset s = .next t ∧ t = State.answered { s with
        k := 0#8, m := 0#8, usize := 0#24, eras := 0#256, em := t.em, emv := false, dm := t.dm, srv := t.srv,
        dmv := false, err := ⟨0#4, 0#8, 0#12, 0#12⟩, halt := false } 0x0#4 0#24 ∧ MatricesUnreadable t) ∧
    (s.inbox = .command 0x47000000#32 :: rest → step s = exec .sreset { s with inbox := rest })

/-- R34, R175: RDSTAT answers the status view, bit by bit, and writes nothing. -/
def Obligations.RdstatShowsStatus : Prop :=
  decode 0x45000000#32 = .ok .rdstat ∧
  ∀ s : State, ∃ d : BitVec 24, exec .rdstat s = .next (s.answered 0x0#4 d) ∧
    d.getLsbD 0 = s.emv ∧ d.getLsbD 1 = s.dmv ∧ d.getLsbD 2 = s.halt ∧ d.getLsbD 3 = decide (s.err.kind ≠ 0#4) ∧
    d.extractLsb' 4 4 = s.err.kind ∧ d.extractLsb' 8 8 = s.k ∧ d.extractLsb' 16 8 = s.m

/-- R176: RDERR 0 and RDERR 1 answer the two halves of the error record and write nothing; with no error recorded both
answer 0; the words of the other selectors are illegal. -/
def Obligations.RderrShowsErrorRecord : Prop :=
  decode 0x46000000#32 = .ok (.rderr 0#8) ∧ decode 0x46010000#32 = .ok (.rderr 1#8) ∧
  (∀ a : Byte, 1 < a.toNat → ∃ x, decode (0x46#8 ++ a ++ 0x0000#16) = .error x) ∧
  (∀ s : State, s.err = ⟨0#4, 0#8, 0#12, 0#12⟩ → s.halt = false →
    exec (.rderr 0#8) s = .next (s.answered 0x0#4 0#24) ∧ exec (.rderr 1#8) s = .next (s.answered 0x0#4 0#24)) ∧
  ∀ s : State,
    (∃ d : BitVec 24, exec (.rderr 0#8) s = .next (s.answered 0x0#4 d) ∧
      d.extractLsb' 0 4 = s.err.kind ∧ d.getLsbD 4 = s.halt ∧ d.extractLsb' 5 3 = 0#3 ∧
      d.extractLsb' 8 8 = s.err.op ∧ d.extractLsb' 16 8 = 0#8) ∧
    (∃ d : BitVec 24, exec (.rderr 1#8) s = .next (s.answered 0x0#4 d) ∧
      d.extractLsb' 12 12 = s.err.info0 ∧ d.extractLsb' 0 12 = s.err.info1)

/-- R178, R179: RDERAS answers eight bits of the erasure set, RDUS the unit size; neither writes anything. The words of the
other byte indices are illegal. -/
def Obligations.RderasRdusComplete : Prop :=
  decode 0x49000000#32 = .ok .rdus ∧
  ∀ (a : Byte) (s : State),
    exec .rdus s = .next (s.answered 0x0#4 s.usize) ∧
    (31 < a.toNat → ∃ x, decode (0x48#8 ++ a ++ 0x0000#16) = .error x) ∧
    (a.toNat ≤ 31 →
      decode (0x48#8 ++ a ++ 0x0000#16) = .ok (.rderas a) ∧
      ∃ d : BitVec 24, exec (.rderas a) s = .next (s.answered 0x0#4 d) ∧
        (∀ i < 8, d.getLsbD i = s.eras.getLsbD (8 * a.toNat + i)) ∧ ∀ i, 8 ≤ i → d.getLsbD i = false)

/-! ## The step, the gate and errors (spec/60) -/

/-- R214 (the move list is the model's, notes/assumptions/3.md): with no error pending, a step whose next move is the word
of a command is the execution of that command, on the state with that move taken. -/
def Obligations.StepRunsTheDecodedCommand : Prop :=
  ∀ (s : State) (w : Word) (rest : List HostMove) (i : Instr),
    s.inbox = .command w :: rest → decode w = .ok i → s.err.kind = 0#4 → step s = exec i { s with inbox := rest }

/-- R213, R214: the step on a command word, by the gate. While an error is pending only the named commands run, every other
word, legal or not, is answered 0xF0000000 and changes nothing; with none pending every legal word runs and an illegal one
raises BadCommand. -/
def Obligations.GateRefusesWhilePending : Prop :=
  ∀ (s : State) (w : Word) (rest : List HostMove), s.inbox = .command w :: rest →
    (∀ i, decode w = .ok i →
      (s.err.kind = 0#4 ∨ mnemonicOf i ∈ ["RDSTAT", "RDERR", "RDERAS", "RDUS", "SRESET"] ∨
        (mnemonicOf i = "CLRERR" ∧ s.halt = false)) →
      step s = exec i { s with inbox := rest }) ∧
    (∀ i, decode w = .ok i → s.err.kind ≠ 0#4 →
      mnemonicOf i ∉ ["RDSTAT", "RDERR", "RDERAS", "RDUS", "SRESET"] → ¬(mnemonicOf i = "CLRERR" ∧ s.halt = false) →
      step s = .next (State.answered { s with inbox := rest } 0xF#4 0#24)) ∧
    (∀ x, decode w = .error x → s.err.kind ≠ 0#4 →
      step s = .next (State.answered { s with inbox := rest } 0xF#4 0#24)) ∧
    (∀ x, decode w = .error x → s.err.kind = 0#4 →
      step s = .next (State.failed { s with inbox := rest } 8#4
        (w.extractLsb' 24 8) (w.extractLsb' 12 12) (w.extractLsb' 0 12) false))

/-- R86: an illegal word with no error pending raises BadCommand, the whole word recorded, and with one pending it is
refused; it does nothing else. The all-zeros word, the all-ones word and every reserved opcode are illegal. -/
def Obligations.IllegalWordRaisesBadCommand : Prop :=
  (∀ (s : State) (w : Word) (rest : List HostMove) (x : DecodeError), s.inbox = .command w :: rest →
    decode w = .error x →
    (s.err.kind = 0#4 → step s = .next (State.failed { s with inbox := rest } 8#4
      (w.extractLsb' 24 8) (w.extractLsb' 12 12) (w.extractLsb' 0 12) false)) ∧
    (s.err.kind ≠ 0#4 → step s = .next (State.answered { s with inbox := rest } 0xF#4 0#24))) ∧
  (∀ w : Word,
    (w = 0x00000000#32 ∨ w = 0xFFFFFFFF#32 ∨ w.toNat / 2 ^ 24 < 0x10 ∨
      (0x14 ≤ w.toNat / 2 ^ 24 ∧ w.toNat / 2 ^ 24 < 0x20) ∨ (0x25 ≤ w.toNat / 2 ^ 24 ∧ w.toNat / 2 ^ 24 < 0x30) ∨
      (0x32 ≤ w.toNat / 2 ^ 24 ∧ w.toNat / 2 ^ 24 < 0x40) ∨ 0x4A ≤ w.toNat / 2 ^ 24) →
    ∃ x, decode w = .error x)

/-- R214, and R261, which the spec derives from the pseudocode: every command and every step ends in a next state: no
state and no word stops the machine. -/
def Obligations.EveryCommandTerminates : Prop :=
  (∀ (i : Instr) (s : State), ∃ t, exec i s = .next t) ∧ ∀ s : State, ∃ t, step s = .next t

/-- R212: once an error is recorded, no step changes the record but CLRERR (with HALT = 0), SRESET and a hardware reset. -/
def Obligations.FirstErrorStays : Prop :=
  ∀ s t : State, s.err.kind ≠ 0#4 → step s = .next t → t.err ≠ s.err →
    ∃ rest, (s.inbox = .command 0x44000000#32 :: rest ∧ s.halt = false) ∨
      s.inbox = .command 0x47000000#32 :: rest ∨ s.inbox = .hardReset :: rest

/-- R216, which the spec derives from R211 and R215: a command that raises has made none of its writes: the state differs
only in ERR and HALT (and in the move taken and the answer given), and ERR and the response name the command and the kind.
-/
def Obligations.ErrorsArePrecise : Prop :=
  ∀ (s t : State) (w r : Word) (rest : List HostMove), s.inbox = .command w :: rest → step s = .next t →
    t.replies = s.replies ++ [.response r] → 1 ≤ r.toNat / 2 ^ 28 → r.toNat / 2 ^ 28 ≤ 8 →
    t = { s with inbox := rest, err := t.err, halt := t.halt, replies := t.replies } ∧
    t.err.op = w.extractLsb' 24 8 ∧ t.err.kind = r.extractLsb' 28 4 ∧ s.err.kind = 0#4

/-- R90: every command is answered by one response word; bits 27:24 are 0, the status is one of 0 to 5, 7, 8 and F, the data
of a failure or refusal is 0, a failure changes nothing but ERR and HALT, and a refusal changes nothing. -/
def Obligations.ResponseWordForm : Prop :=
  ∀ (s t : State) (w : Word) (rest : List HostMove), s.inbox = .command w :: rest → step s = .next t →
    ∃ r : Word, t.replies = s.replies ++ [.response r] ∧ r.extractLsb' 24 4 = 0#4 ∧
      r.extractLsb' 28 4 ∈ [0x0#4, 0x1#4, 0x2#4, 0x3#4, 0x4#4, 0x5#4, 0x7#4, 0x8#4, 0xF#4] ∧
      (r.extractLsb' 28 4 ≠ 0x0#4 → r.extractLsb' 0 24 = 0#24) ∧
      (r.extractLsb' 28 4 = 0xF#4 → t = { s with inbox := rest, replies := t.replies }) ∧
      (r.extractLsb' 28 4 ≠ 0x0#4 → r.extractLsb' 28 4 ≠ 0xF#4 → t.err.kind = r.extractLsb' 28 4 ∧
        t = { s with inbox := rest, err := t.err, halt := t.halt, replies := t.replies })

/-- R217: a reported error ends with CLRERR, and then all state is as the failing command found it. -/
def Obligations.ClrerrReturnsToTheStateBefore : Prop :=
  ∀ (s t u : State) (w : Word) (rest : List HostMove), s.errInv → s.err.kind = 0#4 →
    s.inbox = .command w :: .command 0x44000000#32 :: rest → step s = .next t → t.err.kind ≠ 0#4 → t.halt = false →
    step t = .next u → u = { s with inbox := rest, replies := t.replies ++ [.response 0x00000000#32] }

/-- R26, R27, R29, R31, R33, R208, R209 as one invariant: the error record is one the CORE writes and HALT marks the fatal
kinds; a valid EM is the matrix of legal K and M; a valid DM stands beside a valid EM and SRV is K ascending unit indices;
SB is in canonical form. Every step keeps it. -/
def Obligations.StepKeepsInvariant : Prop :=
  ∀ s t : State, s.Inv → step s = .next t → t.Inv

/-- The reset state meets the invariant of StepKeepsInvariant, whatever has been set in the host's part. -/
def Obligations.ResetMeetsInvariant : Prop :=
  ∀ (acc : BitVec 256) (moves : List HostMove),
    State.Inv { State.reset with acc := acc, inbox := moves } ∧ State.dmInverse { State.reset with acc := acc, inbox := moves }

/-- R28: while DMV = 1, DM is the inverse, on both sides, of the matrix of the rows SRV names: every step keeps it. -/
def Obligations.StepKeepsDecodeMatrixInverse : Prop :=
  ∀ s t : State, s.Inv → s.dmInverse → step s = .next t → t.dmInverse

/-- Which commands write which state (R20, R32, R33, R73): each state element of R20 is left alone by every command that is
not named for it here. ERR is written by the commands that can raise, CLRERR and SRESET; HALT is set by GFDIV, GFINV and
MKDEC alone and cleared by SRESET alone. No command writes ACC, nor the model's own `resets` and `inbox`. -/
def Obligations.OnlyTheNamedCommandsWrite : Prop :=
  ∀ (i : Instr) (s t : State), exec i s = .next t →
    (mnemonicOf i ∉ ["MKENC", "SRESET"] → t.k = s.k ∧ t.m = s.m ∧ t.emv = s.emv) ∧
    (mnemonicOf i ≠ "MKENC" → mnemonicOf i ≠ "SRESET" → t.em = s.em) ∧
    (mnemonicOf i ∉ ["SETUS", "SRESET"] → t.usize = s.usize) ∧
    (mnemonicOf i ∉ ["ERASCLR", "ERASSET", "ERASDEL", "SRESET"] → t.eras = s.eras) ∧
    (mnemonicOf i ∉ ["MKDEC", "SRESET"] → t.dm = s.dm ∧ t.srv = s.srv) ∧
    (mnemonicOf i ∉ ["MKDEC", "MKENC", "SRESET"] → t.dmv = s.dmv) ∧
    (mnemonicOf i ∉ ["ENCODE", "DECODE"] → t.sb = s.sb) ∧
    (WellFormed i → mnemonicOf i ∉ ["GFDIV", "GFINV", "MKENC", "MKDEC", "RDENC", "RDDEC", "RDSRV", "ENCODE", "DECODE",
      "CLRERR", "SRESET"] → t.err = s.err) ∧
    (mnemonicOf i ∉ ["GFDIV", "GFINV", "MKDEC", "SRESET"] → t.halt = s.halt) ∧
    (mnemonicOf i ≠ "SRESET" → s.halt = true → t.halt = true) ∧
    t.acc = s.acc ∧ t.resets = s.resets ∧ t.inbox = s.inbox

/-- ACC is read by ENCODE and DECODE with bk = 1 only (R36, R154, R214): every other command does the same whatever it is.
-/
def Obligations.AccessMapMattersToOffloadOnly : Prop :=
  ∀ (i : Instr) (s t : State) (acc : BitVec 256),
    i ≠ .encode .hardwareOffload → i ≠ .decode .hardwareOffload →
    exec i s = .next t → exec i { s with acc := acc } = .next { t with acc := acc }

/-! ## Reset and the host (spec/20, spec/70) -/

/-- R240: what a hardware reset (a move of the host, the model's choice, notes/assumptions/2.md) leaves, from every state:
the registers and valid bits 0, no error, no matrix readable, every SB byte an arbitrary value (the free value, of which
nothing is known); ACC is not the CORE's. -/
def Obligations.HardwareResetState : Prop :=
  ∀ (s : State) (rest : List HostMove), s.inbox = .hardReset :: rest →
    ∃ t, step s = .next t ∧ t.k = 0#8 ∧ t.m = 0#8 ∧ t.usize = 0#24 ∧ t.eras = 0#256 ∧ t.emv = false ∧ t.dmv = false ∧
      t.err = ⟨0#4, 0#8, 0#12, 0#12⟩ ∧ t.halt = false ∧ t.acc = s.acc ∧ t.inbox = rest ∧
      (∀ x : BitVec 32, t.sbRead x = Config.sbReset t.resets x.toNat) ∧ MatricesUnreadable t

/-- R41: the state the machine starts in, and the registers after SRESET, which keeps SB. ACC, the move list and the
transcript at the start are the model's own choices (notes/assumptions/3.md, 4.md) and are not spoken of; an unwritten SB
byte is the free value, of which nothing is known. -/
def Obligations.ResetState : Prop :=
  (State.reset.k = 0#8 ∧ State.reset.m = 0#8 ∧ State.reset.usize = 0#24 ∧ State.reset.eras = 0#256 ∧
    State.reset.emv = false ∧ State.reset.dmv = false ∧ State.reset.err = ⟨0#4, 0#8, 0#12, 0#12⟩ ∧
    State.reset.halt = false ∧ (∀ x : BitVec 32, State.reset.sbRead x = Config.sbReset State.reset.resets x.toNat) ∧
    MatricesUnreadable State.reset) ∧
  ∀ s : State, ∃ t, exec .sreset s = .next t ∧ t.k = 0#8 ∧ t.m = 0#8 ∧ t.usize = 0#24 ∧ t.eras = 0#256 ∧
    t.emv = false ∧ t.dmv = false ∧ t.err = ⟨0#4, 0#8, 0#12, 0#12⟩ ∧ t.halt = false ∧
    (∀ x : BitVec 32, t.sbRead x = s.sbRead x) ∧ MatricesUnreadable t

/-- R60, R64, R67, by the host moves of R72 (their list in the state is the model's choice, notes/assumptions/3.md): the
host reads back what it wrote, every other byte is left alone, and neither move changes the CORE's registers. -/
def Obligations.HostWriteThenRead : Prop :=
  ∀ (s t u : State) (a b : BitVec 32) (v : Byte) (rest : List HostMove),
    s.inbox = .writeByte a v :: .readByte b :: rest → step s = .next t → step t = .next u →
    u = { s with sb := u.sb, inbox := rest, replies := s.replies ++ [.byte (if b = a then v else s.sbRead b)] } ∧
    ∀ x : BitVec 32, u.sbRead x = if x = a then v else s.sbRead x

/-- R36, by the third host move of R72 (its place in the move list is the model's choice, notes/assumptions/3.md, 4.md): the
host's change of ACC sets ACC to the given map, for every unit index, and leaves every register, SB and the answers given
alone. -/
def Obligations.HostChangesAccessMap : Prop :=
  ∀ (s : State) (acc : BitVec 256) (rest : List HostMove), s.inbox = .setAcc acc :: rest →
    ∃ t, step s = .next t ∧ t = { s with acc := t.acc, inbox := rest } ∧
      (∀ u < 256, t.acc.getLsbD u = acc.getLsbD u) ∧ ∀ x : BitVec 32, t.sbRead x = s.sbRead x

/-- R226: while the CORE waits for the host's next move (an empty move list, the model's choice, notes/assumptions/3.md) a
step loses and changes nothing. -/
def Obligations.WaitingChangesNothing : Prop :=
  ∀ s : State, s.inbox = [] → step s = .next s

/-! ## Encoding (spec/30) -/

/-- R89: decoding the word of a well-formed command gives it back, with every operand at every value. -/
def Obligations.DecodeOfEncode : Prop :=
  ∀ i : Instr, WellFormed i → decode (encode i) = .ok i

/-- R89: a legal word is the one word of the command it decodes to, and that command is well-formed. -/
def Obligations.EncodeOfDecode : Prop :=
  ∀ (w : Word) (i : Instr), decode w = .ok i → WellFormed i ∧ encode i = w

/-- R84, R85: a word is legal exactly when a row of the match and mask table selects it, one row at most does, and it is the
row of the command the word decodes to. -/
def Obligations.MatchAndMaskSelectTheCommand : Prop :=
  ∀ w : Word,
    (∀ row ∈ opcodeTable, w &&& row.mask = row.matchBits →
      ∃ i, decode w = .ok i ∧ mnemonicOf i = row.mnemonic) ∧
    (∀ i, decode w = .ok i →
      ∃ row ∈ opcodeTable, w &&& row.mask = row.matchBits ∧ mnemonicOf i = row.mnemonic) ∧
    (∀ row ∈ opcodeTable, ∀ row' ∈ opcodeTable, w &&& row.mask = row.matchBits → w &&& row'.mask = row'.matchBits →
      row = row')

/-- A few words written out bit by bit from the formats of R82, one of each format, and what they are. -/
def Obligations.SpelledWordsDecode : Prop :=
  decode 0b00010000_01010011_11001010_00000000#32 = .ok (.gfmul 0x53#8 0xCA#8) ∧
  decode 0b00010010_00000010_00000000_00000000#32 = .ok (.gfinv 0x02#8) ∧
  decode 0b00100000_000011111111_000000000001#32 = .ok (.mkenc 255#12 1#12) ∧
  decode 0b00100001_00000000_00000000_00000000#32 = .ok .mkdec ∧
  decode 0b00110000_00000000_00000000_00000001#32 = .ok (.encode .hardwareOffload) ∧
  decode 0b01000000_00000000_00000000_01000000#32 = .ok (.setus 64#24)
end

