-- ==== Sys2Proof/Laws/Decode.lean ====
section
/-!
SUPPORT. Words as numbers: what a word of each format of R82 is, and what each field of a word is; from these, the fields
of an encoded word.
-/
namespace Sys2Proof

/-! ### Fields as numbers -/

theorem opcOf_toNat (w : Word) : (opcOf w).toNat = w.toNat / 2 ^ 24 % 2 ^ 8 := by
  simp [opcOf, Nat.shiftRight_eq_div_pow]

theorem payloadOf_toNat (w : Word) : (payloadOf w).toNat = w.toNat % 2 ^ 24 := by
  simp [payloadOf]

theorem fieldA_toNat (w : Word) : (fieldA w).toNat = w.toNat / 2 ^ 16 % 2 ^ 8 := by
  simp [fieldA, Nat.shiftRight_eq_div_pow]

theorem fieldB_toNat (w : Word) : (fieldB w).toNat = w.toNat / 2 ^ 8 % 2 ^ 8 := by
  simp [fieldB, Nat.shiftRight_eq_div_pow]

theorem fieldHi12_toNat (w : Word) : (fieldHi12 w).toNat = w.toNat / 2 ^ 12 % 2 ^ 12 := by
  simp [fieldHi12, Nat.shiftRight_eq_div_pow]

theorem fieldLo12_toNat (w : Word) : (fieldLo12 w).toNat = w.toNat % 2 ^ 12 := by
  simp [fieldLo12]

/-- An append as a number. -/
theorem append_toNat {n m : Nat} (x : BitVec n) (y : BitVec m) : (x ++ y).toNat = x.toNat * 2 ^ m + y.toNat := by
  rw [BitVec.toNat_append, Nat.shiftLeft_eq, Nat.mul_comm, ← Nat.two_pow_add_eq_or_of_lt y.isLt]

/-! ### Encoded words as numbers -/

theorem encodeZ_toNat (o : Byte) : (encodeZ o).toNat = o.toNat * 2 ^ 24 :=
  (append_toNat o 0#24).trans (by simp)

theorem encodeA1_toNat (o a : Byte) : (encodeA1 o a).toNat = (o.toNat * 2 ^ 8 + a.toNat) * 2 ^ 16 :=
  (append_toNat (o ++ a) 0#16).trans (by rw [append_toNat]; simp)

theorem encodeA2_toNat (o a b : Byte) :
    (encodeA2 o a b).toNat = ((o.toNat * 2 ^ 8 + a.toNat) * 2 ^ 8 + b.toNat) * 2 ^ 8 :=
  (append_toNat (o ++ a ++ b) 0#8).trans (by rw [append_toNat, append_toNat]; simp)

theorem encodeP_toNat (o : Byte) (k m : BitVec 12) :
    (encodeP o k m).toNat = (o.toNat * 2 ^ 12 + k.toNat) * 2 ^ 12 + m.toNat :=
  (append_toNat (o ++ k) m).trans (by rw [append_toNat])

theorem encodeW_toNat (o : Byte) (n : BitVec 24) : (encodeW o n).toNat = o.toNat * 2 ^ 24 + n.toNat :=
  append_toNat o n

theorem encodeF_toNat (o : Byte) (bk : Datapath) : (encodeF o bk).toNat = o.toNat * 2 ^ 24 + (bkOf bk).toNat :=
  (append_toNat (o ++ 0#23) (bkOf bk)).trans (by rw [append_toNat]; simp; omega)

/-! ### Fields of encoded words -/

@[simp] theorem opcOf_encodeZ (o : Byte) : opcOf (encodeZ o) = o := by
  have := o.isLt
  apply BitVec.eq_of_toNat_eq
  rw [opcOf_toNat, encodeZ_toNat]
  omega

@[simp] theorem opcOf_encodeA1 (o : Byte) (a : Byte) : opcOf (encodeA1 o a) = o := by
  have := o.isLt
  have := a.isLt
  apply BitVec.eq_of_toNat_eq
  rw [opcOf_toNat, encodeA1_toNat]
  omega

@[simp] theorem opcOf_encodeA2 (o : Byte) (a b : Byte) : opcOf (encodeA2 o a b) = o := by
  have := o.isLt
  have := a.isLt
  have := b.isLt
  apply BitVec.eq_of_toNat_eq
  rw [opcOf_toNat, encodeA2_toNat]
  omega

@[simp] theorem opcOf_encodeP (o : Byte) (k m : BitVec 12) : opcOf (encodeP o k m) = o := by
  have := o.isLt
  have := k.isLt
  have := m.isLt
  apply BitVec.eq_of_toNat_eq
  rw [opcOf_toNat, encodeP_toNat]
  omega

@[simp] theorem opcOf_encodeW (o : Byte) (n : BitVec 24) : opcOf (encodeW o n) = o := by
  have := o.isLt
  have := n.isLt
  apply BitVec.eq_of_toNat_eq
  rw [opcOf_toNat, encodeW_toNat]
  omega

@[simp] theorem opcOf_encodeF (o : Byte) (bk : Datapath) : opcOf (encodeF o bk) = o := by
  have := o.isLt
  have := (bkOf bk).isLt
  apply BitVec.eq_of_toNat_eq
  rw [opcOf_toNat, encodeF_toNat]
  omega

@[simp] theorem fieldA_encodeA1 (o : Byte) (a : Byte) : fieldA (encodeA1 o a) = a := by
  have := o.isLt
  have := a.isLt
  apply BitVec.eq_of_toNat_eq
  rw [fieldA_toNat, encodeA1_toNat]
  omega

@[simp] theorem fieldA_encodeA2 (o : Byte) (a b : Byte) : fieldA (encodeA2 o a b) = a := by
  have := o.isLt
  have := a.isLt
  have := b.isLt
  apply BitVec.eq_of_toNat_eq
  rw [fieldA_toNat, encodeA2_toNat]
  omega

@[simp] theorem fieldB_encodeA2 (o : Byte) (a b : Byte) : fieldB (encodeA2 o a b) = b := by
  have := o.isLt
  have := a.isLt
  have := b.isLt
  apply BitVec.eq_of_toNat_eq
  rw [fieldB_toNat, encodeA2_toNat]
  omega

@[simp] theorem fieldHi12_encodeP (o : Byte) (k m : BitVec 12) : fieldHi12 (encodeP o k m) = k := by
  have := o.isLt
  have := k.isLt
  have := m.isLt
  apply BitVec.eq_of_toNat_eq
  rw [fieldHi12_toNat, encodeP_toNat]
  omega

@[simp] theorem fieldLo12_encodeP (o : Byte) (k m : BitVec 12) : fieldLo12 (encodeP o k m) = m := by
  have := o.isLt
  have := k.isLt
  have := m.isLt
  apply BitVec.eq_of_toNat_eq
  rw [fieldLo12_toNat, encodeP_toNat]
  omega

@[simp] theorem payloadOf_encodeW (o : Byte) (n : BitVec 24) : payloadOf (encodeW o n) = n := by
  have := o.isLt
  have := n.isLt
  apply BitVec.eq_of_toNat_eq
  rw [payloadOf_toNat, encodeW_toNat]
  omega

/-- The datapath selector survives its bit (R83). -/
@[simp] theorem datapathOf_bkOf (bk : Datapath) : datapathOf (bkOf bk) = bk := by cases bk <;> decide

end Sys2Proof
end

