-- ==== Sys2Proof/Laws/State.lean ====
section
/-!
SUPPORT. One lemma per field per update of State, each true by unfolding the update, so that no later proof unfolds one.
-/
namespace Sys2Proof.Machine

variable (s : State)

/-! ### setUsize -/

@[simp] theorem State.setUsize_k (n : BitVec 24) : (s.setUsize n).k = s.k := rfl
@[simp] theorem State.setUsize_m (n : BitVec 24) : (s.setUsize n).m = s.m := rfl
@[simp] theorem State.setUsize_usize (n : BitVec 24) : (s.setUsize n).usize = n := rfl
@[simp] theorem State.setUsize_eras (n : BitVec 24) : (s.setUsize n).eras = s.eras := rfl
@[simp] theorem State.setUsize_em (n : BitVec 24) : (s.setUsize n).em = s.em := rfl
@[simp] theorem State.setUsize_emv (n : BitVec 24) : (s.setUsize n).emv = s.emv := rfl
@[simp] theorem State.setUsize_dm (n : BitVec 24) : (s.setUsize n).dm = s.dm := rfl
@[simp] theorem State.setUsize_srv (n : BitVec 24) : (s.setUsize n).srv = s.srv := rfl
@[simp] theorem State.setUsize_dmv (n : BitVec 24) : (s.setUsize n).dmv = s.dmv := rfl
@[simp] theorem State.setUsize_err (n : BitVec 24) : (s.setUsize n).err = s.err := rfl
@[simp] theorem State.setUsize_halt (n : BitVec 24) : (s.setUsize n).halt = s.halt := rfl
@[simp] theorem State.setUsize_sb (n : BitVec 24) : (s.setUsize n).sb = s.sb := rfl
@[simp] theorem State.setUsize_acc (n : BitVec 24) : (s.setUsize n).acc = s.acc := rfl
@[simp] theorem State.setUsize_resets (n : BitVec 24) : (s.setUsize n).resets = s.resets := rfl
@[simp] theorem State.setUsize_inbox (n : BitVec 24) : (s.setUsize n).inbox = s.inbox := rfl
@[simp] theorem State.setUsize_replies (n : BitVec 24) : (s.setUsize n).replies = s.replies := rfl

/-! ### setEras -/

@[simp] theorem State.setEras_k (e : BitVec 256) : (s.setEras e).k = s.k := rfl
@[simp] theorem State.setEras_m (e : BitVec 256) : (s.setEras e).m = s.m := rfl
@[simp] theorem State.setEras_usize (e : BitVec 256) : (s.setEras e).usize = s.usize := rfl
@[simp] theorem State.setEras_eras (e : BitVec 256) : (s.setEras e).eras = e := rfl
@[simp] theorem State.setEras_em (e : BitVec 256) : (s.setEras e).em = s.em := rfl
@[simp] theorem State.setEras_emv (e : BitVec 256) : (s.setEras e).emv = s.emv := rfl
@[simp] theorem State.setEras_dm (e : BitVec 256) : (s.setEras e).dm = s.dm := rfl
@[simp] theorem State.setEras_srv (e : BitVec 256) : (s.setEras e).srv = s.srv := rfl
@[simp] theorem State.setEras_dmv (e : BitVec 256) : (s.setEras e).dmv = s.dmv := rfl
@[simp] theorem State.setEras_err (e : BitVec 256) : (s.setEras e).err = s.err := rfl
@[simp] theorem State.setEras_halt (e : BitVec 256) : (s.setEras e).halt = s.halt := rfl
@[simp] theorem State.setEras_sb (e : BitVec 256) : (s.setEras e).sb = s.sb := rfl
@[simp] theorem State.setEras_acc (e : BitVec 256) : (s.setEras e).acc = s.acc := rfl
@[simp] theorem State.setEras_resets (e : BitVec 256) : (s.setEras e).resets = s.resets := rfl
@[simp] theorem State.setEras_inbox (e : BitVec 256) : (s.setEras e).inbox = s.inbox := rfl
@[simp] theorem State.setEras_replies (e : BitVec 256) : (s.setEras e).replies = s.replies := rfl

/-! ### loadEncode -/

@[simp] theorem State.loadEncode_k (x : Matrix) (k m : Byte) : (s.loadEncode x k m).k = k := rfl
@[simp] theorem State.loadEncode_m (x : Matrix) (k m : Byte) : (s.loadEncode x k m).m = m := rfl
@[simp] theorem State.loadEncode_usize (x : Matrix) (k m : Byte) : (s.loadEncode x k m).usize = s.usize := rfl
@[simp] theorem State.loadEncode_eras (x : Matrix) (k m : Byte) : (s.loadEncode x k m).eras = s.eras := rfl
@[simp] theorem State.loadEncode_em (x : Matrix) (k m : Byte) : (s.loadEncode x k m).em = x := rfl
@[simp] theorem State.loadEncode_emv (x : Matrix) (k m : Byte) : (s.loadEncode x k m).emv = true := rfl
@[simp] theorem State.loadEncode_dm (x : Matrix) (k m : Byte) : (s.loadEncode x k m).dm = s.dm := rfl
@[simp] theorem State.loadEncode_srv (x : Matrix) (k m : Byte) : (s.loadEncode x k m).srv = s.srv := rfl
@[simp] theorem State.loadEncode_dmv (x : Matrix) (k m : Byte) : (s.loadEncode x k m).dmv = false := rfl
@[simp] theorem State.loadEncode_err (x : Matrix) (k m : Byte) : (s.loadEncode x k m).err = s.err := rfl
@[simp] theorem State.loadEncode_halt (x : Matrix) (k m : Byte) : (s.loadEncode x k m).halt = s.halt := rfl
@[simp] theorem State.loadEncode_sb (x : Matrix) (k m : Byte) : (s.loadEncode x k m).sb = s.sb := rfl
@[simp] theorem State.loadEncode_acc (x : Matrix) (k m : Byte) : (s.loadEncode x k m).acc = s.acc := rfl
@[simp] theorem State.loadEncode_resets (x : Matrix) (k m : Byte) : (s.loadEncode x k m).resets = s.resets := rfl
@[simp] theorem State.loadEncode_inbox (x : Matrix) (k m : Byte) : (s.loadEncode x k m).inbox = s.inbox := rfl
@[simp] theorem State.loadEncode_replies (x : Matrix) (k m : Byte) : (s.loadEncode x k m).replies = s.replies := rfl

/-! ### loadDecode -/

@[simp] theorem State.loadDecode_k (x : Matrix) (l : List Byte) : (s.loadDecode x l).k = s.k := rfl
@[simp] theorem State.loadDecode_m (x : Matrix) (l : List Byte) : (s.loadDecode x l).m = s.m := rfl
@[simp] theorem State.loadDecode_usize (x : Matrix) (l : List Byte) : (s.loadDecode x l).usize = s.usize := rfl
@[simp] theorem State.loadDecode_eras (x : Matrix) (l : List Byte) : (s.loadDecode x l).eras = s.eras := rfl
@[simp] theorem State.loadDecode_em (x : Matrix) (l : List Byte) : (s.loadDecode x l).em = s.em := rfl
@[simp] theorem State.loadDecode_emv (x : Matrix) (l : List Byte) : (s.loadDecode x l).emv = s.emv := rfl
@[simp] theorem State.loadDecode_dm (x : Matrix) (l : List Byte) : (s.loadDecode x l).dm = x := rfl
@[simp] theorem State.loadDecode_srv (x : Matrix) (l : List Byte) : (s.loadDecode x l).srv = l := rfl
@[simp] theorem State.loadDecode_dmv (x : Matrix) (l : List Byte) : (s.loadDecode x l).dmv = true := rfl
@[simp] theorem State.loadDecode_err (x : Matrix) (l : List Byte) : (s.loadDecode x l).err = s.err := rfl
@[simp] theorem State.loadDecode_halt (x : Matrix) (l : List Byte) : (s.loadDecode x l).halt = s.halt := rfl
@[simp] theorem State.loadDecode_sb (x : Matrix) (l : List Byte) : (s.loadDecode x l).sb = s.sb := rfl
@[simp] theorem State.loadDecode_acc (x : Matrix) (l : List Byte) : (s.loadDecode x l).acc = s.acc := rfl
@[simp] theorem State.loadDecode_resets (x : Matrix) (l : List Byte) : (s.loadDecode x l).resets = s.resets := rfl
@[simp] theorem State.loadDecode_inbox (x : Matrix) (l : List Byte) : (s.loadDecode x l).inbox = s.inbox := rfl
@[simp] theorem State.loadDecode_replies (x : Matrix) (l : List Byte) : (s.loadDecode x l).replies = s.replies := rfl

/-! ### setAccess -/

@[simp] theorem State.setAccess_k (a : BitVec 256) : (s.setAccess a).k = s.k := rfl
@[simp] theorem State.setAccess_m (a : BitVec 256) : (s.setAccess a).m = s.m := rfl
@[simp] theorem State.setAccess_usize (a : BitVec 256) : (s.setAccess a).usize = s.usize := rfl
@[simp] theorem State.setAccess_eras (a : BitVec 256) : (s.setAccess a).eras = s.eras := rfl
@[simp] theorem State.setAccess_em (a : BitVec 256) : (s.setAccess a).em = s.em := rfl
@[simp] theorem State.setAccess_emv (a : BitVec 256) : (s.setAccess a).emv = s.emv := rfl
@[simp] theorem State.setAccess_dm (a : BitVec 256) : (s.setAccess a).dm = s.dm := rfl
@[simp] theorem State.setAccess_srv (a : BitVec 256) : (s.setAccess a).srv = s.srv := rfl
@[simp] theorem State.setAccess_dmv (a : BitVec 256) : (s.setAccess a).dmv = s.dmv := rfl
@[simp] theorem State.setAccess_err (a : BitVec 256) : (s.setAccess a).err = s.err := rfl
@[simp] theorem State.setAccess_halt (a : BitVec 256) : (s.setAccess a).halt = s.halt := rfl
@[simp] theorem State.setAccess_sb (a : BitVec 256) : (s.setAccess a).sb = s.sb := rfl
@[simp] theorem State.setAccess_acc (a : BitVec 256) : (s.setAccess a).acc = a := rfl
@[simp] theorem State.setAccess_resets (a : BitVec 256) : (s.setAccess a).resets = s.resets := rfl
@[simp] theorem State.setAccess_inbox (a : BitVec 256) : (s.setAccess a).inbox = s.inbox := rfl
@[simp] theorem State.setAccess_replies (a : BitVec 256) : (s.setAccess a).replies = s.replies := rfl

/-! ### setInbox -/

@[simp] theorem State.setInbox_k (l : List HostMove) : (s.setInbox l).k = s.k := rfl
@[simp] theorem State.setInbox_m (l : List HostMove) : (s.setInbox l).m = s.m := rfl
@[simp] theorem State.setInbox_usize (l : List HostMove) : (s.setInbox l).usize = s.usize := rfl
@[simp] theorem State.setInbox_eras (l : List HostMove) : (s.setInbox l).eras = s.eras := rfl
@[simp] theorem State.setInbox_em (l : List HostMove) : (s.setInbox l).em = s.em := rfl
@[simp] theorem State.setInbox_emv (l : List HostMove) : (s.setInbox l).emv = s.emv := rfl
@[simp] theorem State.setInbox_dm (l : List HostMove) : (s.setInbox l).dm = s.dm := rfl
@[simp] theorem State.setInbox_srv (l : List HostMove) : (s.setInbox l).srv = s.srv := rfl
@[simp] theorem State.setInbox_dmv (l : List HostMove) : (s.setInbox l).dmv = s.dmv := rfl
@[simp] theorem State.setInbox_err (l : List HostMove) : (s.setInbox l).err = s.err := rfl
@[simp] theorem State.setInbox_halt (l : List HostMove) : (s.setInbox l).halt = s.halt := rfl
@[simp] theorem State.setInbox_sb (l : List HostMove) : (s.setInbox l).sb = s.sb := rfl
@[simp] theorem State.setInbox_acc (l : List HostMove) : (s.setInbox l).acc = s.acc := rfl
@[simp] theorem State.setInbox_resets (l : List HostMove) : (s.setInbox l).resets = s.resets := rfl
@[simp] theorem State.setInbox_inbox (l : List HostMove) : (s.setInbox l).inbox = l := rfl
@[simp] theorem State.setInbox_replies (l : List HostMove) : (s.setInbox l).replies = s.replies := rfl

/-! ### reply -/

@[simp] theorem State.reply_k (r : Reply) : (s.reply r).k = s.k := rfl
@[simp] theorem State.reply_m (r : Reply) : (s.reply r).m = s.m := rfl
@[simp] theorem State.reply_usize (r : Reply) : (s.reply r).usize = s.usize := rfl
@[simp] theorem State.reply_eras (r : Reply) : (s.reply r).eras = s.eras := rfl
@[simp] theorem State.reply_em (r : Reply) : (s.reply r).em = s.em := rfl
@[simp] theorem State.reply_emv (r : Reply) : (s.reply r).emv = s.emv := rfl
@[simp] theorem State.reply_dm (r : Reply) : (s.reply r).dm = s.dm := rfl
@[simp] theorem State.reply_srv (r : Reply) : (s.reply r).srv = s.srv := rfl
@[simp] theorem State.reply_dmv (r : Reply) : (s.reply r).dmv = s.dmv := rfl
@[simp] theorem State.reply_err (r : Reply) : (s.reply r).err = s.err := rfl
@[simp] theorem State.reply_halt (r : Reply) : (s.reply r).halt = s.halt := rfl
@[simp] theorem State.reply_sb (r : Reply) : (s.reply r).sb = s.sb := rfl
@[simp] theorem State.reply_acc (r : Reply) : (s.reply r).acc = s.acc := rfl
@[simp] theorem State.reply_resets (r : Reply) : (s.reply r).resets = s.resets := rfl
@[simp] theorem State.reply_inbox (r : Reply) : (s.reply r).inbox = s.inbox := rfl
@[simp] theorem State.reply_replies (r : Reply) : (s.reply r).replies = s.replies ++ [r] := rfl

/-! ### sbWrite -/

@[simp] theorem State.sbWrite_k (a : BitVec 32) (v : Byte) : (s.sbWrite a v).k = s.k := rfl
@[simp] theorem State.sbWrite_m (a : BitVec 32) (v : Byte) : (s.sbWrite a v).m = s.m := rfl
@[simp] theorem State.sbWrite_usize (a : BitVec 32) (v : Byte) : (s.sbWrite a v).usize = s.usize := rfl
@[simp] theorem State.sbWrite_eras (a : BitVec 32) (v : Byte) : (s.sbWrite a v).eras = s.eras := rfl
@[simp] theorem State.sbWrite_em (a : BitVec 32) (v : Byte) : (s.sbWrite a v).em = s.em := rfl
@[simp] theorem State.sbWrite_emv (a : BitVec 32) (v : Byte) : (s.sbWrite a v).emv = s.emv := rfl
@[simp] theorem State.sbWrite_dm (a : BitVec 32) (v : Byte) : (s.sbWrite a v).dm = s.dm := rfl
@[simp] theorem State.sbWrite_srv (a : BitVec 32) (v : Byte) : (s.sbWrite a v).srv = s.srv := rfl
@[simp] theorem State.sbWrite_dmv (a : BitVec 32) (v : Byte) : (s.sbWrite a v).dmv = s.dmv := rfl
@[simp] theorem State.sbWrite_err (a : BitVec 32) (v : Byte) : (s.sbWrite a v).err = s.err := rfl
@[simp] theorem State.sbWrite_halt (a : BitVec 32) (v : Byte) : (s.sbWrite a v).halt = s.halt := rfl
@[simp] theorem State.sbWrite_sb (a : BitVec 32) (v : Byte) : (s.sbWrite a v).sb = memWrite s.sb a.toNat v := rfl
@[simp] theorem State.sbWrite_acc (a : BitVec 32) (v : Byte) : (s.sbWrite a v).acc = s.acc := rfl
@[simp] theorem State.sbWrite_resets (a : BitVec 32) (v : Byte) : (s.sbWrite a v).resets = s.resets := rfl
@[simp] theorem State.sbWrite_inbox (a : BitVec 32) (v : Byte) : (s.sbWrite a v).inbox = s.inbox := rfl
@[simp] theorem State.sbWrite_replies (a : BitVec 32) (v : Byte) : (s.sbWrite a v).replies = s.replies := rfl

/-! ### sbWriteAll -/

@[simp] theorem State.sbWriteAll_k (l : List Host.Cell) : (s.sbWriteAll l).k = s.k := rfl
@[simp] theorem State.sbWriteAll_m (l : List Host.Cell) : (s.sbWriteAll l).m = s.m := rfl
@[simp] theorem State.sbWriteAll_usize (l : List Host.Cell) : (s.sbWriteAll l).usize = s.usize := rfl
@[simp] theorem State.sbWriteAll_eras (l : List Host.Cell) : (s.sbWriteAll l).eras = s.eras := rfl
@[simp] theorem State.sbWriteAll_em (l : List Host.Cell) : (s.sbWriteAll l).em = s.em := rfl
@[simp] theorem State.sbWriteAll_emv (l : List Host.Cell) : (s.sbWriteAll l).emv = s.emv := rfl
@[simp] theorem State.sbWriteAll_dm (l : List Host.Cell) : (s.sbWriteAll l).dm = s.dm := rfl
@[simp] theorem State.sbWriteAll_srv (l : List Host.Cell) : (s.sbWriteAll l).srv = s.srv := rfl
@[simp] theorem State.sbWriteAll_dmv (l : List Host.Cell) : (s.sbWriteAll l).dmv = s.dmv := rfl
@[simp] theorem State.sbWriteAll_err (l : List Host.Cell) : (s.sbWriteAll l).err = s.err := rfl
@[simp] theorem State.sbWriteAll_halt (l : List Host.Cell) : (s.sbWriteAll l).halt = s.halt := rfl
@[simp] theorem State.sbWriteAll_sb (l : List Host.Cell) : (s.sbWriteAll l).sb = memWriteAll s.sb l := rfl
@[simp] theorem State.sbWriteAll_acc (l : List Host.Cell) : (s.sbWriteAll l).acc = s.acc := rfl
@[simp] theorem State.sbWriteAll_resets (l : List Host.Cell) : (s.sbWriteAll l).resets = s.resets := rfl
@[simp] theorem State.sbWriteAll_inbox (l : List Host.Cell) : (s.sbWriteAll l).inbox = s.inbox := rfl
@[simp] theorem State.sbWriteAll_replies (l : List Host.Cell) : (s.sbWriteAll l).replies = s.replies := rfl

/-! ### recordError -/

@[simp] theorem State.recordError_k (x : ErrorKind) (op : Byte) (i0 i1 : BitVec 12) : (s.recordError x op i0 i1).k = s.k := rfl
@[simp] theorem State.recordError_m (x : ErrorKind) (op : Byte) (i0 i1 : BitVec 12) : (s.recordError x op i0 i1).m = s.m := rfl
@[simp] theorem State.recordError_usize (x : ErrorKind) (op : Byte) (i0 i1 : BitVec 12) : (s.recordError x op i0 i1).usize = s.usize := rfl
@[simp] theorem State.recordError_eras (x : ErrorKind) (op : Byte) (i0 i1 : BitVec 12) : (s.recordError x op i0 i1).eras = s.eras := rfl
@[simp] theorem State.recordError_em (x : ErrorKind) (op : Byte) (i0 i1 : BitVec 12) : (s.recordError x op i0 i1).em = s.em := rfl
@[simp] theorem State.recordError_emv (x : ErrorKind) (op : Byte) (i0 i1 : BitVec 12) : (s.recordError x op i0 i1).emv = s.emv := rfl
@[simp] theorem State.recordError_dm (x : ErrorKind) (op : Byte) (i0 i1 : BitVec 12) : (s.recordError x op i0 i1).dm = s.dm := rfl
@[simp] theorem State.recordError_srv (x : ErrorKind) (op : Byte) (i0 i1 : BitVec 12) : (s.recordError x op i0 i1).srv = s.srv := rfl
@[simp] theorem State.recordError_dmv (x : ErrorKind) (op : Byte) (i0 i1 : BitVec 12) : (s.recordError x op i0 i1).dmv = s.dmv := rfl
@[simp] theorem State.recordError_err (x : ErrorKind) (op : Byte) (i0 i1 : BitVec 12) : (s.recordError x op i0 i1).err = { kind := errorCode x, op := op, info0 := i0, info1 := i1 } := rfl
@[simp] theorem State.recordError_halt (x : ErrorKind) (op : Byte) (i0 i1 : BitVec 12) : (s.recordError x op i0 i1).halt = (s.halt || isFatal x) := rfl
@[simp] theorem State.recordError_sb (x : ErrorKind) (op : Byte) (i0 i1 : BitVec 12) : (s.recordError x op i0 i1).sb = s.sb := rfl
@[simp] theorem State.recordError_acc (x : ErrorKind) (op : Byte) (i0 i1 : BitVec 12) : (s.recordError x op i0 i1).acc = s.acc := rfl
@[simp] theorem State.recordError_resets (x : ErrorKind) (op : Byte) (i0 i1 : BitVec 12) : (s.recordError x op i0 i1).resets = s.resets := rfl
@[simp] theorem State.recordError_inbox (x : ErrorKind) (op : Byte) (i0 i1 : BitVec 12) : (s.recordError x op i0 i1).inbox = s.inbox := rfl
@[simp] theorem State.recordError_replies (x : ErrorKind) (op : Byte) (i0 i1 : BitVec 12) : (s.recordError x op i0 i1).replies = s.replies := rfl

/-! ### clearErr -/

@[simp] theorem State.clearErr_k : (s.clearErr).k = s.k := rfl
@[simp] theorem State.clearErr_m : (s.clearErr).m = s.m := rfl
@[simp] theorem State.clearErr_usize : (s.clearErr).usize = s.usize := rfl
@[simp] theorem State.clearErr_eras : (s.clearErr).eras = s.eras := rfl
@[simp] theorem State.clearErr_em : (s.clearErr).em = s.em := rfl
@[simp] theorem State.clearErr_emv : (s.clearErr).emv = s.emv := rfl
@[simp] theorem State.clearErr_dm : (s.clearErr).dm = s.dm := rfl
@[simp] theorem State.clearErr_srv : (s.clearErr).srv = s.srv := rfl
@[simp] theorem State.clearErr_dmv : (s.clearErr).dmv = s.dmv := rfl
@[simp] theorem State.clearErr_err : (s.clearErr).err = ErrRecord.none := rfl
@[simp] theorem State.clearErr_halt : (s.clearErr).halt = s.halt := rfl
@[simp] theorem State.clearErr_sb : (s.clearErr).sb = s.sb := rfl
@[simp] theorem State.clearErr_acc : (s.clearErr).acc = s.acc := rfl
@[simp] theorem State.clearErr_resets : (s.clearErr).resets = s.resets := rfl
@[simp] theorem State.clearErr_inbox : (s.clearErr).inbox = s.inbox := rfl
@[simp] theorem State.clearErr_replies : (s.clearErr).replies = s.replies := rfl

/-! ### softReset -/

@[simp] theorem State.softReset_k : (s.softReset).k = 0#8 := rfl
@[simp] theorem State.softReset_m : (s.softReset).m = 0#8 := rfl
@[simp] theorem State.softReset_usize : (s.softReset).usize = 0#24 := rfl
@[simp] theorem State.softReset_eras : (s.softReset).eras = 0#256 := rfl
@[simp] theorem State.softReset_em : (s.softReset).em = s.em := rfl
@[simp] theorem State.softReset_emv : (s.softReset).emv = false := rfl
@[simp] theorem State.softReset_dm : (s.softReset).dm = s.dm := rfl
@[simp] theorem State.softReset_srv : (s.softReset).srv = s.srv := rfl
@[simp] theorem State.softReset_dmv : (s.softReset).dmv = false := rfl
@[simp] theorem State.softReset_err : (s.softReset).err = ErrRecord.none := rfl
@[simp] theorem State.softReset_halt : (s.softReset).halt = false := rfl
@[simp] theorem State.softReset_sb : (s.softReset).sb = s.sb := rfl
@[simp] theorem State.softReset_acc : (s.softReset).acc = s.acc := rfl
@[simp] theorem State.softReset_resets : (s.softReset).resets = s.resets := rfl
@[simp] theorem State.softReset_inbox : (s.softReset).inbox = s.inbox := rfl
@[simp] theorem State.softReset_replies : (s.softReset).replies = s.replies := rfl

/-! ### hardwareReset -/

@[simp] theorem State.hardwareReset_k : (s.hardwareReset).k = 0#8 := rfl
@[simp] theorem State.hardwareReset_m : (s.hardwareReset).m = 0#8 := rfl
@[simp] theorem State.hardwareReset_usize : (s.hardwareReset).usize = 0#24 := rfl
@[simp] theorem State.hardwareReset_eras : (s.hardwareReset).eras = 0#256 := rfl
@[simp] theorem State.hardwareReset_em : (s.hardwareReset).em = [] := rfl
@[simp] theorem State.hardwareReset_emv : (s.hardwareReset).emv = false := rfl
@[simp] theorem State.hardwareReset_dm : (s.hardwareReset).dm = [] := rfl
@[simp] theorem State.hardwareReset_srv : (s.hardwareReset).srv = [] := rfl
@[simp] theorem State.hardwareReset_dmv : (s.hardwareReset).dmv = false := rfl
@[simp] theorem State.hardwareReset_err : (s.hardwareReset).err = ErrRecord.none := rfl
@[simp] theorem State.hardwareReset_halt : (s.hardwareReset).halt = false := rfl
@[simp] theorem State.hardwareReset_sb : (s.hardwareReset).sb = [] := rfl
@[simp] theorem State.hardwareReset_acc : (s.hardwareReset).acc = s.acc := rfl
@[simp] theorem State.hardwareReset_resets : (s.hardwareReset).resets = s.resets + 1 := rfl
@[simp] theorem State.hardwareReset_inbox : (s.hardwareReset).inbox = s.inbox := rfl
@[simp] theorem State.hardwareReset_replies : (s.hardwareReset).replies = s.replies := rfl

/-! ### Reads through updates that leave SB alone -/

@[simp] theorem State.setUsize_sbRead (n : BitVec 24) (y : BitVec 32) : (s.setUsize n).sbRead y = s.sbRead y := rfl
@[simp] theorem State.setEras_sbRead (e : BitVec 256) (y : BitVec 32) : (s.setEras e).sbRead y = s.sbRead y := rfl
@[simp] theorem State.loadEncode_sbRead (x : Matrix) (k m : Byte) (y : BitVec 32) : (s.loadEncode x k m).sbRead y = s.sbRead y := rfl
@[simp] theorem State.loadDecode_sbRead (x : Matrix) (l : List Byte) (y : BitVec 32) : (s.loadDecode x l).sbRead y = s.sbRead y := rfl
@[simp] theorem State.setAccess_sbRead (a : BitVec 256) (y : BitVec 32) : (s.setAccess a).sbRead y = s.sbRead y := rfl
@[simp] theorem State.setInbox_sbRead (l : List HostMove) (y : BitVec 32) : (s.setInbox l).sbRead y = s.sbRead y := rfl
@[simp] theorem State.reply_sbRead (r : Reply) (y : BitVec 32) : (s.reply r).sbRead y = s.sbRead y := rfl
@[simp] theorem State.recordError_sbRead (x : ErrorKind) (op : Byte) (i0 i1 : BitVec 12) (y : BitVec 32) : (s.recordError x op i0 i1).sbRead y = s.sbRead y := rfl
@[simp] theorem State.clearErr_sbRead (y : BitVec 32) : (s.clearErr).sbRead y = s.sbRead y := rfl
@[simp] theorem State.softReset_sbRead (y : BitVec 32) : (s.softReset).sbRead y = s.sbRead y := rfl

/-! ### Numbers and views through the response port -/

@[simp] theorem State.reply_kN (r : Reply) : (s.reply r).kN = s.kN := rfl
@[simp] theorem State.reply_mN (r : Reply) : (s.reply r).mN = s.mN := rfl
@[simp] theorem State.reply_nUnits (r : Reply) : (s.reply r).nUnits = s.nUnits := rfl
@[simp] theorem State.reply_pending (r : Reply) : (s.reply r).pending = s.pending := rfl

/-- K + M as the sum of the two numbers (R114). -/
theorem State.nUnits_eq : s.nUnits = s.kN + s.mN := rfl

end Sys2Proof.Machine
end

