-- ==== Sys2Proof/Laws/Memory.lean ====
section
/-!
SUPPORT. The laws of the stripe buffer: a read after a write, every other byte left alone, the canonical form kept, and the
addresses of R60.
-/
namespace Sys2Proof.Machine

/-! ### One byte -/

theorem memLookup_memWrite_same (m : Memory) (x : Nat) (v : Byte) : memLookup (memWrite m x v) x = some v := by
  induction m with
  | nil => simp [memWrite, memLookup]
  | cons c m ih =>
    obtain ⟨a, w⟩ := c
    by_cases h1 : x < a
    · simp [memWrite, h1, memLookup]
    · by_cases h2 : x = a
      · simp [memWrite, h2, memLookup]
      · simp [memWrite, h1, h2, memLookup, ih]

theorem memLookup_memWrite_other (m : Memory) {x y : Nat} (v : Byte) (h : y ≠ x) :
    memLookup (memWrite m x v) y = memLookup m y := by
  induction m with
  | nil => simp [memWrite, memLookup, h]
  | cons c m ih =>
    obtain ⟨a, w⟩ := c
    by_cases h1 : x < a
    · simp [memWrite, h1, memLookup, h]
    · by_cases h2 : x = a
      · subst h2
        simp [memWrite, memLookup, h]
      · simp [memWrite, h1, h2, memLookup, ih]

theorem memLookup_memWrite (m : Memory) (x y : Nat) (v : Byte) :
    memLookup (memWrite m x v) y = if y = x then some v else memLookup m y := by
  split
  · next h => rw [h, memLookup_memWrite_same]
  · next h => exact memLookup_memWrite_other m v h

/-- Where a cell of the written memory comes from. -/
theorem mem_memWrite {m : Memory} {x : Nat} {v : Byte} {c : Host.Cell} (h : c ∈ memWrite m x v) :
    c = (x, v) ∨ c ∈ m := by
  induction m with
  | nil => simpa [memWrite] using h
  | cons d m ih =>
    obtain ⟨a, w⟩ := d
    by_cases h1 : x < a
    · simpa [memWrite, h1] using h
    · by_cases h2 : x = a
      · simp only [memWrite, h2, Nat.lt_irrefl, if_true, if_false, List.mem_cons] at h
        rcases h with h | h
        · exact .inl (by rw [h, h2])
        · exact .inr (List.mem_cons_of_mem _ h)
      · simp only [memWrite, h1, h2, if_false, List.mem_cons] at h
        rcases h with h | h
        · exact .inr (by simp [h])
        · exact (ih h).imp id (List.mem_cons_of_mem _)

/-- A write keeps the canonical form. -/
theorem memWrite_wf {m : Memory} (hm : Memory.wf m) {x : Nat} (hx : x < 2 ^ 32) (v : Byte) :
    Memory.wf (memWrite m x v) := by
  refine ⟨?_, fun c hc => ?_⟩
  · replace hm := hm.1
    induction m with
    | nil => simp [memWrite]
    | cons d m ih =>
      obtain ⟨a, w⟩ := d
      rw [List.pairwise_cons] at hm
      by_cases h1 : x < a
      · simp only [memWrite, h1, if_true, List.pairwise_cons]
        refine ⟨fun c hc => ?_, hm⟩
        rcases List.mem_cons.1 hc with rfl | hc
        · exact h1
        · exact Nat.lt_trans h1 (hm.1 c hc)
      · by_cases h2 : x = a
        · subst h2
          simp only [memWrite, Nat.lt_irrefl, if_true, if_false, List.pairwise_cons]
          exact hm
        · simp only [memWrite, h1, h2, if_false, List.pairwise_cons]
          refine ⟨fun c hc => ?_, ih hm.2⟩
          rcases mem_memWrite hc with rfl | hc
          · simp only; omega
          · exact hm.1 c hc
  · rcases mem_memWrite hc with rfl | hc
    · exact hx
    · exact hm.2 c hc

/-! ### A list of bytes -/

@[simp] theorem memWriteAll_nil (m : Memory) : memWriteAll m [] = m := rfl

@[simp] theorem memWriteAll_cons (m : Memory) (c : Host.Cell) (l : List Host.Cell) :
    memWriteAll m (c :: l) = memWriteAll (memWrite m c.1 c.2) l := rfl

theorem memWriteAll_append (m : Memory) (l l' : List Host.Cell) :
    memWriteAll m (l ++ l') = memWriteAll (memWriteAll m l) l' := List.foldl_append

/-- Writes at valid addresses keep the canonical form. -/
theorem memWriteAll_wf {m : Memory} (hm : Memory.wf m) {l : List Host.Cell} (hl : ∀ c ∈ l, c.1 < 2 ^ 32) :
    Memory.wf (memWriteAll m l) := by
  induction l generalizing m with
  | nil => exact hm
  | cons c l ih =>
    exact ih (memWrite_wf hm (hl c List.mem_cons_self) _) fun d hd => hl d (List.mem_cons_of_mem _ hd)

/-- An address none of the writes names keeps its byte. -/
theorem memLookup_memWriteAll_other (m : Memory) {l : List Host.Cell} {x : Nat} (h : ∀ c ∈ l, c.1 ≠ x) :
    memLookup (memWriteAll m l) x = memLookup m x := by
  induction l generalizing m with
  | nil => rfl
  | cons c l ih =>
    rw [memWriteAll_cons, ih _ fun d hd => h d (List.mem_cons_of_mem _ hd)]
    exact memLookup_memWrite_other m _ (h c List.mem_cons_self).symm

/-- An address at which every write of the list puts the same byte, and one does, holds that byte. -/
theorem memLookup_memWriteAll_mem (m : Memory) {l : List Host.Cell} {x : Nat} {v : Byte}
    (h : (x, v) ∈ l) (hv : ∀ c ∈ l, c.1 = x → c.2 = v) : memLookup (memWriteAll m l) x = some v := by
  induction l generalizing m with
  | nil => simp at h
  | cons c l ih =>
    rw [memWriteAll_cons]
    by_cases hm : (x, v) ∈ l
    · exact ih _ hm fun d hd => hv d (List.mem_cons_of_mem _ hd)
    · obtain rfl : (x, v) = c := by simpa [hm] using h
      rw [memLookup_memWriteAll_other, memLookup_memWrite_same]
      rintro ⟨y, w⟩ hd rfl
      exact hm (by rw [← hv (y, w) (List.mem_cons_of_mem _ hd) rfl]; exact hd)

/-! ### Reads of SB -/

theorem State.sbRead_sbWrite_same (s : State) (a : BitVec 32) (v : Byte) : (s.sbWrite a v).sbRead a = v := by
  simp [State.sbRead, memLookup_memWrite_same]

theorem State.sbRead_sbWrite_other (s : State) {a b : BitVec 32} (v : Byte) (h : b ≠ a) :
    (s.sbWrite a v).sbRead b = s.sbRead b := by
  simp [State.sbRead, memLookup_memWrite_other _ _ fun e => h (BitVec.eq_of_toNat_eq e)]

theorem State.sbRead_sbWriteAll_other (s : State) {l : List Host.Cell} {a : BitVec 32} (h : ∀ c ∈ l, c.1 ≠ a.toNat) :
    (s.sbWriteAll l).sbRead a = s.sbRead a := by
  simp [State.sbRead, memLookup_memWriteAll_other _ h]

theorem State.sbRead_sbWriteAll_mem (s : State) {l : List Host.Cell} {a : BitVec 32} {v : Byte}
    (h : (a.toNat, v) ∈ l) (hv : ∀ c ∈ l, c.1 = a.toNat → c.2 = v) : (s.sbWriteAll l).sbRead a = v := by
  simp [State.sbRead, memLookup_memWriteAll_mem _ h hv]

/-! ### Addresses (R60) -/

/-- SB(u, t) = u × 2^24 + t. -/
theorem sbAddr_toNat (u : Byte) (t : BitVec 24) : (sbAddr u t).toNat = u.toNat * 2 ^ 24 + t.toNat := by
  have ht : t.toNat < 2 ^ 24 := t.isLt
  rw [sbAddr, BitVec.toNat_append, Nat.shiftLeft_eq, Nat.mul_comm, ← Nat.two_pow_add_eq_or_of_lt ht]

/-- Distinct (unit, offset) pairs have distinct addresses. -/
theorem sbAddr_inj {u u' : Byte} {t t' : BitVec 24} (h : sbAddr u t = sbAddr u' t') : u = u' ∧ t = t' := by
  have e := congrArg BitVec.toNat h
  rw [sbAddr_toNat, sbAddr_toNat] at e
  have ht := t.isLt
  have ht' := t'.isLt
  exact ⟨BitVec.eq_of_toNat_eq (by omega), BitVec.eq_of_toNat_eq (by omega)⟩

theorem sbAddr_toNat_lt (u : Byte) (t : BitVec 24) : (sbAddr u t).toNat < 2 ^ 32 := (sbAddr u t).isLt

/-- The reset memory is in canonical form. -/
theorem reset_memory_wf : Memory.wf State.reset.sb := by simp [State.reset, Memory.wf]

/-- A hardware reset leaves a memory in canonical form. -/
theorem hardwareReset_wf (s : State) : Memory.wf s.hardwareReset.sb := by simp [Memory.wf]

/-- A host write keeps the canonical form. -/
theorem sbWrite_wf {s : State} (h : Memory.wf s.sb) (a : BitVec 32) (v : Byte) : Memory.wf (s.sbWrite a v).sb :=
  memWrite_wf h a.isLt v

end Sys2Proof.Machine
end

