-- ==== Sys2Proof/Laws/Ops.lean ====
section
/-!
SUPPORT. One lemma per shared operation that says all it can do, for proofs to cite instead of unfolding it.
-/
namespace Sys2Proof.Machine

/-! ### The three ways a command ends -/

theorem respond_eq (d : BitVec 24) (s : State) : respond d s = .next (s.reply (.response (responseWord 0x0#4 d))) := rfl

theorem refuse_eq (s : State) : refuse s = .next (s.reply (.response (responseWord 0xF#4 0#24))) := rfl

theorem raise_eq (x : ErrorKind) (op : Byte) (i0 i1 : BitVec 12) (s : State) :
    raise x op i0 i1 s =
      .next ((s.recordError x op i0 i1).reply (.response (responseWord (errorCode x) 0#24))) := rfl

theorem raiseBadCommand_eq (w : Word) (s : State) :
    raiseBadCommand w s = raise .badCommand (opcOf w) (fieldHi12 w) (fieldLo12 w) s := rfl

/-- No kind the CORE can raise has code 0: every recorded error is pending. -/
theorem errorCode_ne_zero (x : ErrorKind) : errorCode x ≠ 0#4 := by cases x <;> decide

/-- The codes tell the kinds apart. -/
theorem errorCode_inj {x y : ErrorKind} (h : errorCode x = errorCode y) : x = y := by
  cases x <;> cases y <;> first | rfl | exact absurd h (by decide)

/-- The fatal kinds are those of codes 1 and 3. -/
theorem isFatal_iff (x : ErrorKind) : isFatal x = true ↔ errorCode x = 1#4 ∨ errorCode x = 3#4 := by
  cases x <;> decide

/-- A response word as a number (R90). -/
theorem responseWord_toNat (st : BitVec 4) (d : BitVec 24) :
    (responseWord st d).toNat = st.toNat * 2 ^ 28 + d.toNat :=
  (append_toNat (st ++ 0#4) d).trans (by rw [append_toNat]; simp; omega)

/-- The three fields of a response word (R90). -/
theorem responseWord_fields (st : BitVec 4) (d : BitVec 24) :
    (responseWord st d).extractLsb' 28 4 = st ∧ (responseWord st d).extractLsb' 24 4 = 0#4 ∧
      (responseWord st d).extractLsb' 0 24 = d := by
  have hs := st.isLt
  have hd := d.isLt
  refine ⟨?_, ?_, ?_⟩ <;> apply BitVec.eq_of_toNat_eq <;>
    rw [BitVec.extractLsb'_toNat, responseWord_toNat, Nat.shiftRight_eq_div_pow] <;> simp <;> omega

/-- The pending error as a fact about ERR.kind (R213). -/
theorem State.pending_iff (s : State) : s.pending = true ↔ s.err.kind ≠ 0#4 := by simp [State.pending]

theorem State.not_pending_iff (s : State) : s.pending = false ↔ s.err.kind = 0#4 := by simp [State.pending]

/-- After `raise` an error is pending. -/
theorem State.recordError_pending (s : State) (x : ErrorKind) (op : Byte) (i0 i1 : BitVec 12) :
    (s.recordError x op i0 i1).pending = true := by
  simp [State.pending, errorCode_ne_zero]

/-! ### The gate and the step (R213, R214) -/

theorem runWord_ok {w : Word} {i : Instr} {s : State} (h : decode w = .ok i) :
    runWord w s = if s.pending && !acceptedWhilePending s.halt i then refuse s else exec i s := by
  simp [runWord, h]

theorem runWord_error {w : Word} {e : DecodeError} {s : State} (h : decode w = .error e) :
    runWord w s = if s.pending then refuse s else raiseBadCommand w s := by
  simp [runWord, h]

theorem step_idle {s : State} (h : s.inbox = []) : step s = .next s := by simp [step, transact, h]

theorem step_move {s : State} {m : HostMove} {rest : List HostMove} (h : s.inbox = m :: rest) :
    step s = hostMove m (s.setInbox rest) := by simp [step, transact, h]

/-- What a step can do: wait, run a word, or make one of the host's own moves. -/
theorem step_cases (s : State) :
    (s.inbox = [] ∧ step s = .next s) ∨
    ∃ rest,
      (∃ w, s.inbox = .command w :: rest ∧ step s = runWord w (s.setInbox rest)) ∨
      (∃ a v, s.inbox = .writeByte a v :: rest ∧ step s = .next ((s.setInbox rest).sbWrite a v)) ∨
      (∃ a, s.inbox = .readByte a :: rest ∧ step s = .next ((s.setInbox rest).reply (.byte (s.sbRead a)))) ∨
      (∃ a, s.inbox = .setAcc a :: rest ∧ step s = .next ((s.setInbox rest).setAccess a)) ∨
      (s.inbox = .hardReset :: rest ∧ step s = .next (s.setInbox rest).hardwareReset) := by
  rcases h : s.inbox with _ | ⟨m, rest⟩
  · exact .inl ⟨rfl, step_idle h⟩
  · refine .inr ⟨rest, ?_⟩
    rw [step_move h]
    cases m with
    | command w => exact .inl ⟨w, rfl, rfl⟩
    | writeByte a v => exact .inr (.inl ⟨a, v, rfl, rfl⟩)
    | readByte a => exact .inr (.inr (.inl ⟨a, rfl, rfl⟩))
    | setAcc a => exact .inr (.inr (.inr (.inl ⟨a, rfl, rfl⟩)))
    | hardReset => exact .inr (.inr (.inr (.inr ⟨rfl, rfl⟩)))

end Sys2Proof.Machine
end

