-- ==== Sys2Proof/Laws/Matrix.lean ====
section
/-!
SUPPORT. The small lemmas of the matrix builder's and the codec's shared operations.
-/
namespace Sys2Proof.Machine

/-! ### Sums (R10) -/

@[simp] theorem xorSum_zero (f : Nat → Byte) : xorSum 0 f = 0#8 := rfl

theorem xorSum_succ (n : Nat) (f : Nat → Byte) : xorSum (n + 1) f = gfAdd (xorSum n f) (f n) := by
  simp [xorSum, List.range_succ]

theorem xorSum_congr {n : Nat} {f g : Nat → Byte} (h : ∀ j < n, f j = g j) : xorSum n f = xorSum n g := by
  induction n with
  | zero => rfl
  | succ n ih => rw [xorSum_succ, xorSum_succ, ih fun j hj => h j (by omega), h n (by omega)]

/-! ### Entries of tabulated matrices (R11) -/

/-- Reading a matrix given entry by entry. -/
theorem matGet_tabulate (r c : Nat) (f : Nat → Nat → Byte) (i j : Nat) :
    matGet ((List.range r).map fun i => (List.range c).map (f i)) i j = if i < r ∧ j < c then f i j else 0#8 := by
  by_cases hi : i < r <;> by_cases hj : j < c <;> simp [matGet, List.getD, hi, hj]

/-- Entries of the encode matrix (R123). -/
theorem matGet_buildEncodeMatrix (k m i j : Nat) :
    matGet (buildEncodeMatrix k m) i j =
      if i < k + m ∧ j < k then
        if i < k then (if i = j then 1#8 else 0#8) else gfInv (gfAdd (Config.cauchyX i) (Config.cauchyY j))
      else 0#8 :=
  matGet_tabulate (k + m) k _ i j

theorem matGet_identityMatrix (n i j : Nat) :
    matGet (identityMatrix n) i j = if i < n ∧ j < n then (if i = j then 1#8 else 0#8) else 0#8 :=
  matGet_tabulate n n _ i j

/-- Entries of a row selection (R129). -/
theorem matGet_selectRows (x : Matrix) (n : Nat) (rows : List Nat) {i j : Nat} (hi : i < rows.length) (hj : j < n) :
    matGet (selectRows x n rows) i j = matGet x rows[i] j := by
  simp [selectRows, matGet, List.getD, hi, hj]

theorem buildEncodeMatrix_length (k m : Nat) : (buildEncodeMatrix k m).length = k + m := by simp [buildEncodeMatrix]

/-! ### Checks (R122, R130, R154) -/

theorem legalParams_iff (k m : Nat) : legalParams k m = true ↔ 1 ≤ m ∧ m ≤ k ∧ k + m ≤ 256 := by simp [legalParams]

/-- What eras_check can answer and when. -/
theorem erasCheck_cases (k m : Nat) (e : BitVec 256) :
    (∃ u, erasCheck k m e = .outOfRange u ∧ u < 256 ∧ e.getLsbD u = true ∧ k + m ≤ u ∧
        ∀ v < u, e.getLsbD v = true → v < k + m) ∨
    (erasCheck k m e = .tooMany (erasCount e) ∧ m < erasCount e ∧ ∀ v < 256, e.getLsbD v = true → v < k + m) ∨
    (erasCheck k m e = .ok ∧ erasCount e ≤ m ∧ ∀ v < 256, e.getLsbD v = true → v < k + m) := by
  unfold erasCheck
  split
  · next u h =>
    rw [List.find?_range_eq_some] at h
    obtain ⟨h1, h2, h3⟩ := h
    simp only [Bool.and_eq_true, decide_eq_true_eq] at h1
    refine .inl ⟨u, rfl, List.mem_range.1 h2, h1.1, h1.2, fun v hv he => ?_⟩
    have := h3 v hv
    simp only [he, Bool.true_and, Bool.not_eq_true', decide_eq_false_iff_not] at this
    omega
  · next h =>
    have hall : ∀ v < 256, e.getLsbD v = true → v < k + m := fun v hv he => by
      have := List.find?_eq_none.1 h v (List.mem_range.2 hv)
      simp only [he, Bool.true_and, decide_eq_true_eq] at this
      omega
    split
    · next hm => exact .inr (.inl ⟨rfl, hm, hall⟩)
    · next hm => exact .inr (.inr ⟨rfl, by omega, hall⟩)

@[simp] theorem accessCheck_software (s : State) (units : Nat → Bool) : accessCheck .software s units = none := rfl

/-- A denied unit is the lowest one the command touches that ACC does not allow (R154). -/
theorem accessCheck_some {bk : Datapath} {s : State} {units : Nat → Bool} {u : Nat}
    (h : accessCheck bk s units = some u) :
    bk = .hardwareOffload ∧ u < 256 ∧ units u = true ∧ s.accessible u = false ∧
      ∀ v < u, units v = true → s.accessible v = true := by
  cases bk with
  | software => simp [accessCheck] at h
  | hardwareOffload =>
    simp only [accessCheck] at h
    rw [List.find?_range_eq_some] at h
    obtain ⟨h1, h2, h3⟩ := h
    simp only [Bool.and_eq_true, Bool.not_eq_true'] at h1
    refine ⟨rfl, List.mem_range.1 h2, h1.1, h1.2, fun v hv hu => ?_⟩
    simpa [hu] using h3 v hv

/-- Nothing is denied when ACC allows every unit the command touches. -/
theorem accessCheck_none {bk : Datapath} {s : State} {units : Nat → Bool}
    (h : ∀ v < 256, units v = true → s.accessible v = true) : accessCheck bk s units = none := by
  cases bk with
  | software => rfl
  | hardwareOffload =>
    simp only [accessCheck, List.find?_eq_none, List.mem_range, Bool.and_eq_true, Bool.not_eq_true']
    exact fun v hv hc => absurd (h v hv hc.1) (by simp [hc.2])

/-! ### The bytes of one output unit (R150, R155) -/

theorem mem_unitCells {s : State} {n : Nat} {g src : Nat → Byte} {dst : Byte} {c : Host.Cell} :
    c ∈ unitCells s n g src dst ↔
      ∃ t < s.usize.toNat,
        c = ((sbAddr dst (BitVec.ofNat 24 t)).toNat, dot s n g src (BitVec.ofNat 24 t)) := by
  simp [unitCells, eq_comm]

theorem unitCells_addr_lt {s : State} {n : Nat} {g src : Nat → Byte} {dst : Byte} {c : Host.Cell}
    (h : c ∈ unitCells s n g src dst) : c.1 < 2 ^ 32 := by
  obtain ⟨t, -, rfl⟩ := mem_unitCells.1 h
  exact sbAddr_toNat_lt _ _

/-- Every byte ENCODE writes is at an address of SB. -/
theorem encodeCells_addr_lt {bk : Datapath} {s : State} {c : Host.Cell} (h : c ∈ encodeCells bk s) : c.1 < 2 ^ 32 := by
  obtain ⟨i, -, hc⟩ := List.mem_flatMap.1 h
  exact unitCells_addr_lt hc

/-- Every byte DECODE writes is at an address of SB. -/
theorem decodeCells_addr_lt {bk : Datapath} {s : State} {c : Host.Cell} (h : c ∈ decodeCells bk s) : c.1 < 2 ^ 32 := by
  obtain ⟨i, -, hc⟩ := List.mem_flatMap.1 h
  exact unitCells_addr_lt hc

end Sys2Proof.Machine
end

