-- ==== Sys2Proof/Laws/PerInstr.lean ====
section
/-!
SUPPORT. Statements made per instruction: every command's word carries the opcode byte of its own row of the table (R84).
-/
namespace Sys2Proof.Laws.OpcodeByte

/-- The table has a row of the command's mnemonic, and bits 31:24 of the command's word are that row's (R84). -/
def Statement (i : Instr) : Prop :=
  ∃ row ∈ opcodeTable, row.mnemonic = mnemonicOf i ∧ opcOf (encode i) = opcOf row.matchBits

theorem gfmul (a b : Byte) : Statement (.gfmul a b) := ⟨opcodeTable[0], by simp [opcodeTable], rfl, (opcOf_encodeA2 _ a b).trans (by decide)⟩
theorem gfdiv (a b : Byte) : Statement (.gfdiv a b) := ⟨opcodeTable[1], by simp [opcodeTable], rfl, (opcOf_encodeA2 _ a b).trans (by decide)⟩
theorem gfinv (a : Byte) : Statement (.gfinv a) := ⟨opcodeTable[2], by simp [opcodeTable], rfl, (opcOf_encodeA1 _ a).trans (by decide)⟩
theorem gfpow (a b : Byte) : Statement (.gfpow a b) := ⟨opcodeTable[3], by simp [opcodeTable], rfl, (opcOf_encodeA2 _ a b).trans (by decide)⟩
theorem mkenc (k m : BitVec 12) : Statement (.mkenc k m) := ⟨opcodeTable[4], by simp [opcodeTable], rfl, (opcOf_encodeP _ k m).trans (by decide)⟩
theorem mkdec : Statement .mkdec := ⟨opcodeTable[5], by simp [opcodeTable], rfl, (opcOf_encodeZ _).trans (by decide)⟩
theorem rdenc (a b : Byte) : Statement (.rdenc a b) := ⟨opcodeTable[6], by simp [opcodeTable], rfl, (opcOf_encodeA2 _ a b).trans (by decide)⟩
theorem rddec (a b : Byte) : Statement (.rddec a b) := ⟨opcodeTable[7], by simp [opcodeTable], rfl, (opcOf_encodeA2 _ a b).trans (by decide)⟩
theorem rdsrv (a : Byte) : Statement (.rdsrv a) := ⟨opcodeTable[8], by simp [opcodeTable], rfl, (opcOf_encodeA1 _ a).trans (by decide)⟩
theorem encode (bk : Datapath) : Statement (.encode bk) := ⟨opcodeTable[9], by simp [opcodeTable], rfl, (opcOf_encodeF _ bk).trans (by decide)⟩
theorem decode (bk : Datapath) : Statement (.decode bk) := ⟨opcodeTable[10], by simp [opcodeTable], rfl, (opcOf_encodeF _ bk).trans (by decide)⟩
theorem setus (n : BitVec 24) : Statement (.setus n) := ⟨opcodeTable[11], by simp [opcodeTable], rfl, (opcOf_encodeW _ n).trans (by decide)⟩
theorem erasclr : Statement .erasclr := ⟨opcodeTable[12], by simp [opcodeTable], rfl, (opcOf_encodeZ _).trans (by decide)⟩
theorem erasset (a : Byte) : Statement (.erasset a) := ⟨opcodeTable[13], by simp [opcodeTable], rfl, (opcOf_encodeA1 _ a).trans (by decide)⟩
theorem erasdel (a : Byte) : Statement (.erasdel a) := ⟨opcodeTable[14], by simp [opcodeTable], rfl, (opcOf_encodeA1 _ a).trans (by decide)⟩
theorem clrerr : Statement .clrerr := ⟨opcodeTable[15], by simp [opcodeTable], rfl, (opcOf_encodeZ _).trans (by decide)⟩
theorem rdstat : Statement .rdstat := ⟨opcodeTable[16], by simp [opcodeTable], rfl, (opcOf_encodeZ _).trans (by decide)⟩
theorem rderr (a : Byte) : Statement (.rderr a) := ⟨opcodeTable[17], by simp [opcodeTable], rfl, (opcOf_encodeA1 _ a).trans (by decide)⟩
theorem sreset : Statement .sreset := ⟨opcodeTable[18], by simp [opcodeTable], rfl, (opcOf_encodeZ _).trans (by decide)⟩
theorem rderas (a : Byte) : Statement (.rderas a) := ⟨opcodeTable[19], by simp [opcodeTable], rfl, (opcOf_encodeA1 _ a).trans (by decide)⟩
theorem rdus : Statement .rdus := ⟨opcodeTable[20], by simp [opcodeTable], rfl, (opcOf_encodeZ _).trans (by decide)⟩

end Sys2Proof.Laws.OpcodeByte
end

