-- ==== Sys2Proof/Tests/Slice0.lean ====
section
/-!
SUPPORT. The model's own tests. Every expected value is spec/95_test_vectors.md's or spec/96_test_programs.md's, or is
spelled out by hand from the rule the name or comment cites. At the end, for each statement of
Sys2Proof/Certificates/Slice0/Obligations.lean that has hypotheses, states and operands that meet them.
-/
set_option Elab.async false

namespace Sys2Proof.Tests
open Sys2Proof.Machine

/-! ### Helpers -/

/-- The next state of an outcome, for tests. -/
def nextOf (r : Result) : State := match r with | .next s => s | .fault _ => State.reset | .refused _ => State.reset

/-- Whether an outcome is a next state. -/
def isNext (r : Result) : Bool := match r with | .next _ => true | .fault _ => false | .refused _ => false

theorem eq_next {r : Result} (h : isNext r = true) : r = .next (nextOf r) := by cases r <;> simp_all [isNext, nextOf]

/-- The last response of an outcome. -/
def answer (r : Result) : Option Word :=
  match (nextOf r).replies.getLast? with
  | some (.response w) => some w
  | _ => none

/-- The recorded error of an outcome. -/
def errOf (r : Result) : ErrRecord := (nextOf r).err

/-- `s` with the host about to present `w`. -/
def offered (w : Word) (s : State) : State := presentWord w s

/-- The encode matrix of (4, 2) as section 1.1 of spec/95 writes it. -/
def em42 : Matrix :=
  [[1, 0, 0, 0], [0, 1, 0, 0], [0, 0, 1, 0], [0, 0, 0, 1], [0x47, 0xA7, 0x7A, 0xBA], [0xA7, 0x47, 0xBA, 0x7A]]

/-- The decode matrix of (4, 2) for E = 0, 1 as section 1.1 of spec/95 writes it. -/
def dm01 : Matrix := [[0xD0, 0x6B, 0x44, 0x50], [0x6B, 0xD0, 0x50, 0x44], [1, 0, 0, 0], [0, 1, 0, 0]]

/-- The decode matrix of (4, 2) for E = 1, 5 (program P6). -/
def dm15 : Matrix := [[1, 0, 0, 0], [0x46, 0x8F, 0x68, 0x05], [0, 1, 0, 0], [0, 0, 1, 0]]

/-- Reset, then MKENC 4, 2. -/
def built : State := { State.reset with k := 4#8, m := 2#8, em := em42, emv := true }

/-- `built` with the decode matrix for E = 0, 1. -/
def ready : State := { built with eras := 3#256, dm := dm01, srv := [2#8, 3#8, 4#8, 5#8], dmv := true }

/-- The bytes at offset 0 of units 0, 1, ... -/
def column (bytes : List Byte) : Memory := bytes.zipIdx.map fun bu => (bu.2 * 2 ^ 24, bu.1)

/-- Vector A of section 2.6, offset 0 of the six units, with USIZE = 1. -/
def columnA : Memory := column [0xDE#8, 0x01#8, 0x00#8, 0x10#8, 0x71#8, 0x79#8]

/-! ### Well-formed commands (R85): the check refuses an ill-formed term of each kind -/

theorem test_wf_refuses_selector_2 : Instr.wellFormed (.rderr 2#8) = false := by decide
theorem test_wf_refuses_byte_index_32 : Instr.wellFormed (.rderas 32#8) = false := by decide
theorem test_wf_accepts_bounds : WellFormed (.rderr 1#8) ∧ WellFormed (.rderas 31#8) := by decide

/-! ### Decoding: section 2.7, one legal word per command, and the illegal words -/

theorem test_decode_gfmul : decode 0x1053CA00#32 = .ok (.gfmul 0x53#8 0xCA#8) := by rfl
theorem test_decode_gfdiv : decode 0x1153CA00#32 = .ok (.gfdiv 0x53#8 0xCA#8) := by rfl
theorem test_decode_gfinv : decode 0x12020000#32 = .ok (.gfinv 0x02#8) := by rfl
theorem test_decode_gfpow : decode 0x13020800#32 = .ok (.gfpow 0x02#8 8#8) := by rfl
theorem test_decode_mkenc : decode 0x200FF001#32 = .ok (.mkenc 255#12 1#12) := by rfl
theorem test_decode_mkdec : decode 0x21000000#32 = .ok .mkdec := by rfl
theorem test_decode_rdenc : decode 0x22040000#32 = .ok (.rdenc 4#8 0#8) := by rfl
theorem test_decode_rddec : decode 0x23000100#32 = .ok (.rddec 0#8 1#8) := by rfl
theorem test_decode_rdsrv : decode 0x24030000#32 = .ok (.rdsrv 3#8) := by rfl
theorem test_decode_encode : decode 0x30000001#32 = .ok (.encode .hardwareOffload) := by rfl
theorem test_decode_decode : decode 0x31000000#32 = .ok (.decode .software) := by rfl
theorem test_decode_setus : decode 0x40FFFFFF#32 = .ok (.setus 16777215#24) := by rfl
theorem test_decode_erasclr : decode 0x41000000#32 = .ok .erasclr := by rfl
theorem test_decode_erasset : decode 0x42FF0000#32 = .ok (.erasset 255#8) := by rfl
theorem test_decode_erasdel : decode 0x43010000#32 = .ok (.erasdel 1#8) := by rfl
theorem test_decode_clrerr : decode 0x44000000#32 = .ok .clrerr := by rfl
theorem test_decode_rdstat : decode 0x45000000#32 = .ok .rdstat := by rfl
theorem test_decode_rderr : decode 0x46010000#32 = .ok (.rderr 1#8) := by rfl
theorem test_decode_sreset : decode 0x47000000#32 = .ok .sreset := by rfl
theorem test_decode_rderas : decode 0x481F0000#32 = .ok (.rderas 31#8) := by rfl
theorem test_decode_rdus : decode 0x49000000#32 = .ok .rdus := by rfl

theorem test_decode_reserved_opcodes :
    ([0x00000000#32, 0xFFFFFFFF#32, 0x14000000#32, 0x25000000#32, 0x32000000#32, 0x4A000000#32].map
      fun w => (decode w).toOption) = List.replicate 6 none := by decide
theorem test_decode_rz_bits :
    ([0x1053CA01#32, 0x12020100#32, 0x21000001#32, 0x30000002#32, 0x31800000#32, 0x45010000#32, 0x24030001#32].map
      fun w => (decode w).toOption) = List.replicate 7 none := by decide
theorem test_decode_out_of_range :
    decode 0x46020000#32 = .error .selectorOutOfRange ∧ decode 0x48200000#32 = .error .byteIndexOutOfRange :=
  ⟨rfl, rfl⟩
theorem test_encode_words :
    [encode (.gfmul 0x53#8 0xCA#8), encode (.mkenc 4095#12 4095#12), encode (.decode .hardwareOffload),
     encode (.setus 64#24), encode (.rdsrv 3#8), encode .rdus] =
    [0x1053CA00#32, 0x20FFFFFF#32, 0x31000001#32, 0x40000040#32, 0x24030000#32, 0x49000000#32] := by decide

/-! ### Field arithmetic: section 2.1 -/

theorem test_gfmul : answer (exec (.gfmul 0x53#8 0xCA#8) State.reset) = some 0x0000008F#32 := by decide +kernel
theorem test_gfmul_reduces : answer (exec (.gfmul 0x02#8 0x80#8) State.reset) = some 0x0000001D#32 := by decide +kernel
theorem test_gfdiv : answer (exec (.gfdiv 0x53#8 0xCA#8) State.reset) = some 0x0000006D#32 := by decide +kernel
theorem test_gfdiv_zero :
    answer (exec (.gfdiv 0x53#8 0#8) State.reset) = some 0x10000000#32 ∧
    errOf (exec (.gfdiv 0x53#8 0#8) State.reset) = ⟨1#4, 0x11#8, 0x053#12, 0#12⟩ ∧
    (nextOf (exec (.gfdiv 0x53#8 0#8) State.reset)).halt = true := by decide +kernel
theorem test_gfinv : answer (exec (.gfinv 0xCA#8) State.reset) = some 0x00000062#32 := by decide +kernel
theorem test_gfinv_zero :
    answer (exec (.gfinv 0#8) State.reset) = some 0x10000000#32 ∧
    errOf (exec (.gfinv 0#8) State.reset) = ⟨1#4, 0x12#8, 0#12, 0#12⟩ := by decide +kernel
theorem test_gfpow_empty : answer (exec (.gfpow 0#8 0#8) State.reset) = some 0x00000001#32 := by decide +kernel
theorem test_gfpow : answer (exec (.gfpow 0xFF#8 3#8) State.reset) = some 0x00000026#32 := by decide +kernel

/-! ### Matrix builder: sections 2.4 and 2.5 -/

theorem test_mkenc :
    (nextOf (exec (.mkenc 4#12 2#12) State.reset)).em = em42 ∧
    answer (exec (.mkenc 4#12 2#12) State.reset) = some 0#32 := by decide +kernel
theorem test_mkenc_too_many :
    errOf (exec (.mkenc 200#12 100#12) built) = ⟨2#4, 0x20#8, 200#12, 100#12⟩ ∧
    (nextOf (exec (.mkenc 200#12 100#12) built)).em = em42 := by decide +kernel
theorem test_mkdec :
    (nextOf (exec .mkdec { built with eras := 3#256 })).dm = dm01 ∧
    (nextOf (exec .mkdec { built with eras := 3#256 })).srv = [2#8, 3#8, 4#8, 5#8] := by decide +kernel
/-- With E = 0, 1, 2, 200 the out-of-range index is reported, not the count (section 2.5). -/
theorem test_mkdec_out_of_range_first :
    errOf (exec .mkdec { built with eras := 7#256 ||| (1#256 <<< 200) }) = ⟨4#4, 0x21#8, 0x0C8#12, 0x001#12⟩ := by
  decide +kernel
theorem test_gfInvert :
    gfInvert [[1, 2, 3], [4, 5, 6], [7, 8, 0x0A]] 3 =
      .inverse [[0x40, 0x5F, 0xDE], [0x9F, 0xDE, 0xFE], [0xD5, 0xA1, 0x15]] := by decide +kernel
theorem test_gfInvert_singular : gfInvert [[1, 2, 3], [2, 4, 6], [0, 0, 1]] 3 = .singular 1 := by decide +kernel
theorem test_rdenc : answer (exec (.rdenc 5#8 3#8) built) = some 0x0000007A#32 := by decide +kernel
theorem test_rdenc_out_of_shape :
    errOf (exec (.rdenc 0#8 4#8) built) = ⟨8#4, 0x22#8, 0x000#12, 0x400#12⟩ := by decide +kernel
theorem test_rddec : answer (exec (.rddec 0#8 1#8) ready) = some 0x0000006B#32 := by decide +kernel
theorem test_rddec_no_matrix : errOf (exec (.rddec 0#8 0#8) built) = ⟨7#4, 0x23#8, 0x001#12, 0#12⟩ := by
  decide +kernel
theorem test_rdsrv : answer (exec (.rdsrv 3#8) ready) = some 0x00000005#32 := by decide +kernel
theorem test_rdsrv_out_of_shape : errOf (exec (.rdsrv 4#8) ready) = ⟨8#4, 0x24#8, 0x040#12, 0#12⟩ := by decide +kernel

/-! ### Codec: section 2.6, offset 0 of Vector A -/

/-- Units 4 and 5 held zeros; ENCODE on the offload datapath writes 71 and 79. -/
theorem test_encode :
    (nextOf (exec (.encode .hardwareOffload)
      { built with usize := 1#24, acc := 0x3F#256, sb := column [0xDE#8, 0x01#8, 0x00#8, 0x10#8, 0#8, 0#8] })).sb =
      columnA := by decide +kernel
theorem test_encode_unregistered :
    errOf (exec (.encode .hardwareOffload) { built with acc := 0x1F#256 }) = ⟨5#4, 0x30#8, 0x005#12, 0#12⟩ := by
  decide +kernel
/-- E = 1, 5 with both units lost: unit 1 = 01 and, through its recovery row, parity unit 5 = 79 (program P6). -/
theorem test_decode_data_and_parity :
    (nextOf (exec (.decode .software)
      { built with usize := 1#24, eras := 0x22#256, dm := dm15, srv := [0#8, 2#8, 3#8, 4#8], dmv := true,
                   sb := column [0xDE#8, 0xFF#8, 0x00#8, 0x10#8, 0x71#8, 0#8] })).sb = columnA := by decide +kernel
/-- The stale decode matrix of section 2.6: E = 2 after MKDEC for 0, 1. -/
theorem test_decode_stale_rejected :
    errOf (exec (.decode .software) { ready with eras := 4#256 }) = ⟨4#4, 0x31#8, 0x002#12, 0x003#12⟩ := by
  decide +kernel

/-! ### Control, status and the gate: section 2.8 and programs P3, P4, P8 -/

theorem test_setus : (nextOf (exec (.setus 64#24) State.reset)).usize = 64#24 := by decide
theorem test_erasclr : (nextOf (exec .erasclr ready)).eras = 0#256 := by decide +kernel
theorem test_erasset :
    answer (exec (.rderas 31#8) (nextOf (exec (.erasset 255#8) State.reset))) = some 0x00000080#32 := by decide +kernel
theorem test_erasdel : (nextOf (exec (.erasdel 1#8) ready)).eras = 1#256 := by decide +kernel
theorem test_rderas : answer (exec (.rderas 1#8) { State.reset with eras := 0x201#256 }) = some 0x00000002#32 := by
  decide +kernel
theorem test_rdus : answer (exec .rdus { State.reset with usize := 64#24 }) = some 0x00000040#32 := by decide +kernel
theorem test_rdstat : answer (exec .rdstat ready) = some 0x00020403#32 := by decide +kernel
theorem test_rdstat_pending :
    answer (exec .rdstat { ready with err := ⟨2#4, 0x20#8, 4#12, 5#12⟩ }) = some 0x0002042B#32 := by decide +kernel
theorem test_rderr0 :
    answer (exec (.rderr 0#8) { State.reset with err := ⟨1#4, 0x12#8, 0#12, 0#12⟩, halt := true }) =
      some 0x00001211#32 := by decide +kernel
theorem test_rderr1 :
    answer (exec (.rderr 1#8) { State.reset with err := ⟨2#4, 0x20#8, 4#12, 5#12⟩ }) = some 0x00004005#32 := by
  decide +kernel
theorem test_clrerr :
    errOf (step (offered 0x44000000#32 { ready with err := ⟨2#4, 0x20#8, 4#12, 5#12⟩ })) = ErrRecord.none := by
  decide +kernel
theorem test_clrerr_refused_when_halted :
    answer (step (offered 0x44000000#32 { ready with err := ⟨1#4, 0x12#8, 0#12, 0#12⟩, halt := true })) =
      some 0xF0000000#32 := by decide +kernel
theorem test_sreset_leaves_halt :
    (nextOf (step (offered 0x47000000#32 { ready with err := ⟨1#4, 0x12#8, 0#12, 0#12⟩, halt := true }))).halt = false ∧
    (nextOf (step (offered 0x47000000#32 { ready with sb := columnA }))).sb = columnA := by decide +kernel
/-- Program P8, step 4: an rz bit set. -/
theorem test_illegal_word :
    errOf (step (offered 0x1053CA01#32 State.reset)) = ⟨8#4, 0x10#8, 0x53C#12, 0xA01#12⟩ ∧
    answer (step (offered 0x1053CA01#32 State.reset)) = some 0x80000000#32 := by decide +kernel
/-- Section 2.8, line 31: an illegal word while an error is pending is refused, ERR unchanged. -/
theorem test_illegal_word_refused :
    answer (step (offered 0#32 { State.reset with err := ⟨1#4, 0x12#8, 0#12, 0#12⟩, halt := true })) =
      some 0xF0000000#32 := by decide +kernel
theorem test_idle_step : nextOf (step ready) = ready := by decide +kernel

/-! ### The host's numbering -/

theorem test_decodeTableWord : decodeTableWord 32 0x1053CA00 = some (.gfmul 0x53#8 0xCA#8) := by decide
theorem test_withFetchWord :
    answer (step (State.reset.withFetchWord 32 0x1053CA00)) = some 0x0000008F#32 := by decide +kernel

/-! ### Witnesses: states and operands that meet the hypotheses of each statement -/

theorem witness_GfMulFieldLaws : gfMul 0x00#8 0x53#8 = 0x00#8 ∧ (0x02#8 : Byte) ≠ 0x00#8 := by decide +kernel
theorem witness_GfInvIsTheInverse : (0xFF#8 : Byte) ≠ 0x00#8 := by decide
theorem witness_GfPowLaws : 1 ≤ 255 ∧ (0x02#8 : Byte) ≠ 0x00#8 := by decide
theorem witness_TwoHasOrder255 : (0x01#8 : Byte) ≠ 0x00#8 ∧ (0x8E#8 : Byte) ≠ 0x00#8 := by decide
theorem witness_GfdivDividesOrFails : (0x01#8 : Byte) ≠ 0x00#8 ∧ (0x00#8 : Byte) = 0x00#8 := by decide
theorem witness_GfinvInvertsOrFails : (0x01#8 : Byte) ≠ 0x00#8 ∧ (0x00#8 : Byte) = 0x00#8 := by decide

theorem witness_DivisionByZeroOnlyFromZeroOperand :
    (legalParams 128 128 = true ∧ 128 ≤ 255 ∧ 255 < 128 + 128 ∧ 127 < 128) ∧
    pivotRow 2 0 [⟨[0#8, 1#8], []⟩, ⟨[1#8, 0#8], []⟩] = some 1 ∧
    exec (.gfdiv 7#8 0#8) State.reset = .next (nextOf (exec (.gfdiv 7#8 0#8) State.reset)) ∧
    (errOf (exec (.gfdiv 7#8 0#8) State.reset)).kind = 1#4 ∧ State.reset.err.kind ≠ 1#4 :=
  ⟨by decide, by decide +kernel, eq_next (by decide +kernel), by decide +kernel, by decide⟩

theorem witness_MkencBuildsOrRejects :
    (∀ km ∈ [(1, 1), (4, 4), (128, 128), (255, 1)], 1 ≤ km.2 ∧ km.2 ≤ km.1 ∧ km.1 + km.2 ≤ 256) ∧
    (∀ km ∈ [(4, 5), (129, 128), (255, 2), (4, 0), (0, 0), (4095, 4095)],
      ¬(1 ≤ km.2 ∧ km.2 ≤ km.1 ∧ km.1 + km.2 ≤ 256)) := by decide

theorem witness_EncodeMatrixEntries : 1 ≤ 128 ∧ 128 ≤ 128 ∧ 128 + 128 ≤ 256 ∧ 128 ≤ 255 ∧ 255 < 128 + 128 ∧ 127 < 128 := by
  decide

theorem witness_ParitySubmatricesInvertible :
    [4, 5].Nodup ∧ [0, 3].Nodup ∧ [4, 5].length = [0, 3].length ∧ (∀ i ∈ [4, 5], 4 ≤ i ∧ i < 4 + 2) ∧ ∀ j ∈ [0, 3], j < 4 := by
  decide

theorem witness_SurvivorsAreTheLowest :
    erasCheck 4 2 0x30#256 = .ok ∧ erasCheck 128 128 (1#256 <<< 255) = .ok := by decide +kernel

theorem witness_GfInvertReturnsTheInverse :
    ([[0#8, 1#8], [1#8, 0#8]] : Matrix).length = 2 ∧ (∀ row ∈ ([[0#8, 1#8], [1#8, 0#8]] : Matrix), row.length = 2) ∧
    gfInvert [[0#8, 1#8], [1#8, 0#8]] 2 = .inverse [[0#8, 1#8], [1#8, 0#8]] ∧
    IsLeftInverse 2 [[0#8, 1#8], [1#8, 0#8]] [[0#8, 1#8], [1#8, 0#8]] := by decide +kernel

theorem witness_GfInvertSingularIffNoInverse :
    ([[1#8, 1#8], [1#8, 1#8]] : Matrix).length = 2 ∧ (∀ row ∈ ([[1#8, 1#8], [1#8, 1#8]] : Matrix), row.length = 2) ∧
    gfInvert [[1#8, 1#8], [1#8, 1#8]] 2 = .singular 1 := by decide +kernel

/-- The three answers, at the lowest index out of range, one erasure too many, and exactly M erasures. -/
theorem witness_ErasCheckAnswers :
    erasCheck 4 2 (0x40#256) = .outOfRange 6 ∧ erasCheck 4 2 (7#256) = .tooMany 3 ∧ erasCheck 4 2 (0x21#256) = .ok := by
  decide +kernel

theorem witness_MkdecOutcomes :
    State.reset.emv = false ∧
    (built.emv = true ∧ erasCheck 4 2 (0x40#256) = .outOfRange 6) ∧ erasCheck 4 2 (7#256) = .tooMany 3 ∧
    (erasCheck 1 1 0#256 = .ok ∧ survivors 1 1 0#256 = [0] ∧ gfInvert [[0#8]] 1 = .singular 0) ∧
    gfInvert [[1#8]] 1 = .inverse [[1#8]] := by decide +kernel

theorem witness_MkdecNeverSingular :
    State.encInv { built with eras := 0x21#256 } ∧ built.emv = true ∧ erasCheck 4 2 0x21#256 = .ok := by decide +kernel

theorem witness_RdencOutcomes :
    State.reset.emv = false ∧ built.emv = true ∧
    (built.k.toNat + built.m.toNat ≤ (6#8 : Byte).toNat) ∧ (built.k.toNat ≤ (4#8 : Byte).toNat) ∧
    (5#8 : Byte).toNat < built.k.toNat + built.m.toNat ∧ (3#8 : Byte).toNat < built.k.toNat := by decide

theorem witness_RddecRdsrvOutcomes :
    built.dmv = false ∧ ready.dmv = true ∧ (ready.k.toNat ≤ (4#8 : Byte).toNat) ∧
    (3#8 : Byte).toNat < ready.k.toNat := by decide

/-- Both datapaths, and the largest shape. -/
theorem witness_EncodeOutcomes :
    (built.emv = true ∧ built.k.toNat + built.m.toNat ≤ 256 ∧
      ∀ u < built.k.toNat + built.m.toNat, (0x3F#256).getLsbD u = true) ∧
    ({ built with k := 128#8, m := 128#8 } : State).k.toNat + ({ built with k := 128#8, m := 128#8 } : State).m.toNat ≤ 256 := by
  decide +kernel

theorem witness_EncodeOutcomes_errors :
    State.reset.emv = false ∧ built.emv = true ∧ 5 < built.k.toNat + built.m.toNat ∧ (0x1F#256).getLsbD 5 = false ∧
    ∀ v < 5, (0x1F#256).getLsbD v = true := by decide +kernel

/-- `built` with Vector A at offset 0 and everything registered. -/
def stripe : State := { built with usize := 1#24, acc := 0x3F#256, sb := columnA }

/-- `ready` with the same stripe. -/
def readyStripe : State := { ready with usize := 1#24, acc := 0x3F#256, sb := columnA }

/-- `readyStripe` with units 0 and 1 lost. -/
def lostStripe : State := { readyStripe with sb := column [0#8, 0#8, 0x00#8, 0x10#8, 0x71#8, 0x79#8] }

theorem witness_EncodeIsIdempotent :
    stripe.k.toNat + stripe.m.toNat ≤ 256 ∧
    exec (.encode .software) stripe = .next (nextOf (exec (.encode .software) stripe)) ∧
    Succeeded stripe (nextOf (exec (.encode .software) stripe)) ∧
    exec (.encode .hardwareOffload) (nextOf (exec (.encode .software) stripe)) =
      .next (nextOf (exec (.encode .hardwareOffload) (nextOf (exec (.encode .software) stripe)))) ∧
    Succeeded (nextOf (exec (.encode .software) stripe))
      (nextOf (exec (.encode .hardwareOffload) (nextOf (exec (.encode .software) stripe)))) :=
  ⟨by decide, eq_next (by decide +kernel), by unfold Succeeded; decide +kernel, eq_next (by decide +kernel),
    by unfold Succeeded; decide +kernel⟩

theorem witness_DecodeOutcomes :
    readyStripe.dmv = true ∧ erasCheck readyStripe.k.toNat readyStripe.m.toNat readyStripe.eras = .ok ∧
    (∀ r < readyStripe.k.toNat, readyStripe.eras.getLsbD (readyStripe.srv.getD r 0x00#8).toNat = false) ∧
    (∀ u < 256, readyStripe.eras.getLsbD u = true → readyStripe.acc.getLsbD u = true) ∧
    (∀ r < readyStripe.k.toNat, readyStripe.acc.getLsbD (readyStripe.srv.getD r 0x00#8).toNat = true) := by
  decide +kernel

/-- One witness per clause: no decode matrix; index 6; three erased; SRV[0] erased; unit 2 denied. -/
theorem witness_DecodeOutcomes_errors :
    built.dmv = false ∧ ready.dmv = true ∧ erasCheck 4 2 0x40#256 = .outOfRange 6 ∧ erasCheck 4 2 7#256 = .tooMany 3 ∧
    (erasCheck 4 2 4#256 = .ok ∧ (4#256).getLsbD (ready.srv.getD 0 0#8).toNat = true) ∧
    (erasCheck 4 2 ready.eras = .ok ∧ (∀ r < 4, ready.eras.getLsbD (ready.srv.getD r 0#8).toNat = false) ∧
      (ready.srv.getD 0 0#8).toNat = 2 ∧ (0x1B#256).getLsbD 2 = false ∧ ∀ v < 2, (0x1B#256).getLsbD v = true) := by
  decide +kernel

theorem witness_BackendsAgree :
    (Succeeded stripe (nextOf (exec (.encode .software) stripe)) ∧
      Succeeded stripe (nextOf (exec (.encode .hardwareOffload) stripe))) ∧
    Succeeded lostStripe (nextOf (exec (.decode .software) lostStripe)) ∧
    Succeeded lostStripe (nextOf (exec (.decode .hardwareOffload) lostStripe)) := by
  unfold Succeeded; decide +kernel

theorem witness_TransposedIsAPermutation : 5 < 6 ∧ 3 < 4 ∧ (transposed em42 6 4)[3 * 6 + 5]? = some 0x7A#8 := by
  decide +kernel

theorem witness_AccessOrderIsIrrelevant :
    (Succeeded stripe (nextOf (exec (.encode .software) stripe)) ∧ stripe.k.toNat + stripe.m.toNat ≤ 256 ∧
      exec (.encode .software) stripe = .next (nextOf (exec (.encode .software) stripe))) ∧
    Succeeded lostStripe (nextOf (exec (.decode .hardwareOffload) lostStripe)) ∧
    exec (.decode .hardwareOffload) lostStripe = .next (nextOf (exec (.decode .hardwareOffload) lostStripe)) :=
  ⟨⟨by unfold Succeeded; decide +kernel, by decide, eq_next (by decide +kernel)⟩,
    by unfold Succeeded; decide +kernel, eq_next (by decide +kernel)⟩

/-- Two states with the same data units and different old parity, datapath and ACC. -/
theorem witness_EncodeDependsOnItsInputsOnly :
    let s' : State := { stripe with acc := 0#256, sb := column [0xDE#8, 0x01#8, 0x00#8, 0x10#8, 0xAA#8, 0xBB#8] }
    stripe.em = s'.em ∧ stripe.k.toNat + stripe.m.toNat ≤ 256 ∧
    (∀ j < stripe.k.toNat, ∀ o < stripe.usize.toNat, stripe.unitAt j o = s'.unitAt j o) ∧
    exec (.encode .hardwareOffload) stripe = .next (nextOf (exec (.encode .hardwareOffload) stripe)) ∧
    Succeeded stripe (nextOf (exec (.encode .hardwareOffload) stripe)) ∧
    exec (.encode .software) s' = .next (nextOf (exec (.encode .software) s')) ∧
    Succeeded s' (nextOf (exec (.encode .software) s')) :=
  ⟨rfl, by decide, by decide +kernel, eq_next (by decide +kernel), by unfold Succeeded; decide +kernel,
    eq_next (by decide +kernel), by unfold Succeeded; decide +kernel⟩

/-- Two states whose erased units hold different bytes. -/
theorem witness_DecodeDependsOnItsInputsOnly :
    readyStripe.em = lostStripe.em ∧ readyStripe.srv = lostStripe.srv ∧
    (∀ r < readyStripe.k.toNat, ∀ o < readyStripe.usize.toNat,
      readyStripe.unitAt (readyStripe.srv.getD r 0#8).toNat o = lostStripe.unitAt (readyStripe.srv.getD r 0#8).toNat o) ∧
    readyStripe.unitAt 0 0 ≠ lostStripe.unitAt 0 0 ∧
    exec (.decode .software) readyStripe = .next (nextOf (exec (.decode .software) readyStripe)) ∧
    Succeeded readyStripe (nextOf (exec (.decode .software) readyStripe)) ∧
    exec (.decode .software) lostStripe = .next (nextOf (exec (.decode .software) lostStripe)) ∧
    Succeeded lostStripe (nextOf (exec (.decode .software) lostStripe)) :=
  ⟨rfl, rfl, by decide +kernel, by decide +kernel, eq_next (by decide +kernel), by unfold Succeeded; decide +kernel,
    eq_next (by decide +kernel), by unfold Succeeded; decide +kernel⟩

/-- Vector A at offset 0 is a consistent stripe. -/
theorem readyStripe_consistent : readyStripe.consistent := by
  intro i h1 h2 t ht
  have hk : readyStripe.kN = 4 := by decide
  have hn : readyStripe.nUnits = 6 := by decide
  have hu : readyStripe.usize.toNat = 1 := by decide
  rw [hk] at h1
  rw [hn] at h2
  rw [hu] at ht
  obtain rfl : t = 0 := by omega
  obtain rfl | rfl : i = 4 ∨ i = 5 := by omega
  · decide +kernel
  · decide +kernel

theorem lostStripe_lostOnly : LostOnly readyStripe lostStripe := ⟨rfl, by decide +kernel⟩

theorem witness_StoredInverseServesOtherSets :
    readyStripe.dmv = true ∧ readyStripe.encInv ∧ readyStripe.decInv ∧ readyStripe.dmInverse ∧ readyStripe.consistent ∧
    LostOnly readyStripe lostStripe ∧
    exec (.decode .software) lostStripe = .next (nextOf (exec (.decode .software) lostStripe)) ∧
    Succeeded lostStripe (nextOf (exec (.decode .software) lostStripe)) ∧ readyStripe.eras.getLsbD 0 = true :=
  ⟨by decide, by decide +kernel, by decide +kernel, by decide +kernel, readyStripe_consistent, lostStripe_lostOnly,
    eq_next (by decide +kernel), by unfold Succeeded; decide +kernel, by decide +kernel⟩

theorem witness_RoundTripRestoresLostUnits :
    readyStripe.emv = true ∧ readyStripe.encInv ∧ readyStripe.consistent ∧
    erasCheck readyStripe.k.toNat readyStripe.m.toNat readyStripe.eras = .ok ∧ LostOnly readyStripe lostStripe ∧
    exec .mkdec lostStripe = .next (nextOf (exec .mkdec lostStripe)) ∧
    Succeeded lostStripe (nextOf (exec .mkdec lostStripe)) ∧
    exec (.decode .software) (nextOf (exec .mkdec lostStripe)) =
      .next (nextOf (exec (.decode .software) (nextOf (exec .mkdec lostStripe)))) ∧
    Succeeded (nextOf (exec .mkdec lostStripe)) (nextOf (exec (.decode .software) (nextOf (exec .mkdec lostStripe)))) :=
  ⟨by decide, by decide +kernel, readyStripe_consistent, by decide +kernel, lostStripe_lostOnly,
    eq_next (by decide +kernel), by unfold Succeeded; decide +kernel, eq_next (by decide +kernel),
    by unfold Succeeded; decide +kernel⟩

/-- The stripe after a data byte changed without a new ENCODE: not consistent, and DECODE may run. -/
theorem witness_RoundTripRestoresLostUnits_inconsistent :
    let s := readyStripe.sbWrite (sbAddr 0#8 0#24) 0xFF#8
    s.dmv = true ∧ erasCheck s.k.toNat s.m.toNat s.eras = .ok ∧
    ∀ r < s.k.toNat, s.eras.getLsbD (s.srv.getD r 0x00#8).toNat = false := by decide +kernel

theorem witness_RderasRdusComplete :
    (31#8 : Byte).toNat ≤ 31 ∧ (0#8 : Byte).toNat ≤ 31 ∧ 31 < (32#8 : Byte).toNat := by decide

theorem witness_RderrShowsErrorRecord :
    1 < (2#8 : Byte).toNat ∧ State.reset.err = ⟨0#4, 0#8, 0#12, 0#12⟩ ∧ State.reset.halt = false := by decide

/-- A state with a reported error, and one with a fatal error. -/
def reported : State := { ready with err := ⟨2#4, 0x20#8, 4#12, 5#12⟩ }
def fatal : State := { ready with err := ⟨1#4, 0x12#8, 0#12, 0#12⟩, halt := true }

theorem witness_ClrerrSresetComplete :
    (offered 0x44000000#32 fatal).inbox = .command 0x44000000#32 :: [] ∧ fatal.err.kind ≠ 0#4 ∧ fatal.halt = true ∧
    (offered 0x47000000#32 fatal).inbox = .command 0x47000000#32 :: [] ∧
    exec .sreset fatal = .next (nextOf (exec .sreset fatal)) ∧ (nextOf (exec .sreset fatal)).halt = false :=
  ⟨rfl, by decide, by decide, rfl, eq_next (by decide +kernel), by decide +kernel⟩

theorem witness_StepRunsTheDecodedCommand :
    (offered 0x21000000#32 built).inbox = .command 0x21000000#32 :: [] ∧ decode 0x21000000#32 = .ok .mkdec ∧
    (offered 0x21000000#32 built).err.kind = 0#4 := ⟨rfl, rfl, by decide⟩

/-- The clauses in order, CLRERR on both sides of HALT. -/
theorem witness_GateRefusesWhilePending :
    (decode 0x44000000#32 = .ok .clrerr ∧ reported.err.kind ≠ 0#4 ∧ reported.halt = false) ∧
    (decode 0x45000000#32 = .ok .rdstat ∧ mnemonicOf .rdstat ∈ ["RDSTAT", "RDERR", "RDERAS", "RDUS", "SRESET"]) ∧
    (fatal.err.kind ≠ 0#4 ∧ mnemonicOf .clrerr ∉ ["RDSTAT", "RDERR", "RDERAS", "RDUS", "SRESET"] ∧
      ¬(mnemonicOf .clrerr = "CLRERR" ∧ fatal.halt = false)) ∧
    decode 0x00000000#32 = .error .reservedOpcode :=
  ⟨⟨rfl, by decide, by decide⟩, ⟨rfl, by decide⟩, ⟨by decide, by decide, by decide⟩, rfl⟩

/-- Both ends of each reserved range of R86. -/
theorem witness_IllegalWordRaisesBadCommand :
    (decode 0x1053CA01#32 = .error .reservedBitSet ∧ State.reset.err.kind = 0#4 ∧ fatal.err.kind ≠ 0#4) ∧
    ((0x0FFFFFFF#32).toNat / 2 ^ 24 < 0x10 ∧ 0x14 ≤ (0x14000000#32).toNat / 2 ^ 24 ∧
      (0x1FFFFFFF#32).toNat / 2 ^ 24 < 0x20 ∧ 0x25 ≤ (0x25000000#32).toNat / 2 ^ 24 ∧
      (0x2FFFFFFF#32).toNat / 2 ^ 24 < 0x30 ∧ 0x32 ≤ (0x32000000#32).toNat / 2 ^ 24 ∧
      (0x3FFFFFFF#32).toNat / 2 ^ 24 < 0x40 ∧ 0x4A ≤ (0x4A000000#32).toNat / 2 ^ 24) :=
  ⟨⟨rfl, by decide, by decide⟩, by decide⟩

theorem witness_FirstErrorStays :
    (reported.err.kind ≠ 0#4 ∧ isNext (step (offered 0x44000000#32 reported)) = true ∧
      errOf (step (offered 0x44000000#32 reported)) ≠ reported.err) ∧
    (errOf (step (offered 0x47000000#32 fatal)) ≠ fatal.err) ∧
    errOf (step { fatal with inbox := [.hardReset] }) ≠ fatal.err := by decide +kernel

theorem witness_ErrorsArePrecise :
    step (offered 0x20004005#32 built) = .next (nextOf (step (offered 0x20004005#32 built))) ∧
    (nextOf (step (offered 0x20004005#32 built))).replies = built.replies ++ [.response 0x20000000#32] ∧
    1 ≤ (0x20000000#32).toNat / 2 ^ 28 ∧ (0x80000000#32).toNat / 2 ^ 28 ≤ 8 :=
  ⟨eq_next (by decide +kernel), by decide +kernel, by decide, by decide⟩

/-- One success, one error, one refusal. -/
theorem witness_ResponseWordForm :
    answer (step (offered 0x45000000#32 built)) = some 0x00020401#32 ∧
    answer (step (offered 0x20004005#32 built)) = some 0x20000000#32 ∧
    answer (step (offered 0x20004005#32 reported)) = some 0xF0000000#32 := by decide +kernel

theorem witness_ClrerrReturnsToTheStateBefore :
    let s := offered 0x20004005#32 (offered 0x44000000#32 built)
    s.errInv ∧ s.err.kind = 0#4 ∧ s.inbox = .command 0x20004005#32 :: .command 0x44000000#32 :: [] ∧
    step s = .next (nextOf (step s)) ∧ (nextOf (step s)).err.kind ≠ 0#4 ∧ (nextOf (step s)).halt = false ∧
    step (nextOf (step s)) = .next (nextOf (step (nextOf (step s)))) :=
  ⟨by decide +kernel, by decide, rfl, eq_next (by decide +kernel), by decide +kernel, by decide +kernel,
    eq_next (by decide +kernel)⟩

theorem reset_inv : State.reset.Inv := by decide

theorem witness_StepKeepsInvariant :
    (offered 0x30000000#32 readyStripe).Inv ∧ isNext (step (offered 0x30000000#32 readyStripe)) = true := by
  decide +kernel

theorem witness_StepKeepsDecodeMatrixInverse :
    (offered 0x21000000#32 readyStripe).Inv ∧ (offered 0x21000000#32 readyStripe).dmInverse ∧
    isNext (step (offered 0x21000000#32 readyStripe)) = true := by decide +kernel

theorem witness_OnlyTheNamedCommandsWrite :
    exec (.mkenc 1#12 1#12) fatal = .next (nextOf (exec (.mkenc 1#12 1#12) fatal)) ∧
    mnemonicOf (.mkenc 1#12 1#12) ∉ ["ENCODE", "DECODE"] ∧ mnemonicOf .mkdec ∉ ["MKENC", "SRESET"] ∧
    mnemonicOf .mkdec ∉ ["SETUS", "SRESET"] ∧ mnemonicOf .mkdec ∉ ["ERASCLR", "ERASSET", "ERASDEL", "SRESET"] ∧
    mnemonicOf .rdus ∉ ["MKDEC", "SRESET"] ∧ mnemonicOf .rdus ∉ ["MKDEC", "MKENC", "SRESET"] ∧ fatal.halt = true ∧
    mnemonicOf (.mkenc 1#12 1#12) ∉ ["GFDIV", "GFINV", "MKDEC", "SRESET"] :=
  ⟨eq_next (by decide +kernel), by decide, by decide, by decide, by decide, by decide, by decide, by decide, by decide⟩

/-- The clause on ERR: the largest selector RDERR has, with an error recorded. -/
theorem witness_OnlyTheNamedCommandsWrite_err :
    exec (.rderr 1#8) fatal = .next (nextOf (exec (.rderr 1#8) fatal)) ∧ WellFormed (.rderr 1#8) ∧
    mnemonicOf (.rderr 1#8) ∉ ["GFDIV", "GFINV", "MKENC", "MKDEC", "RDENC", "RDDEC", "RDSRV", "ENCODE", "DECODE",
      "CLRERR", "SRESET"] :=
  ⟨eq_next (by decide +kernel), by decide, by decide⟩

theorem witness_AccessMapMattersToOffloadOnly :
    Instr.encode .software ≠ .encode .hardwareOffload ∧ Instr.encode .software ≠ .decode .hardwareOffload ∧
    exec (.encode .software) stripe = .next (nextOf (exec (.encode .software) stripe)) :=
  ⟨by decide, by decide, eq_next (by decide +kernel)⟩

theorem witness_HardwareResetState : ({ fatal with inbox := [.hardReset] } : State).inbox = .hardReset :: [] := rfl

theorem witness_HostWriteThenRead :
    let s : State := { ready with inbox := [.writeByte 7#32 9#8, .readByte 7#32] }
    s.inbox = .writeByte 7#32 9#8 :: .readByte 7#32 :: [] ∧ step s = .next (nextOf (step s)) ∧
    step (nextOf (step s)) = .next (nextOf (step (nextOf (step s)))) ∧
    (nextOf (step (nextOf (step s)))).replies = [.byte 9#8] :=
  ⟨rfl, eq_next (by decide +kernel), eq_next (by decide +kernel), by decide +kernel⟩

/-- A map that allows the last unit and denies the others. -/
theorem witness_HostChangesAccessMap :
    let s : State := { ready with inbox := [.setAcc (1#256 <<< 255)] }
    s.inbox = .setAcc (1#256 <<< 255) :: [] ∧ (nextOf (step s)).acc.getLsbD 255 = true ∧
    (nextOf (step s)).acc.getLsbD 254 = false := ⟨rfl, by decide +kernel, by decide +kernel⟩

theorem witness_WaitingChangesNothing : State.reset.inbox = [] ∧ reported.inbox = [] := ⟨rfl, rfl⟩

theorem witness_DecodeOfEncode : WellFormed (.rderr 1#8) ∧ WellFormed (.rderas 31#8) ∧ WellFormed (.mkenc 4095#12 0#12) := by
  decide

theorem witness_EncodeOfDecode : decode 0x481F0000#32 = .ok (.rderas 31#8) ∧ decode 0x46010000#32 = .ok (.rderr 1#8) :=
  ⟨rfl, rfl⟩

theorem witness_MatchAndMaskSelectTheCommand :
    (⟨"RDERAS", 0x48000000#32, 0xFFE0FFFF#32⟩ : TableRow) ∈ opcodeTable ∧
    0x481F0000#32 &&& 0xFFE0FFFF#32 = 0x48000000#32 ∧ decode 0x481F0000#32 = .ok (.rderas 31#8) :=
  ⟨by decide, by decide, rfl⟩

end Sys2Proof.Tests
end

