-- ==== Sys2Proof/Proofs/Layouts.lean ====
section
/-!
The two flat layouts of a matrix (R40, R159): the index of each element, and that one layout is a permutation of the other.
-/
namespace Sys2Proof.Machine

/-- A table listed row by row has element (i, j) at i × m + j, m being the length of a row. -/
theorem getElem?_flatMap_range_map {α : Type} (f : Nat → Nat → α) {n m i j : Nat} (hi : i < n) (hj : j < m) :
    ((List.range n).flatMap fun a => (List.range m).map fun b => f a b)[i * m + j]? = some (f i j) := by
  induction n with
  | zero => omega
  | succ n ih =>
    have hlen : ((List.range n).flatMap fun a => (List.range m).map fun b => f a b).length = n * m := by
      simp [List.length_flatMap]
    rw [List.range_succ, List.flatMap_append]
    rcases Nat.lt_succ_iff_lt_or_eq.1 hi with hlt | rfl
    · have hrow : i * m + j < n * m := by
        calc i * m + j < (i + 1) * m := by rw [Nat.succ_mul]; omega
          _ ≤ n * m := Nat.mul_le_mul_right m hlt
      rw [List.getElem?_append_left (by rwa [hlen]), ih hlt]
    · rw [List.getElem?_append_right (by omega), hlen]
      simp [hj]

/-- Listing a table by columns instead of by rows permutes its elements. -/
theorem flatMap_map_perm_swap {α β γ : Type} (xs : List α) (ys : List β) (f : α → β → γ) :
    (xs.flatMap fun a => ys.map fun b => f a b).Perm (ys.flatMap fun b => xs.map fun a => f a b) := by
  have h := Multiset.bind_map_comm (xs : Multiset α) (ys : Multiset β) (f := f)
  simpa using h

/-- Element (i, j) of the row-major layout is at i × C + j (R40). -/
theorem rowMajor_getElem? (x : Matrix) {r c i j : Nat} (hi : i < r) (hj : j < c) :
    (rowMajor x r c)[i * c + j]? = some (matGet x i j) :=
  getElem?_flatMap_range_map (matGet x) hi hj

/-- Element (i, j) of the transposed layout is at j × R + i (R40). -/
theorem transposed_getElem? (x : Matrix) {r c i j : Nat} (hi : i < r) (hj : j < c) :
    (transposed x r c)[j * r + i]? = some (matGet x i j) :=
  getElem?_flatMap_range_map (fun j i => matGet x i j) hj hi

theorem transposed_perm_rowMajor (x : Matrix) (r c : Nat) : (transposed x r c).Perm (rowMajor x r c) :=
  flatMap_map_perm_swap (List.range c) (List.range r) fun j i => matGet x i j

/-- Settles O25: both layouts list the same table, one by rows and one by columns. -/
theorem transposedIsAPermutation : Obligations.TransposedIsAPermutation := fun x r c =>
  ⟨transposed_perm_rowMajor x r c, fun _ hi _ hj => ⟨transposed_getElem? x hi hj, rowMajor_getElem? x hi hj⟩⟩

end Sys2Proof.Machine
end

