-- ==== Sys2Proof/Proofs/Reset.lean ====
section
/-!
What the resets leave (R41, R177): the registers, SB, and matrix stores that no command can read while their valid bits
are 0 (R206).
-/
namespace Sys2Proof.Machine

/-! ### The ways a command ends, in the claims' words -/

theorem respond_eq_answered (d : BitVec 24) (s : State) : respond d s = .next (s.answered 0x0#4 d) := rfl

theorem raise_eq_failed (x : ErrorKind) (op : Byte) (i0 i1 : BitVec 12) (s : State) :
    raise x op i0 i1 s = .next (s.failed (errorCode x) op i0 i1 (isFatal x)) := rfl

@[simp] theorem State.answered_sbRead (s : State) (st : BitVec 4) (d : BitVec 24) (x : BitVec 32) :
    (s.answered st d).sbRead x = s.sbRead x := rfl

/-! ### Commands that need EM, while EMV = 0 -/

theorem exec_rdenc_invalid {s : State} (h : s.emv = false) (a b : Byte) :
    exec (.rdenc a b) s = .next (s.failed 7#4 0x22#8 0x000#12 0x000#12 false) :=
  (if_pos h).trans (raise_eq_failed _ _ _ _ s)

theorem exec_mkdec_invalid {s : State} (h : s.emv = false) :
    exec .mkdec s = .next (s.failed 7#4 0x21#8 0x000#12 0x000#12 false) :=
  (if_pos h).trans (raise_eq_failed _ _ _ _ s)

theorem exec_encode_invalid {s : State} (h : s.emv = false) (bk : Datapath) :
    exec (.encode bk) s = .next (s.failed 7#4 0x30#8 0x000#12 0x000#12 false) :=
  (if_pos h).trans (raise_eq_failed _ _ _ _ s)

/-! ### Commands that need DM or SRV, while DMV = 0 -/

theorem exec_rddec_invalid {s : State} (h : s.dmv = false) (a b : Byte) :
    exec (.rddec a b) s = .next (s.failed 7#4 0x23#8 0x001#12 0x000#12 false) :=
  (if_pos h).trans (raise_eq_failed _ _ _ _ s)

theorem exec_rdsrv_invalid {s : State} (h : s.dmv = false) (a : Byte) :
    exec (.rdsrv a) s = .next (s.failed 7#4 0x24#8 0x001#12 0x000#12 false) :=
  (if_pos h).trans (raise_eq_failed _ _ _ _ s)

theorem exec_decode_invalid {s : State} (h : s.dmv = false) (bk : Datapath) :
    exec (.decode bk) s = .next (s.failed 7#4 0x31#8 0x001#12 0x000#12 false) :=
  (if_pos h).trans (raise_eq_failed _ _ _ _ s)

/-- With both valid bits 0 no command observes EM, DM or SRV (R206). -/
theorem matricesUnreadable_of_invalid {s : State} (he : s.emv = false) (hd : s.dmv = false) : MatricesUnreadable s :=
  ⟨fun a b => ⟨exec_rdenc_invalid he a b, exec_rddec_invalid hd a b, exec_rdsrv_invalid hd a⟩,
    exec_mkdec_invalid he,
    fun bk => ⟨exec_encode_invalid he bk, exec_decode_invalid hd bk⟩⟩

/-! ### The resets -/

/-- SRESET completes in every state (R177). -/
theorem exec_sreset (s : State) : exec .sreset s = .next (s.softReset.answered 0x0#4 0#24) :=
  respond_eq_answered 0#24 s.softReset

/-- No byte is written at the start: each SB byte is the free value (R41). -/
theorem reset_sbRead (x : BitVec 32) : State.reset.sbRead x = Config.sbReset State.reset.resets x.toNat := rfl

/-- Settles O50: the registers by the definitions of the two resets, the matrices by their valid bits. -/
theorem resetState : Obligations.ResetState := by
  refine ⟨⟨rfl, rfl, rfl, rfl, rfl, rfl, rfl, rfl, reset_sbRead, matricesUnreadable_of_invalid rfl rfl⟩, fun s => ?_⟩
  exact ⟨s.softReset.answered 0x0#4 0#24, exec_sreset s, rfl, rfl, rfl, rfl, rfl, rfl, rfl, rfl,
    fun x => by simp, matricesUnreadable_of_invalid rfl rfl⟩

end Sys2Proof.Machine
end

