-- ==== Sys2Proof/Proofs/IllegalWords.lean ====
section
/-!
Illegal command words (R85, R86): which opcodes the decoder knows, and what the step does with a word it rejects (R207, R213).
-/
namespace Sys2Proof.Machine

/-! ### Reserved opcodes -/

/-- A word whose opcode stands in no row of the table of R84 is rejected, whatever its payload (R85 (a)). -/
theorem decode_eq_reservedOpcode {w : Word} (h : ∀ row ∈ opcodeTable, opcOf row.matchBits ≠ opcOf w) :
    decode w = .error .reservedOpcode := by
  have hnot : opcOf w ∉ opcodeTable.map fun row => opcOf row.matchBits := by simpa using h
  unfold decode
  split
  case h_22 => rfl
  all_goals exact absurd (by rw [‹opcOf w = _›]; decide) hnot

/-- The opcode ranges of R84; the opcodes outside are the reserved ones of R86. -/
theorem opcodeTable_opcode_ranges : ∀ row ∈ opcodeTable,
    (0x10 ≤ (opcOf row.matchBits).toNat ∧ (opcOf row.matchBits).toNat < 0x14) ∨
    (0x20 ≤ (opcOf row.matchBits).toNat ∧ (opcOf row.matchBits).toNat < 0x25) ∨
    (0x30 ≤ (opcOf row.matchBits).toNat ∧ (opcOf row.matchBits).toNat < 0x32) ∨
    (0x40 ≤ (opcOf row.matchBits).toNat ∧ (opcOf row.matchBits).toNat < 0x4A) := by
  decide

/-- The opcode of a word is its number without the payload: the word has no bit above it. -/
theorem opcOf_toNat_eq_div (w : Word) : (opcOf w).toNat = w.toNat / 2 ^ 24 := by
  rw [opcOf_toNat]
  have := w.isLt
  omega

/-- The reserved ranges of R86 lie between the ranges of the table. -/
theorem decode_reserved_range {w : Word}
    (h : w.toNat / 2 ^ 24 < 0x10 ∨
      (0x14 ≤ w.toNat / 2 ^ 24 ∧ w.toNat / 2 ^ 24 < 0x20) ∨ (0x25 ≤ w.toNat / 2 ^ 24 ∧ w.toNat / 2 ^ 24 < 0x30) ∨
      (0x32 ≤ w.toNat / 2 ^ 24 ∧ w.toNat / 2 ^ 24 < 0x40) ∨ 0x4A ≤ w.toNat / 2 ^ 24) :
    decode w = .error .reservedOpcode := by
  refine decode_eq_reservedOpcode fun row hrow heq => ?_
  have hrange := opcodeTable_opcode_ranges row hrow
  rw [heq, opcOf_toNat_eq_div] at hrange
  omega

/-! ### The step on an illegal word -/

theorem refuse_eq_answered (s : State) : refuse s = .next (s.answered 0xF#4 0#24) := rfl

theorem raiseBadCommand_eq_failed (w : Word) (s : State) :
    raiseBadCommand w s = .next (s.failed 8#4 (opcOf w) (fieldHi12 w) (fieldLo12 w) false) :=
  raise_eq_failed .badCommand _ _ _ s

/-- A command word goes to the gate, on the state with the move taken (R214). -/
theorem step_command {s : State} {w : Word} {rest : List HostMove} (h : s.inbox = .command w :: rest) :
    step s = runWord w (s.setInbox rest) := step_move h

/-- An illegal word with no error pending raises BadCommand (R86). -/
theorem runWord_illegal {s : State} {w : Word} {x : DecodeError} (hd : decode w = .error x) (hk : s.err.kind = 0#4) :
    runWord w s = .next (s.failed 8#4 (opcOf w) (fieldHi12 w) (fieldLo12 w) false) := by
  rw [runWord_error hd, s.not_pending_iff.2 hk]
  exact raiseBadCommand_eq_failed w s

/-- An illegal word with an error pending is refused (R213). -/
theorem runWord_illegal_pending {s : State} {w : Word} {x : DecodeError} (hd : decode w = .error x)
    (hk : s.err.kind ≠ 0#4) : runWord w s = .next (s.answered 0xF#4 0#24) := by
  rw [runWord_error hd, if_pos (s.pending_iff.2 hk), refuse_eq_answered]

/-- Settles O38: the step by the gate's two answers to an illegal word, the reserved opcodes by the table's ranges. -/
theorem illegalWordRaisesBadCommand : Obligations.IllegalWordRaisesBadCommand := by
  refine ⟨fun s w rest x hin hd => ?_, fun w hw => ⟨.reservedOpcode, ?_⟩⟩
  · rw [step_command hin]
    exact ⟨fun hk => runWord_illegal hd hk, fun hk => runWord_illegal_pending hd hk⟩
  · rcases hw with rfl | rfl | hrange
    · exact decode_reserved_range (.inl (by decide))
    · exact decode_reserved_range (.inr (.inr (.inr (.inr (by decide)))))
    · exact decode_reserved_range hrange

end Sys2Proof.Machine
end

