-- ==== Sys2Proof/Proofs/Responses.lean ====
section
/-!
How a command ends (R90): it responds, it raises, or the gate refuses it. Each way gives one response word.
-/
namespace Sys2Proof.Machine

/-! ### How a command's pseudocode ends -/

/-- The two ways the pseudocode of a command of opcode `op` can end (R90, R211): it responds, having added no answer and
taken no move of its own, or it raises on the state it started in. BackendMismatch is never raised (R209). -/
inductive CommandEnd (op : Byte) (s : State) : Result → Prop where
  | responds (d : BitVec 24) (t : State) (hreplies : t.replies = s.replies) (hinbox : t.inbox = s.inbox) :
      CommandEnd op s (respond d t)
  | raises (x : ErrorKind) (i0 i1 : BitVec 12) (hx : x ≠ .backendMismatch) : CommandEnd op s (raise x op i0 i1 s)

/-- A raise under a literal opcode, given that the command's word carries it. -/
theorem CommandEnd.raisesAs {op lit : Byte} {s : State} {x : ErrorKind} {i0 i1 : BitVec 12} (hop : op = lit)
    (hx : x ≠ .backendMismatch) : CommandEnd op s (raise x lit i0 i1 s) :=
  hop ▸ .raises x i0 i1 hx

theorem CommandEnd.badCommand (w : Word) (s : State) : CommandEnd (opcOf w) s (raiseBadCommand w s) :=
  .raises .badCommand _ _ (by decide)

theorem CommandEnd.ite {op : Byte} {s : State} {r q : Result} {c : Prop} [Decidable c] (hr : CommandEnd op s r)
    (hq : CommandEnd op s q) : CommandEnd op s (if c then r else q) := by
  split
  · exact hr
  · exact hq

section Ends
variable (s : State)

theorem execGfdiv_end (a b : Byte) : CommandEnd (opcOf (encode (.gfdiv a b))) s (execGfdiv a b s) :=
  .ite (.raisesAs (opcOf_encodeA2 _ a b) (by decide)) (.responds _ s rfl rfl)

theorem execGfinv_end (a : Byte) : CommandEnd (opcOf (encode (.gfinv a))) s (execGfinv a s) :=
  .ite (.raisesAs (opcOf_encodeA1 _ a) (by decide)) (.responds _ s rfl rfl)

theorem execMkenc_end (k m : BitVec 12) : CommandEnd (opcOf (encode (.mkenc k m))) s (execMkenc k m s) :=
  .ite (.responds _ _ rfl rfl) (.raisesAs (opcOf_encodeP _ k m) (by decide))

theorem execMkdec_end : CommandEnd (opcOf (encode .mkdec)) s (execMkdec s) := by
  have hop : opcOf (encode .mkdec) = 0x21#8 := opcOf_encodeZ _
  unfold execMkdec
  split
  · exact .raisesAs hop (by decide)
  · split
    · exact .raisesAs hop (by decide)
    · exact .raisesAs hop (by decide)
    · split
      · exact .raisesAs hop (by decide)
      · exact .responds _ _ rfl rfl

theorem execRdenc_end (a b : Byte) : CommandEnd (opcOf (encode (.rdenc a b))) s (execRdenc a b s) :=
  .ite (.raisesAs (opcOf_encodeA2 _ a b) (by decide)) (.ite (.badCommand _ s) (.responds _ s rfl rfl))

theorem execRddec_end (a b : Byte) : CommandEnd (opcOf (encode (.rddec a b))) s (execRddec a b s) :=
  .ite (.raisesAs (opcOf_encodeA2 _ a b) (by decide)) (.ite (.badCommand _ s) (.responds _ s rfl rfl))

theorem execRdsrv_end (a : Byte) : CommandEnd (opcOf (encode (.rdsrv a))) s (execRdsrv a s) :=
  .ite (.raisesAs (opcOf_encodeA1 _ a) (by decide)) (.ite (.badCommand _ s) (.responds _ s rfl rfl))

theorem execEncode_end (bk : Datapath) : CommandEnd (opcOf (encode (.encode bk))) s (execEncode bk s) := by
  unfold execEncode
  split
  · exact .raisesAs (opcOf_encodeF _ bk) (by decide)
  · split
    · exact .raisesAs (opcOf_encodeF _ bk) (by decide)
    · exact .responds _ _ rfl rfl

theorem execDecode_end (bk : Datapath) : CommandEnd (opcOf (encode (.decode bk))) s (execDecode bk s) := by
  have hop : opcOf (encode (.decode bk)) = 0x31#8 := opcOf_encodeF _ bk
  unfold execDecode
  split
  · exact .raisesAs hop (by decide)
  · split
    · exact .raisesAs hop (by decide)
    · exact .raisesAs hop (by decide)
    · split
      · exact .raisesAs hop (by decide)
      · split
        · exact .raisesAs hop (by decide)
        · exact .responds _ _ rfl rfl

theorem execRderr_end (a : Byte) : CommandEnd (opcOf (encode (.rderr a))) s (execRderr a s) :=
  .ite (.responds _ s rfl rfl) (.ite (.responds _ s rfl rfl) (.badCommand _ s))

theorem execRderas_end (a : Byte) : CommandEnd (opcOf (encode (.rderas a))) s (execRderas a s) :=
  .ite (.responds _ s rfl rfl) (.badCommand _ s)

/-- Every command responds or raises, in every state; the error it records carries its own opcode. -/
theorem exec_end (i : Instr) : CommandEnd (opcOf (encode i)) s (exec i s) := by
  cases i with
  | gfdiv a b => exact execGfdiv_end s a b
  | gfinv a => exact execGfinv_end s a
  | mkenc k m => exact execMkenc_end s k m
  | mkdec => exact execMkdec_end s
  | rdenc a b => exact execRdenc_end s a b
  | rddec a b => exact execRddec_end s a b
  | rdsrv a => exact execRdsrv_end s a
  | encode bk => exact execEncode_end s bk
  | decode bk => exact execDecode_end s bk
  | rderr a => exact execRderr_end s a
  | rderas a => exact execRderas_end s a
  | gfmul | gfpow | setus | erasclr | erasset | erasdel | clrerr | rdstat | sreset | rdus =>
    exact .responds _ _ rfl rfl

/-- A command word is refused, or ends as a command does (R213, R214). -/
theorem runWord_end (w : Word) : runWord w s = refuse s ∨ ∃ op, CommandEnd op s (runWord w s) := by
  cases hd : decode w with
  | ok i =>
    rw [runWord_ok hd]
    split
    · exact .inl rfl
    · exact .inr ⟨_, exec_end s i⟩
  | error x =>
    rw [runWord_error hd]
    split
    · exact .inl rfl
    · exact .inr ⟨_, .badCommand w s⟩

/-! ### The response word of each end -/

/-- The codes the CORE records: those of R200 but 6 (R209), so that no failure looks like a success or a refusal. -/
theorem errorCode_mem {x : ErrorKind} (hx : x ≠ .backendMismatch) :
    errorCode x ∈ [1#4, 2#4, 3#4, 4#4, 5#4, 7#4, 8#4] := by
  cases x with
  | backendMismatch => exact absurd rfl hx
  | divisionByZero | invalidParameters | singularMatrix | inconsistentErasureSet | unregisteredBuffer | matrixNotValid
  | badCommand => decide

/-- What R90 says of the response word `r` given on the way from `s`, the state with the move taken, to `t`. -/
def ResponseForm (s t : State) (r : Word) : Prop :=
  t.replies = s.replies ++ [.response r] ∧ r.extractLsb' 24 4 = 0#4 ∧
    r.extractLsb' 28 4 ∈ [0x0#4, 0x1#4, 0x2#4, 0x3#4, 0x4#4, 0x5#4, 0x7#4, 0x8#4, 0xF#4] ∧
    (r.extractLsb' 28 4 ≠ 0x0#4 → r.extractLsb' 0 24 = 0#24) ∧
    (r.extractLsb' 28 4 = 0xF#4 → t = { s with replies := t.replies }) ∧
    (r.extractLsb' 28 4 ≠ 0x0#4 → r.extractLsb' 28 4 ≠ 0xF#4 → t.err.kind = r.extractLsb' 28 4 ∧
      t = { s with err := t.err, halt := t.halt, replies := t.replies })

/-- A refusal has status F and changes nothing but the transcript (R213). -/
theorem refuse_responseForm :
    ResponseForm s (s.reply (.response (responseWord 0xF#4 0#24))) (responseWord 0xF#4 0#24) := by
  obtain ⟨hst, hzero, hdata⟩ := responseWord_fields 0xF#4 0#24
  exact ⟨rfl, hzero, by rw [hst]; decide, fun _ => hdata, fun _ => rfl, fun _ hne => absurd hst hne⟩

/-- A success has status 0 (R90). -/
theorem respond_responseForm {s t : State} (hreplies : t.replies = s.replies) (d : BitVec 24) :
    ResponseForm s (t.reply (.response (responseWord 0x0#4 d))) (responseWord 0x0#4 d) := by
  obtain ⟨hst, hzero, -⟩ := responseWord_fields 0x0#4 d
  refine ⟨by rw [State.reply_replies, hreplies], hzero, by rw [hst]; decide, fun hne => absurd hst hne, fun hF => ?_,
    fun hne => absurd hst hne⟩
  rw [hst] at hF
  exact absurd hF (by decide)

/-- A failure has the code of its kind as status, no data, and writes ERR and HALT alone (R211). -/
theorem raise_responseForm {x : ErrorKind} (hx : x ≠ .backendMismatch) (op : Byte) (i0 i1 : BitVec 12) :
    ResponseForm s ((s.recordError x op i0 i1).reply (.response (responseWord (errorCode x) 0#24)))
      (responseWord (errorCode x) 0#24) := by
  obtain ⟨hst, hzero, hdata⟩ := responseWord_fields (errorCode x) 0#24
  have hmem := errorCode_mem hx
  refine ⟨rfl, hzero, ?_, fun _ => hdata, fun hF => ?_, fun _ _ => ⟨hst.symm, rfl⟩⟩
  · rw [hst]
    simp only [List.mem_cons] at hmem ⊢
    tauto
  · rw [← hst, hF] at hmem
    exact absurd hmem (by decide)

/-- Every command word is answered by one response word of the form of R90. -/
theorem runWord_responseForm {s t : State} {w : Word} (h : runWord w s = .next t) : ∃ r, ResponseForm s t r := by
  rcases runWord_end s w with hrefuse | ⟨op, hend⟩
  · cases hrefuse.symm.trans h
    exact ⟨_, refuse_responseForm s⟩
  · rw [h] at hend
    cases hend with
    | responds d u hreplies hinbox => exact ⟨_, respond_responseForm hreplies d⟩
    | raises x i0 i1 hx => exact ⟨_, raise_responseForm s hx op i0 i1⟩

end Ends

/-- Settles O42: the three ways a command word ends, each with its response word. -/
theorem responseWordForm : Obligations.ResponseWordForm := fun s _ _ rest hin hstep =>
  runWord_responseForm (s := s.setInbox rest) ((step_command hin).symm.trans hstep)

end Sys2Proof.Machine
end

