-- ==== Sys2Proof/Proofs/FieldProduct.lean ====
section
/-!
The field product as polynomials (R100 to R103): the loop of R103 runs in the ring of polynomials modulo GF_POLY, where
each byte has a residue of its own.
-/
namespace Sys2Proof.Machine
open Polynomial

/-! ### Bytes as polynomials (R100) -/

/-- The coefficients of a byte's polynomial are its bits. -/
theorem bytePoly_coeff (a : Byte) (i : Nat) : (bytePoly a).coeff i = if a.getLsbD i then 1 else 0 := by
  have hterm (j : Nat) : (if a.getLsbD j then X ^ j else 0 : (ZMod 2)[X]).coeff i =
      if i = j then (if a.getLsbD i then 1 else 0) else 0 := by
    split_ifs <;> simp_all [coeff_X_pow]
  rw [bytePoly, finsetSum_coeff, Finset.sum_congr rfl fun j _ => hterm j, Finset.sum_ite_eq]
  split
  · rfl
  · next hi => simp [BitVec.getLsbD_of_ge a i (by simpa using hi)]

@[simp] theorem bytePoly_zero : bytePoly 0#8 = 0 := by
  ext i
  simp [bytePoly_coeff]

/-- Bit 0 alone is the polynomial 1 (R100). -/
@[simp] theorem bytePoly_one : bytePoly 1#8 = 1 := by
  simp [bytePoly]

/-- The exclusive-or of bytes is the sum of their polynomials (R102). -/
theorem bytePoly_xor (a b : Byte) : bytePoly (a ^^^ b) = bytePoly a + bytePoly b := by
  ext i
  rw [coeff_add, bytePoly_coeff, bytePoly_coeff, bytePoly_coeff, BitVec.getLsbD_xor]
  cases a.getLsbD i <;> cases b.getLsbD i <;> decide

/-- Shifting a byte left multiplies its polynomial by x, but for the term that bit 7 would become. -/
theorem bytePoly_shiftLeft_one (a : Byte) :
    bytePoly (a <<< 1) + (if a.getLsbD 7 then X ^ 8 else 0) = bytePoly a * X := by
  simp [bytePoly, Finset.sum_range_succ, add_mul, ite_mul, ← pow_succ, ← sq]

theorem bytePoly_degree_lt (a : Byte) : (bytePoly a).degree < (8 : Nat) :=
  (degree_lt_iff_coeff_zero _ _).2 fun i hi => by simp [bytePoly_coeff, BitVec.getLsbD_of_ge a i hi]

theorem bytePoly_injective : Function.Injective bytePoly := fun a b h =>
  BitVec.eq_of_getLsbD_eq fun i _ => by
    have hbit := congrArg (fun p => p.coeff i) h
    simp only [bytePoly_coeff] at hbit
    cases ha : a.getLsbD i <;> cases hb : b.getLsbD i <;> simp_all

/-! ### GF_POLY (R101) -/

/-- GF_POLY is x^8 and the low byte the loop of R103 subtracts. -/
theorem gfPoly_eq : gfPoly = X ^ 8 + bytePoly Config.gfPolyLow := by
  have hlow : bytePoly Config.gfPolyLow = 1 + X ^ 2 + X ^ 3 + X ^ 4 := by
    simp [bytePoly, Config.gfPolyLow, Finset.sum_range_succ]
  rw [gfPoly, hlow]
  ring

theorem gfPoly_monic : gfPoly.Monic :=
  gfPoly_eq ▸ monic_X_pow_add (bytePoly_degree_lt _)

theorem gfPoly_degree : gfPoly.degree = (8 : Nat) := by
  have hlow : (bytePoly Config.gfPolyLow).degree < (X ^ 8 : (ZMod 2)[X]).degree :=
    degree_X_pow (R := ZMod 2) 8 ▸ bytePoly_degree_lt _
  rw [gfPoly_eq, degree_add_eq_left_of_degree_lt hlow, degree_X_pow]

/-- A byte's polynomial is reduced: its degree is below that of GF_POLY. -/
theorem bytePoly_modByMonic (a : Byte) : bytePoly a %ₘ gfPoly = bytePoly a :=
  (modByMonic_eq_self_iff gfPoly_monic).2 (gfPoly_degree ▸ bytePoly_degree_lt a)

/-! ### Bytes as residues modulo GF_POLY -/

/-- The residue of a byte's polynomial modulo GF_POLY. -/
noncomputable def gfElem (a : Byte) : AdjoinRoot gfPoly := AdjoinRoot.mk gfPoly (bytePoly a)

/-- Two polynomials with the same residue have the same remainder. -/
theorem modByMonic_gfPoly_eq_of_mk_eq {p q : (ZMod 2)[X]} (h : AdjoinRoot.mk gfPoly p = AdjoinRoot.mk gfPoly q) :
    p %ₘ gfPoly = q %ₘ gfPoly := by
  simpa using congrArg (AdjoinRoot.modByMonicHom gfPoly_monic) h

theorem gfElem_injective : Function.Injective gfElem := fun a b h => by
  have hmod := modByMonic_gfPoly_eq_of_mk_eq h
  rw [bytePoly_modByMonic, bytePoly_modByMonic] at hmod
  exact bytePoly_injective hmod

theorem gfElem_inj {a b : Byte} : gfElem a = gfElem b ↔ a = b := gfElem_injective.eq_iff

@[simp] theorem gfElem_zero : gfElem 0#8 = 0 := by simp [gfElem]

@[simp] theorem gfElem_one : gfElem 1#8 = 1 := by simp [gfElem]

@[simp] theorem gfElem_xor (a b : Byte) : gfElem (a ^^^ b) = gfElem a + gfElem b := by
  simp [gfElem, bytePoly_xor]

/-- In the residues x^8 is the low byte of GF_POLY. -/
theorem gfElem_gfPolyLow : gfElem Config.gfPolyLow = AdjoinRoot.root gfPoly ^ 8 := by
  rw [gfElem, ← AdjoinRoot.mk_X, ← map_pow, AdjoinRoot.mk_eq_mk, CharTwo.sub_eq_add, add_comm, ← gfPoly_eq]

/-- The loop body of R103 multiplies by x. -/
theorem gfElem_xtime (a : Byte) : gfElem (xtime a) = gfElem a * AdjoinRoot.root gfPoly := by
  have h : gfElem (a <<< 1) + (if a.getLsbD 7 then AdjoinRoot.root gfPoly ^ 8 else 0) =
      gfElem a * AdjoinRoot.root gfPoly := by
    simpa [gfElem, apply_ite (AdjoinRoot.mk gfPoly)] using congrArg (AdjoinRoot.mk gfPoly) (bytePoly_shiftLeft_one a)
  rw [xtime, ← h]
  split
  · rw [gfElem_xor, gfElem_gfPolyLow]
  · rw [add_zero]

/-! ### The multiplier (R103) -/

/-- What `n` more iterations from bit `i` on add to the sum: the product of `a` and bits `i` to `i + n - 1` of `b`. -/
theorem gfElem_gfMulLoop (b : Byte) (n i : Nat) (a p : Byte) :
    gfElem (gfMulLoop b n i a p) =
      gfElem p + gfElem a * ∑ j ∈ Finset.range n, if b.getLsbD (i + j) then AdjoinRoot.root gfPoly ^ j else 0 := by
  induction n generalizing i a p with
  | zero => simp [gfMulLoop]
  | succ n ih =>
    have hp : gfElem (if b.getLsbD i then p ^^^ a else p) = gfElem p + gfElem a * if b.getLsbD i then 1 else 0 := by
      split <;> simp
    have hrest : AdjoinRoot.root gfPoly *
          (∑ j ∈ Finset.range n, if b.getLsbD (i + 1 + j) then AdjoinRoot.root gfPoly ^ j else 0) =
        ∑ j ∈ Finset.range n, if b.getLsbD (i + (j + 1)) then AdjoinRoot.root gfPoly ^ (j + 1) else 0 := by
      simp only [Finset.mul_sum, mul_ite, mul_zero, ← pow_succ', Nat.add_assoc, Nat.add_comm 1]
    rw [gfMulLoop, ih, hp, gfElem_xtime, mul_assoc, hrest, Finset.sum_range_succ']
    simp only [Nat.add_zero, pow_zero]
    ring

/-- A byte's residue, bit by bit. -/
theorem gfElem_eq_sum (b : Byte) :
    gfElem b = ∑ j ∈ Finset.range 8, if b.getLsbD j then AdjoinRoot.root gfPoly ^ j else 0 := by
  simp [gfElem, bytePoly, apply_ite (AdjoinRoot.mk gfPoly)]

/-- The multiplier multiplies residues. -/
@[simp] theorem gfElem_gfMul (a b : Byte) : gfElem (gfMul a b) = gfElem a * gfElem b := by
  rw [gfMul, gfElem_gfMulLoop, gfElem_zero, zero_add, gfElem_eq_sum b]
  simp only [Nat.zero_add]

theorem gfMul_comm (a b : Byte) : gfMul a b = gfMul b a :=
  gfElem_injective (by rw [gfElem_gfMul, gfElem_gfMul, mul_comm])

theorem gfMul_assoc (a b c : Byte) : gfMul (gfMul a b) c = gfMul a (gfMul b c) :=
  gfElem_injective (by rw [gfElem_gfMul, gfElem_gfMul, gfElem_gfMul, gfElem_gfMul, mul_assoc])

@[simp] theorem gfMul_one (a : Byte) : gfMul a 1#8 = a :=
  gfElem_injective (by rw [gfElem_gfMul, gfElem_one, mul_one])

/-- Settles O1: the multiplier multiplies residues, and a byte's polynomial is the reduced one of its residue. -/
theorem gfMulIsPolynomialProduct : Obligations.GfMulIsPolynomialProduct := fun a b => by
  rw [← bytePoly_modByMonic (gfMul a b)]
  exact modByMonic_gfPoly_eq_of_mk_eq ((gfElem_gfMul a b).trans (map_mul _ _ _).symm)

end Sys2Proof.Machine
end

