-- ==== Sys2Proof/Proofs/FieldPowers.lean ====
section
/-!
Powers and inverses in the field (R105, R107). The element 0x02 has order 255 (R101), and there are 255 nonzero bytes: so
each of them is a power of 0x02, and its own 255th power is 1.
-/
namespace Sys2Proof.Machine

/-! ### Powers as residues -/

@[simp] theorem gfElem_gfPow (a : Byte) (n : Nat) : gfElem (gfPow a n) = gfElem a ^ n := by
  induction n with
  | zero => rw [gfPow, gfElem_one, pow_zero]
  | succ n ih => rw [gfPow, gfElem_gfMul, ih, pow_succ]

/-- The squares and products of gf_inv make the 254th power (R105). -/
theorem gfInv_eq_gfPow (a : Byte) : gfInv a = gfPow a 254 := by
  apply gfElem_injective
  simp only [gfInv, gfElem_gfMul, gfElem_gfPow]
  ring

@[simp] theorem gfElem_gfInv (a : Byte) : gfElem (gfInv a) = gfElem a ^ 254 := by
  rw [gfInv_eq_gfPow, gfElem_gfPow]

/-! ### The generator 0x02 (R101) -/

theorem gfPow_two_255 : gfPow 0x02#8 255 = 0x01#8 := by decide +kernel

/-- The exponents are 255 divided by each of its prime factors. -/
theorem gfPow_two_ne_one : ∀ p ∈ [3, 5, 17], gfPow 0x02#8 (255 / p) ≠ 0x01#8 := by decide +kernel

theorem gfElem_two_pow_255 : gfElem 0x02#8 ^ 255 = 1 := by
  rw [← gfElem_gfPow, gfPow_two_255, gfElem_one]

theorem orderOf_gfElem_two : orderOf (gfElem 0x02#8) = 255 := by
  refine orderOf_eq_of_pow_and_pow_div_prime (by decide) gfElem_two_pow_255 fun p hp hdvd => ?_
  have hfactor : p ∈ [3, 5, 17] := by
    have hmem : p ∈ Nat.primeFactorsList (3 * 5 * 17) := (Nat.mem_primeFactorsList (by decide)).2 ⟨hp, hdvd⟩
    simpa using hmem
  rw [← gfElem_gfPow, ← gfElem_one, gfElem_inj.ne]
  exact gfPow_two_ne_one p hfactor

/-- The first 255 powers of 0x02 are distinct. -/
theorem gfPow_two_injOn : Set.InjOn (gfPow 0x02#8) (Set.Iio 255) := fun m hm n hn h => by
  rw [← orderOf_gfElem_two] at hm hn
  exact pow_injOn_Iio_orderOf hm hn (by simpa using congrArg gfElem h)

/-- A power of 0x02 is nonzero: its own 255th power is 1. -/
theorem gfPow_two_ne_zero (n : Nat) : gfPow 0x02#8 n ≠ 0x00#8 := fun h => by
  have hzero : gfElem 0x02#8 ^ n = 0 := by rw [← gfElem_gfPow, h, gfElem_zero]
  have hone : gfElem 0x00#8 = gfElem 0x01#8 := by
    calc gfElem 0x00#8 = (gfElem 0x02#8 ^ n) ^ 255 := by rw [hzero, gfElem_zero, zero_pow (by decide)]
      _ = (gfElem 0x02#8 ^ 255) ^ n := pow_right_comm _ n 255
      _ = gfElem 0x01#8 := by rw [gfElem_two_pow_255, one_pow, gfElem_one]
  exact absurd (gfElem_injective hone) (by decide)

/-- Every nonzero byte is one of the first 255 powers of 0x02, which are as many as the nonzero bytes. -/
theorem exists_gfPow_two_eq {a : Byte} (ha : a ≠ 0x00#8) : ∃ n < 255, gfPow 0x02#8 n = a := by
  have hpos {b : Byte} (hb : b ≠ 0x00#8) : b.toNat ∈ Finset.Ico 1 256 :=
    Finset.mem_Ico.2 ⟨Nat.pos_of_ne_zero fun h => hb (BitVec.eq_of_toNat_eq h), b.isLt⟩
  have hsurj : Set.SurjOn (fun n => (gfPow 0x02#8 n).toNat) (Finset.range 255) (Finset.Ico 1 256) := by
    refine Finset.surjOn_of_injOn_of_card_le _ (fun n _ => hpos (gfPow_two_ne_zero n)) (fun m hm n hn h => ?_) (by simp)
    exact gfPow_two_injOn (by simpa using hm) (by simpa using hn) (BitVec.eq_of_toNat_eq h)
  obtain ⟨n, hn, heq⟩ := hsurj (hpos ha)
  exact ⟨n, by simpa using hn, BitVec.eq_of_toNat_eq heq⟩

/-- Every nonzero byte has 1 as its 255th power, since 0x02 has and the byte is a power of 0x02. -/
theorem gfElem_pow_255 {a : Byte} (ha : a ≠ 0x00#8) : gfElem a ^ 255 = 1 := by
  obtain ⟨n, -, rfl⟩ := exists_gfPow_two_eq ha
  rw [gfElem_gfPow, pow_right_comm, gfElem_two_pow_255, one_pow]

/-! ### Inverses and quotients (R105, R106) -/

theorem gfMul_gfInv {a : Byte} (ha : a ≠ 0x00#8) : gfMul a (gfInv a) = 0x01#8 := by
  apply gfElem_injective
  rw [gfElem_gfMul, gfElem_gfInv, ← pow_succ', gfElem_pow_255 ha, gfElem_one]

/-- The one byte whose product with a nonzero divisor is the dividend. -/
theorem gfMul_eq_iff_eq_gfMul_gfInv {b : Byte} (hb : b ≠ 0x00#8) (a x : Byte) :
    gfMul x b = a ↔ x = gfMul a (gfInv b) := by
  constructor
  · rintro rfl
    rw [gfMul_assoc, gfMul_gfInv hb, gfMul_one]
  · rintro rfl
    rw [gfMul_assoc, gfMul_comm (gfInv b), gfMul_gfInv hb, gfMul_one]

/-- The one byte whose product with a nonzero byte is 1: the quotient of 1 by it. -/
theorem gfMul_eq_one_iff {a : Byte} (ha : a ≠ 0x00#8) (d : Byte) : gfMul a d = 0x01#8 ↔ d = gfInv a := by
  rw [gfMul_comm, gfMul_eq_iff_eq_gfMul_gfInv ha, gfMul_comm, gfMul_one]

theorem gfInv_one : gfInv 0x01#8 = 0x01#8 :=
  ((gfMul_eq_one_iff (by decide) _).1 (gfMul_one _)).symm

/-- Inverting twice is the power 254 × 254, and 254 × 254 mod 255 = 1. -/
theorem gfInv_gfInv {a : Byte} (ha : a ≠ 0x00#8) : gfInv (gfInv a) = a := by
  apply gfElem_injective
  rw [gfElem_gfInv, gfElem_gfInv, ← pow_mul, pow_eq_pow_mod _ (gfElem_pow_255 ha),
    show 254 * 254 % 255 = 1 from rfl, pow_one]

/-! ### Powers (R107) -/

theorem gfPow_zero_of_pos {n : Nat} (hn : 1 ≤ n) : gfPow 0x00#8 n = 0x00#8 := by
  apply gfElem_injective
  rw [gfElem_gfPow, gfElem_zero, zero_pow (by omega)]

theorem gfPow_mod_255 {a : Byte} (ha : a ≠ 0x00#8) (n : Nat) : gfPow a n = gfPow a (n % 255) := by
  apply gfElem_injective
  rw [gfElem_gfPow, gfElem_gfPow, ← pow_eq_pow_mod n (gfElem_pow_255 ha)]

/-- Settles O4: the recursion by definition, the period by the order of the multiplicative group. -/
theorem gfPowLaws : Obligations.GfPowLaws := fun _ n =>
  ⟨rfl, rfl, gfPow_zero_of_pos, fun ha => gfPow_mod_255 ha n⟩

end Sys2Proof.Machine
end

