-- ==== Sys2Proof/Proofs/ArithmeticCommands.lean ====
section
/-!
GFMUL, GFDIV, GFINV and GFPOW (R110 to R113): their words, and how each ends.
-/
namespace Sys2Proof.Machine

/-! ### Words of formats A1 and A2 (R82) -/

theorem decodeA1_encodeA1 (o a : Byte) (f : Byte → Instr) : decodeA1 (encodeA1 o a) f = .ok (f a) := by
  have hrz : (encodeA1 o a).extractLsb' 0 16 = 0#16 := by
    apply BitVec.eq_of_toNat_eq
    rw [BitVec.extractLsb'_toNat, encodeA1_toNat]
    simp
  rw [decodeA1, if_pos hrz, fieldA_encodeA1]

theorem decodeA2_encodeA2 (o a b : Byte) (f : Byte → Byte → Instr) : decodeA2 (encodeA2 o a b) f = .ok (f a b) := by
  have hrz : (encodeA2 o a b).extractLsb' 0 8 = 0#8 := by
    apply BitVec.eq_of_toNat_eq
    rw [BitVec.extractLsb'_toNat, encodeA2_toNat]
    simp
  rw [decodeA2, if_pos hrz, fieldA_encodeA2, fieldB_encodeA2]

theorem decode_gfmul (a b : Byte) : decode (encode (.gfmul a b)) = .ok (.gfmul a b) := by
  rw [encode, decode, opcOf_encodeA2]
  exact decodeA2_encodeA2 _ a b _

theorem decode_gfdiv (a b : Byte) : decode (encode (.gfdiv a b)) = .ok (.gfdiv a b) := by
  rw [encode, decode, opcOf_encodeA2]
  exact decodeA2_encodeA2 _ a b _

theorem decode_gfinv (a : Byte) : decode (encode (.gfinv a)) = .ok (.gfinv a) := by
  rw [encode, decode, opcOf_encodeA1]
  exact decodeA1_encodeA1 _ a _

theorem decode_gfpow (a b : Byte) : decode (encode (.gfpow a b)) = .ok (.gfpow a b) := by
  rw [encode, decode, opcOf_encodeA2]
  exact decodeA2_encodeA2 _ a b _

/-! ### The operands and results as the claims write them (R9) -/

theorem zext24_eq_append (a : Byte) : zext24 a = 0#16 ++ a := BitVec.setWidth_eq_append (by decide)

theorem zext12_eq_append (a : Byte) : zext12 a = 0#4 ++ a := BitVec.setWidth_eq_append (by decide)

/-- A command whose result is the byte `d` completes with it in data[7:0] (R90). -/
theorem respond_zext24 (d : Byte) (s : State) : respond (zext24 d) s = .next (s.answered 0x0#4 (0#16 ++ d)) := by
  rw [zext24_eq_append, respond_eq_answered]

/-! ### How each command ends -/

theorem exec_gfmul (a b : Byte) (s : State) : exec (.gfmul a b) s = .next (s.answered 0x0#4 (0#16 ++ gfMul a b)) :=
  respond_zext24 _ s

theorem exec_gfpow (a b : Byte) (s : State) :
    exec (.gfpow a b) s = .next (s.answered 0x0#4 (0#16 ++ gfPow a b.toNat)) :=
  respond_zext24 _ s

theorem exec_gfdiv {b : Byte} (hb : b ≠ 0x00#8) (a : Byte) (s : State) :
    exec (.gfdiv a b) s = .next (s.answered 0x0#4 (0#16 ++ gfMul a (gfInv b))) :=
  (if_neg hb).trans (respond_zext24 _ s)

theorem exec_gfdiv_zero (a : Byte) (s : State) :
    exec (.gfdiv a 0x00#8) s = .next (s.failed 1#4 0x11#8 (0#4 ++ a) 0x000#12 true) := by
  rw [← zext12_eq_append]
  exact raise_eq_failed .divisionByZero _ _ _ s

theorem exec_gfinv {a : Byte} (ha : a ≠ 0x00#8) (s : State) :
    exec (.gfinv a) s = .next (s.answered 0x0#4 (0#16 ++ gfInv a)) :=
  (if_neg ha).trans (respond_zext24 _ s)

theorem exec_gfinv_zero (s : State) :
    exec (.gfinv 0x00#8) s = .next (s.failed 1#4 0x12#8 0x000#12 0x000#12 true) :=
  raise_eq_failed .divisionByZero _ _ _ s

/-! ### The claims -/

/-- Settles O3: the quotient of 1 is unique, gf_inv is the 254th power, and 0 has no answer but the error. -/
theorem gfInvIsTheInverse : Obligations.GfInvIsTheInverse :=
  ⟨fun a ha => ⟨gfMul_eq_one_iff ha, gfInv_eq_gfPow a, gfInv_gfInv ha⟩, gfInv_one, exec_gfinv_zero⟩

/-- Settles O6: neither command has a failing branch. -/
theorem gfmulGfpowComplete : Obligations.GfmulGfpowComplete := fun a b s =>
  ⟨decode_gfmul a b, exec_gfmul a b s, decode_gfpow a b, exec_gfpow a b s⟩

/-- Settles O7: the quotient is the one of the field, and the zero test comes before it. -/
theorem gfdivDividesOrFails : Obligations.GfdivDividesOrFails := fun a b s =>
  ⟨decode_gfdiv a b,
    fun hb => ⟨gfMul a (gfInv b), gfMul_eq_iff_eq_gfMul_gfInv hb a, rfl, exec_gfdiv hb a s⟩,
    fun hb => hb ▸ exec_gfdiv_zero a s⟩

/-- Settles O8: the inverse is the one of the field, and the zero test comes before it. -/
theorem gfinvInvertsOrFails : Obligations.GfinvInvertsOrFails := fun a s =>
  ⟨decode_gfinv a, fun ha => ⟨gfInv a, gfMul_gfInv ha, exec_gfinv ha s⟩, fun ha => ha ▸ exec_gfinv_zero s⟩

end Sys2Proof.Machine
end

