-- ==== Sys2Proof/Proofs/ErasureSet.lean ====
section
/-!
The erasure set (R12): its size, what eras_check answers for it (R130), and the survivors it leaves (R126).
-/
namespace Sys2Proof.Machine

/-! ### Counting units -/

theorem countP_range_eq_card (p : Nat → Bool) (n : Nat) :
    (List.range n).countP p = ((Finset.range n).filter fun u => p u = true).card := by
  simp [List.countP_eq_length_filter, Finset.card, Finset.range, Multiset.range]

/-- |E| as a cardinality (R12). -/
theorem erasCount_eq_card (e : BitVec 256) :
    erasCount e = ((Finset.range 256).filter fun u => e.getLsbD u = true).card :=
  countP_range_eq_card _ 256

/-- No range of unit indices holds more than |E| erased ones. -/
theorem countP_range_le_erasCount (e : BitVec 256) (n : Nat) :
    (List.range n).countP (fun u => e.getLsbD u) ≤ erasCount e := by
  rw [countP_range_eq_card, erasCount_eq_card]
  refine Finset.card_le_card fun u hu => ?_
  have herased := (Finset.mem_filter.1 hu).2
  exact Finset.mem_filter.2 ⟨Finset.mem_range.2 (BitVec.lt_of_getLsbD herased), herased⟩

section Answers
variable {k m : Nat} {e : BitVec 256}

/-! ### eras_check (R130) -/

theorem erasCheck_eq_outOfRange_iff {u : Nat} :
    erasCheck k m e = .outOfRange u ↔
      u < 256 ∧ e.getLsbD u = true ∧ k + m ≤ u ∧ ∀ v < u, e.getLsbD v = true → v < k + m := by
  rcases erasCheck_cases k m e with ⟨u', h, hlt, herased, hout, hlow⟩ | ⟨h, -, hall⟩ | ⟨h, -, hall⟩
  · rw [h, ErasCheck.outOfRange.injEq]
    constructor
    · rintro rfl
      exact ⟨hlt, herased, hout, hlow⟩
    · rintro ⟨-, herased', hout', hlow'⟩
      rcases Nat.lt_trichotomy u' u with hlt' | heq | hgt'
      · exact absurd (hlow' u' hlt' herased) (by omega)
      · exact heq
      · exact absurd (hlow u hgt' herased') (by omega)
  all_goals
    rw [h]
    exact ⟨nofun, fun ⟨hlt, herased, hout, _⟩ => absurd (hall u hlt herased) (by omega)⟩

theorem erasCheck_eq_tooMany_iff {n : Nat} :
    erasCheck k m e = .tooMany n ↔
      (∀ v < 256, e.getLsbD v = true → v < k + m) ∧ n = erasCount e ∧ m < n := by
  rcases erasCheck_cases k m e with ⟨u, h, hlt, herased, hout, -⟩ | ⟨h, hm, hall⟩ | ⟨h, hm, -⟩
  · rw [h]
    exact ⟨nofun, fun ⟨hall, _⟩ => absurd (hall u hlt herased) (by omega)⟩
  · rw [h, ErasCheck.tooMany.injEq]
    constructor
    · rintro rfl
      exact ⟨hall, rfl, hm⟩
    · rintro ⟨-, rfl, -⟩
      rfl
  · rw [h]
    exact ⟨nofun, fun ⟨_, hn, hmn⟩ => by omega⟩

theorem erasCheck_eq_ok_iff :
    erasCheck k m e = .ok ↔ (∀ v < 256, e.getLsbD v = true → v < k + m) ∧ erasCount e ≤ m := by
  rcases erasCheck_cases k m e with ⟨u, h, hlt, herased, hout, -⟩ | ⟨h, hm, -⟩ | ⟨h, hm, hall⟩
  · rw [h]
    exact ⟨nofun, fun ⟨hall, _⟩ => absurd (hall u hlt herased) (by omega)⟩
  · rw [h]
    exact ⟨nofun, fun ⟨_, hle⟩ => by omega⟩
  · exact ⟨fun _ => ⟨hall, hm⟩, fun _ => h⟩

/-! ### The survivors (R126) -/

/-- The first elements of an ascending list are its lowest. -/
theorem mem_take_of_lt {l : List Nat} (hl : l.Pairwise (· < ·)) {n u v : Nat} (hu : u ∈ l.take n) (hv : v ∈ l)
    (hlt : v < u) : v ∈ l.take n := by
  rw [← List.take_append_drop n l] at hl hv
  obtain ⟨-, -, hcross⟩ := List.pairwise_append.1 hl
  rcases List.mem_append.1 hv with hfirst | hrest
  · exact hfirst
  · have := hcross u hu v hrest
    omega

theorem survivors_pairwise_lt (k m : Nat) (e : BitVec 256) : (survivors k m e).Pairwise (· < ·) :=
  (List.pairwise_lt_range.filter _).sublist (List.take_sublist k _)

theorem mem_survivors {u : Nat} (hu : u ∈ survivors k m e) : u < k + m ∧ e.getLsbD u = false := by
  simpa using List.mem_of_mem_take hu

/-- A unit not in E below a survivor is a survivor: the list holds the lowest ones. -/
theorem mem_survivors_of_lt {u v : Nat} (hu : u ∈ survivors k m e) (hlt : v < u) (hv : e.getLsbD v = false) :
    v ∈ survivors k m e := by
  have hrange : v < k + m := hlt.trans (mem_survivors hu).1
  exact mem_take_of_lt (List.pairwise_lt_range.filter _) hu (by simp [hrange, hv]) hlt

/-- With at most M units erased, K of the K + M are left. -/
theorem survivors_length (h : erasCount e ≤ m) : (survivors k m e).length = k := by
  have hsplit : (List.range (k + m)).length = _ :=
    List.length_eq_countP_add_countP (fun u => e.getLsbD u) (l := List.range (k + m))
  have herased := countP_range_le_erasCount e (k + m)
  rw [survivors, List.length_take, ← List.countP_eq_length_filter]
  simp only [List.length_range, Bool.not_eq_true, Bool.decide_eq_false] at hsplit
  omega

end Answers

/-! ### The claims -/

/-- Settles O13: at most M erased leave K survivors, and the first K of an ascending list are its lowest. -/
theorem survivorsAreTheLowest : Obligations.SurvivorsAreTheLowest := fun k m e hok =>
  ⟨survivors_length (erasCheck_eq_ok_iff.1 hok).2, survivors_pairwise_lt k m e,
    fun _ hu => ⟨(mem_survivors hu).1, (mem_survivors hu).2, fun _ hlt hv => mem_survivors_of_lt hu hlt hv⟩⟩

/-- Settles O16: each answer by its own equivalence. -/
theorem erasCheckAnswers : Obligations.ErasCheckAnswers := by
  intro k m e
  rw [← erasCount_eq_card]
  exact ⟨fun _ => erasCheck_eq_outOfRange_iff, fun _ => erasCheck_eq_tooMany_iff, erasCheck_eq_ok_iff⟩

end Sys2Proof.Machine
end

