-- ==== Sys2Proof/Proofs/EncodeMatrix.lean ====
section
/-!
The encode matrix (R121, R123): the Cauchy sequences, and every entry of the matrix MKENC builds from them.
-/
namespace Sys2Proof.Machine

/-! ### The Cauchy sequences (R121) -/

/-- Bytes tell the numbers below 256 apart. -/
theorem ofNat_byte_inj {i j : Nat} (hi : i < 256) (hj : j < 256) (h : BitVec.ofNat 8 i = BitVec.ofNat 8 j) : i = j := by
  have hnat := congrArg BitVec.toNat h
  simp only [BitVec.toNat_ofNat] at hnat
  omega

/-- Distinct numbers below 256 have a nonzero difference in the field. -/
theorem ofNat_byte_xor_ne_zero {i j : Nat} (hi : i < 256) (hj : j < 256) (hne : i ≠ j) :
    BitVec.ofNat 8 i ^^^ BitVec.ofNat 8 j ≠ 0x00#8 := fun h =>
  hne (ofNat_byte_inj hi hj (BitVec.xor_eq_zero_iff.1 h))

/-! ### The matrix (R123) -/

/-- Its first K rows are the identity. -/
theorem matGet_buildEncodeMatrix_data {k i j : Nat} (m : Nat) (hi : i < k) (hj : j < k) :
    matGet (buildEncodeMatrix k m) i j = if i = j then 0x01#8 else 0x00#8 := by
  rw [matGet_buildEncodeMatrix, if_pos ⟨by omega, hj⟩, if_pos hi]

/-- Below them stand the inverses of i ⊕ j. -/
theorem matGet_buildEncodeMatrix_parity {k m i j : Nat} (hki : k ≤ i) (hi : i < k + m) (hj : j < k) :
    matGet (buildEncodeMatrix k m) i j = gfInv (BitVec.ofNat 8 i ^^^ BitVec.ofNat 8 j) := by
  rw [matGet_buildEncodeMatrix, if_pos ⟨hi, hj⟩, if_neg (by omega), Config.cauchyX, Config.cauchyY, gfAdd]

theorem buildEncodeMatrix_row_length {k m : Nat} {row : List Byte} (h : row ∈ buildEncodeMatrix k m) :
    row.length = k := by
  obtain ⟨i, -, rfl⟩ := List.mem_map.1 h
  simp

@[simp] theorem gfMul_zero (a : Byte) : gfMul a 0x00#8 = 0x00#8 :=
  gfElem_injective (by rw [gfElem_gfMul, gfElem_zero, mul_zero])

/-- The inverse of a nonzero byte is nonzero: their product is 1. -/
theorem gfInv_ne_zero {a : Byte} (ha : a ≠ 0x00#8) : gfInv a ≠ 0x00#8 := fun h => by
  have hone := gfMul_gfInv ha
  rw [h, gfMul_zero] at hone
  exact absurd hone (by decide)

/-- Settles O11: K + M ≤ 256 keeps the sequences apart, so that each parity entry inverts a nonzero byte. -/
theorem encodeMatrixEntries : Obligations.EncodeMatrixEntries := by
  intro k m _ _ hkm
  refine ⟨buildEncodeMatrix_length k m, fun _ hrow => buildEncodeMatrix_row_length hrow,
    fun _ hi _ hj => matGet_buildEncodeMatrix_data m hi hj, fun i hki hi j hj => ?_,
    fun i hi i' hi' h => ofNat_byte_inj (by omega) (by omega) h,
    fun j hj j' hj' h => ofNat_byte_inj (by omega) (by omega) h, fun i hki hi j hj h => ?_⟩
  · have hxor := ofNat_byte_xor_ne_zero (show i < 256 by omega) (show j < 256 by omega) (by omega)
    rw [matGet_buildEncodeMatrix_parity hki hi hj]
    exact ⟨gfInv_ne_zero hxor, by rw [gfMul_comm, gfMul_gfInv hxor]⟩
  · have := ofNat_byte_inj (by omega) (by omega) h
    omega

end Sys2Proof.Machine
end

