-- ==== Sys2Proof/Proofs/MatrixCommands.lean ====
section
/-!
MKENC, MKDEC, RDENC, RDDEC and RDSRV (R125, R129, R132 to R134): their words, and how each ends.
-/
namespace Sys2Proof.Machine

/-! ### Their words (R82) -/

theorem decode_mkenc (k m : BitVec 12) : decode (encode (.mkenc k m)) = .ok (.mkenc k m) := by
  rw [encode, decode, opcOf_encodeP]
  exact congrArg Except.ok (congrArg₂ Instr.mkenc (fieldHi12_encodeP _ k m) (fieldLo12_encodeP _ k m))

theorem decode_rdenc (a b : Byte) : decode (encode (.rdenc a b)) = .ok (.rdenc a b) := by
  rw [encode, decode, opcOf_encodeA2]
  exact decodeA2_encodeA2 _ a b _

theorem decode_rddec (a b : Byte) : decode (encode (.rddec a b)) = .ok (.rddec a b) := by
  rw [encode, decode, opcOf_encodeA2]
  exact decodeA2_encodeA2 _ a b _

theorem decode_rdsrv (a : Byte) : decode (encode (.rdsrv a)) = .ok (.rdsrv a) := by
  rw [encode, decode, opcOf_encodeA1]
  exact decodeA1_encodeA1 _ a _

/-! ### The contexts of BadCommand for formats A1 and A2 (R207) -/

theorem fieldHi12_encodeA2 (o a b : Byte) : fieldHi12 (encodeA2 o a b) = a ++ b.extractLsb' 4 4 := by
  apply BitVec.eq_of_toNat_eq
  rw [fieldHi12_toNat, encodeA2_toNat, append_toNat, BitVec.extractLsb'_toNat, Nat.shiftRight_eq_div_pow]
  omega

theorem fieldLo12_encodeA2 (o a b : Byte) : fieldLo12 (encodeA2 o a b) = b.extractLsb' 0 4 ++ 0x00#8 := by
  apply BitVec.eq_of_toNat_eq
  rw [fieldLo12_toNat, encodeA2_toNat, append_toNat, BitVec.extractLsb'_toNat, Nat.shiftRight_zero, BitVec.toNat_ofNat]
  omega

theorem fieldHi12_encodeA1 (o a : Byte) : fieldHi12 (encodeA1 o a) = a ++ 0x0#4 := by
  apply BitVec.eq_of_toNat_eq
  rw [fieldHi12_toNat, encodeA1_toNat, append_toNat, BitVec.toNat_ofNat]
  omega

theorem fieldLo12_encodeA1 (o a : Byte) : fieldLo12 (encodeA1 o a) = 0x000#12 := by
  apply BitVec.eq_of_toNat_eq
  rw [fieldLo12_toNat, encodeA1_toNat, BitVec.toNat_ofNat]
  omega

theorem raiseBadCommand_encodeA2 (o a b : Byte) (s : State) :
    raiseBadCommand (encodeA2 o a b) s =
      .next (s.failed 8#4 o (a ++ b.extractLsb' 4 4) (b.extractLsb' 0 4 ++ 0x00#8) false) := by
  rw [raiseBadCommand_eq_failed, opcOf_encodeA2, fieldHi12_encodeA2, fieldLo12_encodeA2]

theorem raiseBadCommand_encodeA1 (o a : Byte) (s : State) :
    raiseBadCommand (encodeA1 o a) s = .next (s.failed 8#4 o (a ++ 0x0#4) 0x000#12 false) := by
  rw [raiseBadCommand_eq_failed, opcOf_encodeA1, fieldHi12_encodeA1, fieldLo12_encodeA1]

section Ends
variable {s : State}

/-! ### MKENC (R125) -/

theorem exec_mkenc_legal {k m : BitVec 12} (h : legalParams k.toNat m.toNat = true) :
    exec (.mkenc k m) s = .next ((s.loadEncode (buildEncodeMatrix k.toNat m.toNat)
      (k.extractLsb' 0 8) (m.extractLsb' 0 8)).answered 0x0#4 0#24) := by
  rw [← BitVec.setWidth_eq_extractLsb' (by decide), ← BitVec.setWidth_eq_extractLsb' (by decide)]
  exact if_pos h

theorem exec_mkenc_illegal {k m : BitVec 12} (h : ¬legalParams k.toNat m.toNat = true) :
    exec (.mkenc k m) s = .next (s.failed 2#4 0x20#8 k m false) :=
  (if_neg h).trans (raise_eq_failed .invalidParameters _ _ _ s)

/-! ### MKDEC (R129) -/

theorem exec_mkdec_outOfRange (hv : s.emv = true) {u : Nat} (hc : erasCheck s.kN s.mN s.eras = .outOfRange u) :
    exec .mkdec s = .next (s.failed 4#4 0x21#8 (BitVec.ofNat 12 u) 0x001#12 false) := by
  rw [exec, execMkdec, if_neg (by simp [hv]), hc]
  exact raise_eq_failed .inconsistentErasureSet _ _ _ s

theorem exec_mkdec_tooMany (hv : s.emv = true) {n : Nat} (hc : erasCheck s.kN s.mN s.eras = .tooMany n) :
    exec .mkdec s = .next (s.failed 4#4 0x21#8 (BitVec.ofNat 12 n) 0x002#12 false) := by
  rw [exec, execMkdec, if_neg (by simp [hv]), hc]
  exact raise_eq_failed .inconsistentErasureSet _ _ _ s

theorem exec_mkdec_singular (hv : s.emv = true) (hc : erasCheck s.kN s.mN s.eras = .ok) {c : Nat}
    (hinv : gfInvert (selectRows s.em s.kN (survivors s.kN s.mN s.eras)) s.kN = .singular c) :
    exec .mkdec s = .next (s.failed 3#4 0x21#8 (BitVec.ofNat 12 c) 0x000#12 true) := by
  rw [exec, execMkdec, if_neg (by simp [hv]), hc, hinv]
  exact raise_eq_failed .singularMatrix _ _ _ s

theorem exec_mkdec_inverse (hv : s.emv = true) (hc : erasCheck s.kN s.mN s.eras = .ok) {b : Matrix}
    (hinv : gfInvert (selectRows s.em s.kN (survivors s.kN s.mN s.eras)) s.kN = .inverse b) :
    exec .mkdec s =
      .next ((s.loadDecode b ((survivors s.kN s.mN s.eras).map unitByte)).answered 0x0#4 0#24) := by
  rw [exec, execMkdec, if_neg (by simp [hv]), hc, hinv]
  exact respond_eq_answered 0#24 _

/-! ### RDENC, RDDEC and RDSRV (R132 to R134) -/

theorem exec_rdenc_outside (hv : s.emv = true) {a b : Byte} (h : s.nUnits ≤ a.toNat ∨ s.kN ≤ b.toNat) :
    exec (.rdenc a b) s =
      .next (s.failed 8#4 0x22#8 (a ++ b.extractLsb' 4 4) (b.extractLsb' 0 4 ++ 0x00#8) false) := by
  rw [exec, execRdenc, if_neg (by simp [hv]), if_pos h]
  exact raiseBadCommand_encodeA2 _ a b s

theorem exec_rdenc_entry (hv : s.emv = true) {a b : Byte} (ha : a.toNat < s.nUnits) (hb : b.toNat < s.kN) :
    exec (.rdenc a b) s = .next (s.answered 0x0#4 (0#16 ++ matGet s.em a.toNat b.toNat)) := by
  rw [exec, execRdenc, if_neg (by simp [hv]), if_neg (by omega), respond_zext24]

theorem exec_rddec_outside (hv : s.dmv = true) {a b : Byte} (h : s.kN ≤ a.toNat ∨ s.kN ≤ b.toNat) :
    exec (.rddec a b) s =
      .next (s.failed 8#4 0x23#8 (a ++ b.extractLsb' 4 4) (b.extractLsb' 0 4 ++ 0x00#8) false) := by
  rw [exec, execRddec, if_neg (by simp [hv]), if_pos h]
  exact raiseBadCommand_encodeA2 _ a b s

theorem exec_rddec_entry (hv : s.dmv = true) {a b : Byte} (ha : a.toNat < s.kN) (hb : b.toNat < s.kN) :
    exec (.rddec a b) s = .next (s.answered 0x0#4 (0#16 ++ matGet s.dm a.toNat b.toNat)) := by
  rw [exec, execRddec, if_neg (by simp [hv]), if_neg (by omega), respond_zext24]

theorem exec_rdsrv_outside (hv : s.dmv = true) {a : Byte} (h : s.kN ≤ a.toNat) :
    exec (.rdsrv a) s = .next (s.failed 8#4 0x24#8 (a ++ 0x0#4) 0x000#12 false) := by
  rw [exec, execRdsrv, if_neg (by simp [hv]), if_pos h]
  exact raiseBadCommand_encodeA1 _ a s

theorem exec_rdsrv_entry (hv : s.dmv = true) {a : Byte} (h : a.toNat < s.kN) :
    exec (.rdsrv a) s = .next (s.answered 0x0#4 (0#16 ++ s.srv.getD a.toNat 0x00#8)) := by
  rw [exec, execRdsrv, if_neg (by simp [hv]), if_neg (by omega), respond_zext24, State.srvAt]

end Ends

/-! ### The claims -/

/-- Settles O10: the legality test decides between the two ends; M ≤ K and K + M ≤ 256 bound the pair. -/
theorem mkencBuildsOrRejects : Obligations.MkencBuildsOrRejects := by
  intro k m s
  rw [← legalParams_iff]
  refine ⟨decode_mkenc k m, fun h => ⟨exec_mkenc_legal h, ?_⟩, exec_mkenc_illegal⟩
  have := (legalParams_iff _ _).1 h
  omega

/-- Settles O17: each test in its turn, the matrix given to gf_invert being the survivors' rows of EM. -/
theorem mkdecOutcomes : Obligations.MkdecOutcomes := by
  refine ⟨by decide, fun s => ⟨exec_mkdec_invalid, fun hv _ => exec_mkdec_outOfRange hv,
    fun hv _ => exec_mkdec_tooMany hv, fun hv hc a ha => ?_⟩⟩
  subst ha
  exact ⟨fun _ => exec_mkdec_singular hv hc, fun _ => exec_mkdec_inverse hv hc⟩

/-- Settles O19: the valid bit is tested first, then the indices. -/
theorem rdencOutcomes : Obligations.RdencOutcomes := fun a b _ =>
  ⟨decode_rdenc a b, fun hv => exec_rdenc_invalid hv a b, fun hv h => exec_rdenc_outside hv h,
    fun hv ha hb => exec_rdenc_entry hv ha hb⟩

/-- Settles O20: the valid bit is tested first, then the indices. -/
theorem rddecRdsrvOutcomes : Obligations.RddecRdsrvOutcomes := fun a b _ =>
  ⟨decode_rddec a b, decode_rdsrv a, fun hv => ⟨exec_rddec_invalid hv a b, exec_rdsrv_invalid hv a⟩,
    fun hv h => exec_rddec_outside hv h, fun hv h => exec_rdsrv_outside hv h,
    fun hv ha hb => exec_rddec_entry hv ha hb, fun hv ha => exec_rdsrv_entry hv ha⟩

end Sys2Proof.Machine
end

