-- ==== Sys2Proof/Proofs/CodecBytes.lean ====
section
/-!
The bytes ENCODE and DECODE write (R150 to R152, R155): both fill whole units with dot products, and the transposed copy
the offload datapath fetches its coefficients from cannot be seen (R158, R159).
-/
namespace Sys2Proof.Machine

/-! ### Units filled with dot products -/

/-- The bytes of the units of `us`, unit `u` from its coefficients `g u` and the source units `src`. -/
def outputCells (s : State) (n : Nat) (g : Nat → Nat → Byte) (src : Nat → Byte) (us : List Nat) : List Host.Cell :=
  us.flatMap fun u => unitCells s n (g u) src (unitByte u)

theorem unitByte_inj {u v : Nat} (hu : u < 256) (hv : v < 256) (h : unitByte u = unitByte v) : u = v :=
  ofNat_byte_inj hu hv h

theorem dot_congr {s : State} {n : Nat} {g g' src : Nat → Byte} (h : ∀ r < n, g r = g' r) (t : BitVec 24) :
    dot s n g src t = dot s n g' src t :=
  xorSum_congr fun r hr => by rw [h r hr]

theorem unitCells_congr {s : State} {n : Nat} {g g' src : Nat → Byte} (h : ∀ r < n, g r = g' r) (dst : Byte) :
    unitCells s n g src dst = unitCells s n g' src dst :=
  List.map_congr_left fun _ _ => by rw [dot_congr h]

section Output
variable {s : State} {n : Nat} {g : Nat → Nat → Byte} {src : Nat → Byte} {us : List Nat}

theorem mem_outputCells {c : Host.Cell} :
    c ∈ outputCells s n g src us ↔ ∃ u ∈ us, ∃ o < s.usize.toNat,
      c = ((sbAddr (unitByte u) (BitVec.ofNat 24 o)).toNat, dot s n (g u) src (BitVec.ofNat 24 o)) := by
  simp [outputCells, mem_unitCells]

/-- A byte of a written unit below USIZE is its dot product: distinct units have distinct addresses. -/
theorem sbRead_outputCells_mem (hus : ∀ u ∈ us, u < 256) {u o : Nat} (hu : u ∈ us) (ho : o < s.usize.toNat) :
    (s.sbWriteAll (outputCells s n g src us)).sbRead (sbAddr (unitByte u) (BitVec.ofNat 24 o)) =
      dot s n (g u) src (BitVec.ofNat 24 o) := by
  refine s.sbRead_sbWriteAll_mem (mem_outputCells.2 ⟨u, hu, o, ho, rfl⟩) fun c hc haddr => ?_
  obtain ⟨u', hu', o', -, rfl⟩ := mem_outputCells.1 hc
  obtain ⟨hunit, hoff⟩ := sbAddr_inj (BitVec.eq_of_toNat_eq haddr)
  rw [unitByte_inj (hus u' hu') (hus u hu) hunit, hoff]

/-- Every other byte keeps its value. -/
theorem sbRead_outputCells_other {x : BitVec 32}
    (hx : ∀ u ∈ us, ∀ o < s.usize.toNat, x ≠ sbAddr (unitByte u) (BitVec.ofNat 24 o)) :
    (s.sbWriteAll (outputCells s n g src us)).sbRead x = s.sbRead x := by
  refine s.sbRead_sbWriteAll_other fun c hc haddr => ?_
  obtain ⟨u, hu, o, ho, rfl⟩ := mem_outputCells.1 hc
  exact hx u hu o ho (BitVec.eq_of_toNat_eq haddr).symm

end Output

/-! ### The coefficients of the two datapaths (R158, R159) -/

/-- Both datapaths fetch entry (i, j), the one from the logical matrix, the other from the transposed copy. -/
theorem coeff_eq_matGet (bk : Datapath) (x : Matrix) {r c i j : Nat} (hi : i < r) (hj : j < c) :
    coeff bk x r c i j = matGet x i j := by
  cases bk with
  | software => rfl
  | hardwareOffload => rw [coeff, List.getD_eq_getElem?_getD, transposed_getElem? x hi hj, Option.getD_some]

/-- ENCODE fills the parity units from their rows of EM, whatever the datapath (R151). -/
theorem encodeCells_eq (bk : Datapath) (s : State) :
    encodeCells bk s = outputCells s s.kN (matGet s.em) unitByte (List.range' s.kN s.mN) := by
  refine List.flatMap_congr fun i hi => unitCells_congr (fun j hj => coeff_eq_matGet bk s.em ?_ hj) _
  rw [s.nUnits_eq]
  exact (List.mem_range'_1.1 hi).2

theorem matGet_recoveryMatrix (s : State) {p r : Nat} (hp : p < (erasedUnits s).length) (hr : r < s.kN) :
    matGet (recoveryMatrix s) p r = recCoeff s.em s.dm s.kN (erasedUnits s)[p] r := by
  simp [recoveryMatrix, matGet, List.getD, hp, hr]

/-- DECODE fills the erased units from their recovery rows, whatever the datapath (R152). -/
theorem decodeCells_eq (bk : Datapath) (s : State) :
    decodeCells bk s = outputCells s s.kN (recCoeff s.em s.dm s.kN) s.srvAt (erasedUnits s) := by
  have hrow (ep : Nat × Nat) (hep : ep ∈ (erasedUnits s).zipIdx) (r : Nat) (hr : r < s.kN) :
      coeff bk (recoveryMatrix s) (erasedUnits s).length s.kN ep.2 r = recCoeff s.em s.dm s.kN ep.1 r := by
    obtain ⟨hlt, hget⟩ := List.mem_zipIdx' hep
    rw [coeff_eq_matGet bk _ hlt hr, matGet_recoveryMatrix s hlt hr, hget]
  calc decodeCells bk s
      = ((erasedUnits s).zipIdx.map Prod.fst).flatMap fun e =>
          unitCells s s.kN (recCoeff s.em s.dm s.kN e) s.srvAt (unitByte e) := by
        rw [List.flatMap_map]
        exact List.flatMap_congr fun ep hep => unitCells_congr (hrow ep hep) _
    _ = outputCells s s.kN (recCoeff s.em s.dm s.kN) s.srvAt (erasedUnits s) := by
        rw [List.zipIdx_map_fst, outputCells]

end Sys2Proof.Machine
end

