-- ==== Sys2Proof/Proofs/CodecCommands.lean ====
section
/-!
ENCODE and DECODE (R151, R152): their tests in order, how each ends, and what a successful one leaves.
-/
namespace Sys2Proof.Machine

/-! ### The access check (R154) -/

/-- Only the offload datapath asks ACC. -/
theorem accessCheck_eq_none {bk : Datapath} {s : State} {units : Nat → Bool}
    (h : bk = .hardwareOffload → ∀ v < 256, units v = true → s.accessible v = true) :
    accessCheck bk s units = none := by
  cases bk with
  | software => exact accessCheck_software s units
  | hardwareOffload => exact accessCheck_none (h rfl)

/-- The offload datapath is denied at the lowest unit it would touch that ACC does not allow. -/
theorem accessCheck_offload_eq_some {s : State} {units : Nat → Bool} {u : Nat} (hlt : u < 256) (hu : units u = true)
    (hacc : s.accessible u = false) (hlow : ∀ v < u, units v = true → s.accessible v = true) :
    accessCheck .hardwareOffload s units = some u := by
  refine List.find?_range_eq_some.2 ⟨by simp [hu, hacc], List.mem_range.2 hlt, fun v hv => ?_⟩
  cases htouch : units v with
  | false => rfl
  | true => simp [hlow v hv htouch]

/-! ### Successes -/

/-- A command that raised has not succeeded: its response carries a nonzero status. -/
theorem not_succeeded_of_raise {x : ErrorKind} {op : Byte} {i0 i1 : BitVec 12} {s t : State}
    (h : raise x op i0 i1 s = .next t) : ¬Succeeded s t := fun hs => by
  obtain rfl := Host.Outcome.next.inj h
  have hword : responseWord (errorCode x) 0#24 = 0x00000000#32 := by simpa [Succeeded] using hs
  have hstatus := (responseWord_fields (errorCode x) 0#24).1
  rw [hword] at hstatus
  exact errorCode_ne_zero x hstatus.symm

/-- A command that completed with no result has succeeded (R90). -/
theorem succeeded_answered {s t : State} (h : t.replies = s.replies) : Succeeded s (t.answered 0x0#4 0#24) :=
  congrArg (· ++ _) h

/-! ### ENCODE (R151) -/

section Encode
variable {bk : Datapath} {s t : State}

/-- What ENCODE writes to a parity unit: while K + M is at most 256, each has addresses of its own. -/
theorem sbRead_encodeCells_parity (hkm : s.nUnits ≤ 256) {i o : Nat} (hki : s.kN ≤ i) (hi : i < s.nUnits)
    (ho : o < s.usize.toNat) :
    (s.sbWriteAll (encodeCells bk s)).sbRead (sbAddr (unitByte i) (BitVec.ofNat 24 o)) =
      dot s s.kN (matGet s.em i) unitByte (BitVec.ofNat 24 o) := by
  rw [encodeCells_eq]
  exact sbRead_outputCells_mem (fun u hu => (List.mem_range'_1.1 hu).2.trans_le hkm) (List.mem_range'_1.2 ⟨hki, hi⟩) ho

theorem sbRead_encodeCells_other {x : BitVec 32}
    (hx : ∀ i, s.kN ≤ i → i < s.nUnits → ∀ o < s.usize.toNat, x ≠ sbAddr (unitByte i) (BitVec.ofNat 24 o)) :
    (s.sbWriteAll (encodeCells bk s)).sbRead x = s.sbRead x := by
  rw [encodeCells_eq]
  refine sbRead_outputCells_other fun i hi => ?_
  obtain ⟨hki, hlt⟩ := List.mem_range'_1.1 hi
  exact hx i hki hlt

theorem exec_encode_denied (hv : s.emv = true) {u : Nat}
    (hacc : accessCheck bk s (fun u => decide (u < s.nUnits)) = some u) :
    exec (.encode bk) s = .next (s.failed 5#4 0x30#8 (BitVec.ofNat 12 u) 0x000#12 false) := by
  rw [exec, execEncode, if_neg (by simp [hv]), hacc]
  exact raise_eq_failed .unregisteredBuffer _ _ _ s

theorem exec_encode_completes (hv : s.emv = true)
    (hacc : accessCheck bk s (fun u => decide (u < s.nUnits)) = none) :
    exec (.encode bk) s = .next ((s.sbWriteAll (encodeCells bk s)).answered 0x0#4 0#24) := by
  rw [exec, execEncode, if_neg (by simp [hv]), hacc]
  exact respond_eq_answered 0#24 _

/-- What an ENCODE that succeeded leaves. -/
theorem exec_encode_succeeded (h : exec (.encode bk) s = .next t) (hs : Succeeded s t) :
    t = (s.sbWriteAll (encodeCells bk s)).answered 0x0#4 0#24 := by
  rw [exec, execEncode] at h
  split at h
  · exact absurd hs (not_succeeded_of_raise h)
  · split at h
    · exact absurd hs (not_succeeded_of_raise h)
    · exact (Host.Outcome.next.inj h).symm

end Encode

/-! ### DECODE (R152) -/

theorem erasedSurvivor_eq_none_iff {s : State} :
    erasedSurvivor s = none ↔ ∀ r < s.kN, s.erased (s.srvAt r).toNat = false := by
  simp [erasedSurvivor]

theorem erasedSurvivor_eq_some {s : State} {r : Nat} (hr : r < s.kN) (he : s.erased (s.srvAt r).toNat = true)
    (hlow : ∀ r' < r, s.erased (s.srvAt r').toNat = false) : erasedSurvivor s = some r :=
  List.find?_range_eq_some.2 ⟨he, List.mem_range.2 hr, fun r' hr' => by simp [hlow r' hr']⟩

/-- DECODE touches the units of E and those of SRV. -/
theorem decodeTouches_iff {s : State} {u : Nat} :
    decodeTouches s u = true ↔ s.erased u = true ∨ ∃ r < s.kN, (s.srvAt r).toNat = u := by
  simp [decodeTouches]

/-- With a set that passes the check, the units DECODE writes are those of E (R130). -/
theorem mem_erasedUnits {s : State} (hc : erasCheck s.kN s.mN s.eras = .ok) {e : Nat} :
    e ∈ erasedUnits s ↔ s.eras.getLsbD e = true := by
  have hbelow (he : s.eras.getLsbD e = true) : e < s.nUnits :=
    (erasCheck_eq_ok_iff.1 hc).1 e (BitVec.lt_of_getLsbD he) he
  simpa [erasedUnits, State.erased] using hbelow

section Decode
variable {bk : Datapath} {s t : State}

/-- What DECODE writes to an erased unit: each has addresses of its own. -/
theorem sbRead_decodeCells_erased (hc : erasCheck s.kN s.mN s.eras = .ok) {e o : Nat} (he : s.eras.getLsbD e = true)
    (ho : o < s.usize.toNat) :
    (s.sbWriteAll (decodeCells bk s)).sbRead (sbAddr (unitByte e) (BitVec.ofNat 24 o)) =
      dot s s.kN (recCoeff s.em s.dm s.kN e) s.srvAt (BitVec.ofNat 24 o) := by
  rw [decodeCells_eq]
  exact sbRead_outputCells_mem (fun u hu => BitVec.lt_of_getLsbD ((mem_erasedUnits hc).1 hu))
    ((mem_erasedUnits hc).2 he) ho

theorem sbRead_decodeCells_other (hc : erasCheck s.kN s.mN s.eras = .ok) {x : BitVec 32}
    (hx : ∀ e, s.eras.getLsbD e = true → ∀ o < s.usize.toNat, x ≠ sbAddr (unitByte e) (BitVec.ofNat 24 o)) :
    (s.sbWriteAll (decodeCells bk s)).sbRead x = s.sbRead x := by
  rw [decodeCells_eq]
  exact sbRead_outputCells_other fun e he => hx e ((mem_erasedUnits hc).1 he)

theorem exec_decode_outOfRange (hv : s.dmv = true) {u : Nat} (hc : erasCheck s.kN s.mN s.eras = .outOfRange u) :
    exec (.decode bk) s = .next (s.failed 4#4 0x31#8 (BitVec.ofNat 12 u) 0x001#12 false) := by
  rw [exec, execDecode, if_neg (by simp [hv]), hc]
  exact raise_eq_failed .inconsistentErasureSet _ _ _ s

theorem exec_decode_tooMany (hv : s.dmv = true) {n : Nat} (hc : erasCheck s.kN s.mN s.eras = .tooMany n) :
    exec (.decode bk) s = .next (s.failed 4#4 0x31#8 (BitVec.ofNat 12 n) 0x002#12 false) := by
  rw [exec, execDecode, if_neg (by simp [hv]), hc]
  exact raise_eq_failed .inconsistentErasureSet _ _ _ s

theorem exec_decode_erasedSurvivor (hv : s.dmv = true) (hc : erasCheck s.kN s.mN s.eras = .ok) {r : Nat}
    (hsrv : erasedSurvivor s = some r) :
    exec (.decode bk) s = .next (s.failed 4#4 0x31#8 (0x0#4 ++ s.srvAt r) 0x003#12 false) := by
  rw [exec, execDecode, if_neg (by simp [hv]), hc, hsrv, ← zext12_eq_append]
  exact raise_eq_failed .inconsistentErasureSet _ _ _ s

theorem exec_decode_denied (hv : s.dmv = true) (hc : erasCheck s.kN s.mN s.eras = .ok)
    (hsrv : erasedSurvivor s = none) {u : Nat} (hacc : accessCheck bk s (decodeTouches s) = some u) :
    exec (.decode bk) s = .next (s.failed 5#4 0x31#8 (BitVec.ofNat 12 u) 0x000#12 false) := by
  rw [exec, execDecode, if_neg (by simp [hv]), hc, hsrv, hacc]
  exact raise_eq_failed .unregisteredBuffer _ _ _ s

theorem exec_decode_completes (hv : s.dmv = true) (hc : erasCheck s.kN s.mN s.eras = .ok)
    (hsrv : erasedSurvivor s = none) (hacc : accessCheck bk s (decodeTouches s) = none) :
    exec (.decode bk) s = .next ((s.sbWriteAll (decodeCells bk s)).answered 0x0#4 0#24) := by
  rw [exec, execDecode, if_neg (by simp [hv]), hc, hsrv, hacc]
  exact respond_eq_answered 0#24 _

/-- What a DECODE that succeeded leaves, and the tests on E that it passed. -/
theorem exec_decode_succeeded (h : exec (.decode bk) s = .next t) (hs : Succeeded s t) :
    erasCheck s.kN s.mN s.eras = .ok ∧ erasedSurvivor s = none ∧
      t = (s.sbWriteAll (decodeCells bk s)).answered 0x0#4 0#24 := by
  rw [exec, execDecode] at h
  split at h
  · exact absurd hs (not_succeeded_of_raise h)
  · split at h
    · exact absurd hs (not_succeeded_of_raise h)
    · exact absurd hs (not_succeeded_of_raise h)
    · next hc =>
      split at h
      · exact absurd hs (not_succeeded_of_raise h)
      · next hsrv =>
        split at h
        · exact absurd hs (not_succeeded_of_raise h)
        · exact ⟨hc, hsrv, (Host.Outcome.next.inj h).symm⟩

end Decode

/-! ### The claims -/

/-- Settles O24: the bytes written are the same ones, since each datapath fetches the same coefficients. -/
theorem backendsAgree : Obligations.BackendsAgree := by
  refine fun s t t' hs hs' => ⟨fun h h' => ?_, fun h h' => ?_⟩
  · rw [exec_encode_succeeded h hs, exec_encode_succeeded h' hs', encodeCells_eq, encodeCells_eq]
  · obtain ⟨-, -, rfl⟩ := exec_decode_succeeded h hs
    obtain ⟨-, -, rfl⟩ := exec_decode_succeeded h' hs'
    rw [decodeCells_eq, decodeCells_eq]

/-- Settles O21: the two tests in their turn; below 256 units the parity units keep to addresses of their own. -/
theorem encodeOutcomes : Obligations.EncodeOutcomes := by
  refine ⟨by rfl, by rfl, fun bk s hv hkm hacc => ?_, fun bk s => ⟨fun hv => exec_encode_invalid hv bk, ?_⟩⟩
  · have hallowed := accessCheck_eq_none fun hbk u _ hu => hacc hbk u (of_decide_eq_true hu)
    exact ⟨_, exec_encode_completes hv hallowed, rfl, fun i hki hi o ho => sbRead_encodeCells_parity hkm hki hi ho,
      fun x hx => sbRead_encodeCells_other hx⟩
  · rintro hv rfl u hlt hu hacc hlow
    exact exec_encode_denied hv (accessCheck_offload_eq_some hlt (decide_eq_true hu) hacc fun v hv _ => hlow v hv)

/-- Settles O23: the five tests in their turn; the erased units have addresses of their own. -/
theorem decodeOutcomes : Obligations.DecodeOutcomes := by
  refine ⟨by rfl, by rfl, fun bk s hv hc hsrv hacc => ?_, fun bk s => ⟨fun hv => exec_decode_invalid hv bk,
    fun hv _ hc => exec_decode_outOfRange hv hc, fun hv _ hc => exec_decode_tooMany hv hc,
    fun hv hc _ hr he hlow => exec_decode_erasedSurvivor hv hc (erasedSurvivor_eq_some hr he hlow), ?_⟩⟩
  · have htouch (hbk : bk = .hardwareOffload) (u : Nat) (_ : u < 256) (hu : decodeTouches s u = true) :
        s.accessible u = true := by
      obtain ⟨herased, hsurvivor⟩ := hacc hbk
      rcases decodeTouches_iff.1 hu with he | ⟨r, hr, rfl⟩
      · exact herased u he
      · exact hsurvivor r hr
    exact ⟨_, exec_decode_completes hv hc (erasedSurvivor_eq_none_iff.2 hsrv) (accessCheck_eq_none htouch), rfl,
      fun e he o ho => sbRead_decodeCells_erased hc he ho, fun x hx => sbRead_decodeCells_other hc hx⟩
  · rintro hv hc hsrv rfl u hlt hu hacc hlow
    refine exec_decode_denied hv hc (erasedSurvivor_eq_none_iff.2 hsrv) ?_
    exact accessCheck_offload_eq_some hlt (decodeTouches_iff.2 hu) hacc fun v hv htouch =>
      hlow v hv (decodeTouches_iff.1 htouch)

end Sys2Proof.Machine
end

