-- ==== Sys2Proof/Proofs/FieldSums.lean ====
section
/-!
Sums in the field (R10, R102): as sums of residues, and the sums of products that matrices are multiplied by (R11).
-/
namespace Sys2Proof.Machine

@[simp] theorem gfElem_gfAdd (a b : Byte) : gfElem (gfAdd a b) = gfElem a + gfElem b := gfElem_xor a b

@[simp] theorem gfElem_xorSum (n : Nat) (f : Nat → Byte) :
    gfElem (xorSum n f) = ∑ j ∈ Finset.range n, gfElem (f j) := by
  induction n with
  | zero => simp
  | succ n ih => rw [xorSum_succ, gfElem_gfAdd, ih, Finset.sum_range_succ]

/-- A sum against a row of the identity picks one term. -/
theorem xorSum_unit_mul {n i : Nat} (hi : i < n) (f : Nat → Byte) :
    xorSum n (fun r => gfMul (if i = r then 1#8 else 0#8) (f r)) = f i := by
  apply gfElem_injective
  simp [apply_ite gfElem, hi]

theorem xorSum_mul_left (n : Nat) (f : Byte) (x y : Nat → Byte) :
    xorSum n (fun r => gfMul (gfMul f (x r)) (y r)) = gfMul f (xorSum n fun r => gfMul (x r) (y r)) := by
  apply gfElem_injective
  simp [Finset.mul_sum, mul_assoc]

/-- A product of a row, a matrix and a column does not depend on which product is taken first. -/
theorem xorSum_mul_assoc (n m : Nat) (x : Nat → Byte) (y : Nat → Nat → Byte) (z : Nat → Byte) :
    xorSum n (fun r => gfMul (x r) (xorSum m fun j => gfMul (y r j) (z j))) =
      xorSum m fun j => gfMul (xorSum n fun r => gfMul (x r) (y r j)) (z j) := by
  apply gfElem_injective
  simp only [gfElem_xorSum, gfElem_gfMul, Finset.mul_sum, Finset.sum_mul, mul_assoc]
  exact Finset.sum_comm

theorem xorSum_add_mul (n : Nat) (x x' y : Nat → Byte) :
    xorSum n (fun r => gfMul (gfAdd (x r) (x' r)) (y r)) =
      gfAdd (xorSum n fun r => gfMul (x r) (y r)) (xorSum n fun r => gfMul (x' r) (y r)) := by
  apply gfElem_injective
  simp [add_mul, Finset.sum_add_distrib]

@[simp] theorem gfAdd_zero (a : Byte) : gfAdd a 0#8 = a := by simp [gfAdd]

@[simp] theorem gfAdd_self (a : Byte) : gfAdd a a = 0#8 := by simp [gfAdd]

end Sys2Proof.Machine
end

