-- ==== Sys2Proof/Proofs/Inversion.lean ====
section
/-!
What gf_invert returns is a left inverse of its matrix (R127, R128). Its row operations keep each row of W the product of
the same row of B with the matrix, and the columns done are those of the identity: once W is the identity, B is the
inverse.
-/
namespace Sys2Proof.Machine

/-! ### Entries after each row operation (R127) -/

/-- Row i of the working pair. -/
def rowAt (rows : List AugRow) (i : Nat) : AugRow := rows.getD i ⟨[], []⟩

/-- W[i][j]. -/
def wAt (rows : List AugRow) (i j : Nat) : Byte := (rowAt rows i).w.getD j 0#8

theorem getD_map_gfMul (f : Byte) (l : List Byte) (j : Nat) :
    (l.map (gfMul f)).getD j 0#8 = gfMul f (l.getD j 0#8) := by
  by_cases hj : j < l.length <;> simp [List.getD, hj]

theorem getD_zipWith_gfAdd_gfMul (f : Byte) {l l' : List Byte} (h : l.length = l'.length) (j : Nat) :
    (List.zipWith (fun x y => gfAdd x (gfMul f y)) l l').getD j 0#8 =
      gfAdd (l.getD j 0#8) (gfMul f (l'.getD j 0#8)) := by
  by_cases hj : j < l'.length <;> simp [List.getD, h, hj]

theorem rowAt_swapRows {c p i : Nat} {rows : List AugRow} (hc : c < rows.length) (hp : p < rows.length) :
    rowAt (swapRows c p rows) i = rowAt rows (if i = p then c else if i = c then p else i) := by
  rw [rowAt, swapRows, List.getD_eq_getElem?_getD, List.getElem?_set, List.getElem?_set, List.length_set]
  by_cases hip : i = p
  · simp [hip, hp, rowAt]
  · by_cases hic : i = c
    · subst hic
      simp [hip, Ne.symm hip, hc, rowAt]
    · simp [hip, hic, Ne.symm hip, Ne.symm hic, rowAt]

theorem rowAt_clearColumn {c i : Nat} {piv : AugRow} {rows : List AugRow} (hi : i < rows.length) :
    rowAt (clearColumn c piv rows) i =
      if i = c then piv else if wAt rows i c = 0#8 then rowAt rows i
      else addScaledRow (wAt rows i c) piv (rowAt rows i) := by
  have hget (l : List AugRow) (hl : i < l.length) : rowAt l i = l[i] := List.getD_eq_getElem l _ hl
  rw [wAt, hget rows hi, hget _ (by simpa [clearColumn] using hi)]
  exact List.getElem_mapIdx ..

/-! ### Rows made from the matrix -/

/-- A row that row operations made from the rows of `a`: its part of W is its part of B times `a`. -/
structure RowOf (n : Nat) (a : Matrix) (row : AugRow) : Prop where
  w_length : row.w.length = n
  b_length : row.b.length = n
  w_eq : ∀ j < n, row.w.getD j 0#8 = xorSum n fun r => gfMul (row.b.getD r 0#8) (matGet a r j)

theorem RowOf.scaleRow {n : Nat} {a : Matrix} {row : AugRow} (h : RowOf n a row) (f : Byte) :
    RowOf n a (scaleRow f row) where
  w_length := (List.length_map _).trans h.w_length
  b_length := (List.length_map _).trans h.b_length
  w_eq j hj := by
    simp only [Machine.scaleRow, getD_map_gfMul, xorSum_mul_left, h.w_eq j hj]

theorem RowOf.addScaledRow {n : Nat} {a : Matrix} {row piv : AugRow} (h : RowOf n a row) (hpiv : RowOf n a piv)
    (f : Byte) : RowOf n a (addScaledRow f piv row) where
  w_length := by simp [Machine.addScaledRow, h.w_length, hpiv.w_length]
  b_length := by simp [Machine.addScaledRow, h.b_length, hpiv.b_length]
  w_eq j hj := by
    simp only [Machine.addScaledRow, getD_zipWith_gfAdd_gfMul f (h.w_length.trans hpiv.w_length.symm),
      getD_zipWith_gfAdd_gfMul f (h.b_length.trans hpiv.b_length.symm), xorSum_add_mul, xorSum_mul_left,
      h.w_eq j hj, hpiv.w_eq j hj]

/-! ### The columns done -/

/-- The working pair of gf_invert(a, n) with the columns below `c` done: they are those of the identity. -/
structure Reduced (n c : Nat) (a : Matrix) (rows : List AugRow) : Prop where
  length_eq : rows.length = n
  rowOf : ∀ i < n, RowOf n a (rowAt rows i)
  done : ∀ i < n, ∀ j < c, wAt rows i j = if i = j then 1#8 else 0#8

theorem pivotRow_some {n c p : Nat} {rows : List AugRow} (h : pivotRow n c rows = some p) :
    c ≤ p ∧ p < n ∧ wAt rows p c ≠ 0#8 := by
  have hne := List.find?_some h
  have hmem := List.mem_range'_1.1 (List.mem_of_find?_eq_some h)
  exact ⟨hmem.1, by omega, of_decide_eq_true hne⟩

section Steps
variable {n c : Nat} {a : Matrix} {rows : List AugRow}

/-- Swapping the pivot up leaves the columns done alone: both rows are at `c` or below. -/
theorem Reduced.swapRows (h : Reduced n c a rows) {p : Nat} (hcp : c ≤ p) (hp : p < n) :
    Reduced n c a (swapRows c p rows) := by
  have hlen := h.length_eq
  have hrow (i : Nat) := rowAt_swapRows (i := i) (rows := rows) (c := c) (p := p) (by omega) (by omega)
  refine ⟨by simp [Machine.swapRows, hlen], fun i hi => ?_, fun i hi j hj => ?_⟩
  · rw [hrow]
    exact h.rowOf _ (by split_ifs <;> omega)
  · rw [wAt, hrow, ← wAt, h.done _ (by split_ifs <;> omega) j hj]
    exact if_congr (by split_ifs <;> omega) rfl rfl

/-- A row other than the pivot's, with the pivot row taken away as often as clears its entry in column `c`. -/
theorem wAt_clearColumn_other {piv : AugRow} {i : Nat} (hi : i < rows.length)
    (hlen : (rowAt rows i).w.length = piv.w.length) (hne : i ≠ c) (j : Nat) :
    wAt (clearColumn c piv rows) i j = gfAdd (wAt rows i j) (gfMul (wAt rows i c) (piv.w.getD j 0#8)) := by
  rw [wAt, rowAt_clearColumn hi, if_neg hne]
  split
  · next hzero => rw [hzero, gfMul_comm, gfMul_zero, gfAdd_zero, wAt]
  · exact getD_zipWith_gfAdd_gfMul _ hlen j

/-- Clearing column `c` with the scaled pivot row makes it a column of the identity and keeps those before it. -/
theorem Reduced.clearColumn (h : Reduced n c a rows) (hc : c < n) (hpiv : wAt rows c c ≠ 0#8) :
    Reduced n (c + 1) a (clearColumn c (scaleRow (gfInv (wAt rows c c)) (rowAt rows c)) rows) := by
  have hlen := h.length_eq
  have hscaled := (h.rowOf c hc).scaleRow (gfInv (wAt rows c c))
  have hw (j : Nat) : (scaleRow (gfInv (wAt rows c c)) (rowAt rows c)).w.getD j 0#8 =
      gfMul (gfInv (wAt rows c c)) (wAt rows c j) := getD_map_gfMul _ _ j
  have hunit (j : Nat) (hj : j < c + 1) :
      gfMul (gfInv (wAt rows c c)) (wAt rows c j) = if c = j then 1#8 else 0#8 := by
    rcases Nat.lt_succ_iff_lt_or_eq.1 hj with hlt | rfl
    · rw [h.done c hc j hlt, if_neg (by omega), gfMul_zero]
    · rw [if_pos rfl, gfMul_comm, gfMul_gfInv hpiv]
  refine ⟨by simp [Machine.clearColumn, hlen], fun i hi => ?_, fun i hi j hj => ?_⟩
  · rw [rowAt_clearColumn (by omega)]
    split_ifs
    · exact hscaled
    · exact h.rowOf i hi
    · exact (h.rowOf i hi).addScaledRow hscaled _
  · by_cases hic : i = c
    · rw [wAt, rowAt_clearColumn (by omega), if_pos hic, hw, hunit j hj, hic]
    · rw [wAt_clearColumn_other (by omega) ((h.rowOf i hi).w_length.trans hscaled.w_length.symm) hic, hw, hunit j hj]
      rcases Nat.lt_succ_iff_lt_or_eq.1 hj with hlt | rfl
      · rw [if_neg (by omega), gfMul_zero, gfAdd_zero, h.done i hi j hlt]
      · rw [if_pos rfl, gfMul_one, gfAdd_self, if_neg hic]

end Steps

/-! ### The loop -/

theorem gfInvertFrom_reduced {n : Nat} {a b : Matrix} (fuel c : Nat) (rows : List AugRow) (hfuel : c + fuel = n)
    (hred : Reduced n c a rows) (h : gfInvertFrom n fuel c rows = .inverse b) :
    ∃ rows', Reduced n n a rows' ∧ b = rows'.map AugRow.b := by
  induction fuel generalizing c rows with
  | zero => exact ⟨rows, by rwa [show n = c by omega] at hred ⊢, (InvertResult.inverse.inj h).symm⟩
  | succ fuel ih =>
    rw [gfInvertFrom] at h
    split at h
    · cases h
    · next p hp =>
      obtain ⟨hcp, hpn, hne⟩ := pivotRow_some hp
      have hlen := hred.length_eq
      have hpiv : wAt (swapRows c p rows) c c ≠ 0#8 := by
        rw [wAt, rowAt_swapRows (by omega) (by omega)]
        split
        · next heq => rwa [heq] at hne ⊢
        · rwa [if_pos rfl]
      exact ih (c + 1) _ (by omega) ((hred.swapRows hcp hpn).clearColumn (by omega) hpiv) h

/-- The pair gf_invert starts from: the matrix beside the identity. -/
theorem reduced_start {n : Nat} {a : Matrix} (hlen : a.length = n) (hrows : ∀ row ∈ a, row.length = n) :
    Reduced n 0 a (List.zipWith AugRow.mk a (identityMatrix n)) := by
  have hrow (i : Nat) (hi : i < n) : rowAt (List.zipWith AugRow.mk a (identityMatrix n)) i =
      ⟨a.getD i [], (identityMatrix n).getD i []⟩ := by
    simp [rowAt, List.getD, identityMatrix, hlen, hi]
  refine ⟨by simp [identityMatrix, hlen], fun i hi => ?_, fun _ _ j hj => absurd hj (Nat.not_lt_zero j)⟩
  rw [hrow i hi]
  refine ⟨?_, by simp [identityMatrix, hi], fun j hj => ?_⟩
  · exact (congrArg List.length (List.getD_eq_getElem a [] (by omega))).trans (hrows _ (List.getElem_mem _))
  · have hid (r : Nat) (hr : r < n) : ((identityMatrix n).getD i []).getD r 0#8 = if i = r then 1#8 else 0#8 :=
      (matGet_identityMatrix n i r).trans (if_pos ⟨hi, hr⟩)
    rw [xorSum_congr fun r hr => by rw [hid r hr], xorSum_unit_mul hi, matGet]

/-- What gf_invert returns is a left inverse (R128). -/
theorem gfInvert_isLeftInverse {n : Nat} {a b : Matrix} (hlen : a.length = n) (hrows : ∀ row ∈ a, row.length = n)
    (h : gfInvert a n = .inverse b) : IsLeftInverse n b a := by
  obtain ⟨rows, hred, rfl⟩ := gfInvertFrom_reduced n 0 _ (Nat.zero_add n) (reduced_start hlen hrows) h
  intro i hi j hj
  have hb (r : Nat) : matGet (rows.map AugRow.b) i r = (rowAt rows i).b.getD r 0#8 := by
    simp [matGet, rowAt, List.getD, hred.length_eq, hi]
  rw [← hred.done i hi j hj, wAt, (hred.rowOf i hi).w_eq j hj, matMulAt]
  simp only [hb]

end Sys2Proof.Machine
end

