-- ==== Sys2Proof/Proofs/RoundTrip.lean ====
section
/-!
The round trip (R160): a survivor's byte is its row of EM times the data bytes, DM inverts those rows, and so each
recovery row gives back the byte its unit had in a consistent stripe.
-/
namespace Sys2Proof.Machine

/-! ### Recovery rows (R131) -/

/-- The inverse of the matrix that the survivors' bytes `v` came from gives back the data bytes `d`. -/
theorem xorSum_inverse_mul {n : Nat} {b a : Matrix} (hinv : IsLeftInverse n b a) {d v : Nat → Byte}
    (hv : ∀ r < n, v r = xorSum n fun j => gfMul (matGet a r j) (d j)) {i : Nat} (hi : i < n) :
    xorSum n (fun r => gfMul (matGet b i r) (v r)) = d i := by
  have hunit : xorSum n (fun j => gfMul (matMulAt n b a i j) (d j)) = d i := by
    rw [xorSum_congr fun j hj => by rw [hinv i hi j hj], xorSum_unit_mul hi]
  rw [xorSum_congr fun r hr => by rw [hv r hr], ← hunit]
  exact xorSum_mul_assoc n n _ _ _

/-- A recovery row gives back the data byte of a data unit, and the product of its row of EM for a parity unit. -/
theorem xorSum_recCoeff_mul {k : Nat} {em dm a : Matrix} (hinv : IsLeftInverse k dm a) {d v : Nat → Byte}
    (hv : ∀ r < k, v r = xorSum k fun j => gfMul (matGet a r j) (d j)) (e : Nat) :
    xorSum k (fun r => gfMul (recCoeff em dm k e r) (v r)) =
      if e < k then d e else xorSum k fun c => gfMul (matGet em e c) (d c) := by
  split
  · next he =>
    simp only [recCoeff, if_pos he]
    exact xorSum_inverse_mul hinv hv he
  · next he =>
    simp only [recCoeff, if_neg he]
    calc xorSum k (fun r => gfMul (xorSum k fun c => gfMul (matGet em e c) (matGet dm c r)) (v r))
        = xorSum k fun c => gfMul (matGet em e c) (xorSum k fun r => gfMul (matGet dm c r) (v r)) :=
          (xorSum_mul_assoc k k _ _ _).symm
      _ = xorSum k fun c => gfMul (matGet em e c) (d c) :=
          xorSum_congr fun c hc => by rw [xorSum_inverse_mul hinv hv hc]

/-! ### Consistent stripes -/

/-- In a consistent stripe every unit, data or parity, is its row of EM times the data units. -/
theorem State.unitAt_eq_of_consistent {s : State} (hv : s.emv = true) (henc : s.encInv) (hcons : s.consistent)
    {u o : Nat} (hu : u < s.nUnits) (ho : o < s.usize.toNat) :
    s.unitAt u o = xorSum s.kN fun j => gfMul (matGet s.em u j) (s.unitAt j o) := by
  obtain ⟨-, hem⟩ := henc hv
  by_cases hk : u < s.kN
  · rw [hem, xorSum_congr fun j hj => by rw [matGet_buildEncodeMatrix_data s.mN hk hj], xorSum_unit_mul hk]
  · exact hcons u (by omega) hu o ho

/-! ### DECODE on a consistent stripe -/

theorem State.unitAt_toNat (s : State) (u : Byte) (o : Nat) :
    s.unitAt u.toNat o = s.sbRead (sbAddr u (BitVec.ofNat 24 o)) := by
  simp [State.unitAt, unitByte]

theorem State.srvAt_mem (s : State) {r : Nat} (hr : r < s.srv.length) : s.srvAt r ∈ s.srv := by
  rw [State.srvAt, List.getD_eq_getElem _ _ hr]
  exact List.getElem_mem hr

/-- Rows of the matrix DM was inverted from (R28). -/
theorem State.matGet_survivorMatrix (s : State) {r j : Nat} (hr : r < s.srv.length) (hj : j < s.kN) :
    matGet s.survivorMatrix r j = matGet s.em (s.srvAt r).toNat j := by
  have hget : (s.srv.map BitVec.toNat)[r]'(by simpa using hr) = (s.srvAt r).toNat := by
    simp [State.srvAt, List.getD, hr]
  rw [State.survivorMatrix, matGet_selectRows _ _ _ (by simpa using hr) hj, hget]

/-- `t` is what is left of the stripe of `s` to decode: the same matrix, shape and set, an inverse of the rows of its K
survivors, and their bytes. -/
structure Decodable (s t : State) : Prop where
  shape : t = { s with dm := t.dm, srv := t.srv, dmv := t.dmv, sb := t.sb, replies := t.replies }
  srv_length : t.srv.length = t.kN
  inverse : IsLeftInverse t.kN t.dm t.survivorMatrix
  survivor_lt : ∀ r < t.kN, (t.srvAt r).toNat < t.nUnits
  survivor_eq : ∀ r < t.kN, ∀ o < t.usize.toNat, t.unitAt (t.srvAt r).toNat o = s.unitAt (t.srvAt r).toNat o

/-- DECODE restores the erased units of a consistent stripe. -/
theorem exec_decode_restores {bk : Datapath} {s t u : State} (hv : s.emv = true) (henc : s.encInv)
    (hcons : s.consistent) (hdec : Decodable s t) (h : exec (.decode bk) t = .next u) (hs : Succeeded t u) {e o : Nat}
    (he : s.eras.getLsbD e = true) (ho : o < s.usize.toNat) : u.unitAt e o = s.unitAt e o := by
  obtain ⟨hshape, hlen, hinv, hlt, heq⟩ := hdec
  obtain ⟨hc, -, rfl⟩ := exec_decode_succeeded h hs
  have hkN : t.kN = s.kN := by rw [hshape]; rfl
  have hnUnits : t.nUnits = s.nUnits := by rw [hshape]; rfl
  have hem : t.em = s.em := by rw [hshape]
  have husize : t.usize = s.usize := by rw [hshape]
  have heras : t.eras = s.eras := by rw [hshape]
  rw [← husize] at ho
  rw [← heras] at he
  have hunit (i : Nat) (hi : i < t.nUnits) :
      s.unitAt i o = xorSum t.kN fun j => gfMul (matGet t.em i j) (s.unitAt j o) := by
    rw [hkN, hem]
    exact State.unitAt_eq_of_consistent hv henc hcons (hnUnits ▸ hi) (husize ▸ ho)
  have hbyte (r : Nat) (hr : r < t.kN) : t.sbRead (sbAddr (t.srvAt r) (BitVec.ofNat 24 o)) =
      xorSum t.kN fun j => gfMul (matGet t.survivorMatrix r j) (s.unitAt j o) := by
    rw [← State.unitAt_toNat, heq r hr o ho, hunit _ (hlt r hr)]
    exact xorSum_congr fun j hj => by rw [t.matGet_survivorMatrix (hlen ▸ hr) hj]
  have hbelow : e < t.nUnits := (erasCheck_eq_ok_iff.1 hc).1 e (BitVec.lt_of_getLsbD he) he
  rw [State.unitAt, State.answered_sbRead, sbRead_decodeCells_erased hc he ho, dot, xorSum_recCoeff_mul hinv hbyte]
  split
  · rfl
  · exact (hunit e hbelow).symm

/-! ### MKDEC before it -/

theorem map_toNat_map_unitByte {l : List Nat} (h : ∀ u ∈ l, u < 256) : (l.map unitByte).map BitVec.toNat = l := by
  rw [List.map_map]
  exact (List.map_congr_left fun u hu => Nat.mod_eq_of_lt (h u hu)).trans (List.map_id l)

/-- What an MKDEC that succeeded leaves. -/
theorem exec_mkdec_succeeded {s t : State} (h : exec .mkdec s = .next t) (hs : Succeeded s t) :
    erasCheck s.kN s.mN s.eras = .ok ∧
      ∃ b, gfInvert (selectRows s.em s.kN (survivors s.kN s.mN s.eras)) s.kN = .inverse b ∧
        t = (s.loadDecode b ((survivors s.kN s.mN s.eras).map unitByte)).answered 0x0#4 0#24 := by
  rw [exec, execMkdec] at h
  split at h
  · exact absurd hs (not_succeeded_of_raise h)
  · split at h
    · exact absurd hs (not_succeeded_of_raise h)
    · exact absurd hs (not_succeeded_of_raise h)
    · next hc =>
      split at h
      · exact absurd hs (not_succeeded_of_raise h)
      · next b hb => exact ⟨hc, b, hb, (Host.Outcome.next.inj h).symm⟩

/-- A successful MKDEC writes DM, SRV and DMV; SRV is K units not in E, and DM inverts their rows of EM (R28, R29). -/
theorem exec_mkdec_inverts {s t : State} (hkm : s.nUnits ≤ 256) (h : exec .mkdec s = .next t) (hs : Succeeded s t) :
    t = { s with dm := t.dm, srv := t.srv, dmv := true, replies := t.replies } ∧ t.srv.length = t.kN ∧
      (∀ v ∈ t.srv, v.toNat < t.nUnits ∧ t.eras.getLsbD v.toNat = false) ∧
      IsLeftInverse t.kN t.dm t.survivorMatrix := by
  obtain ⟨hc, b, hb, rfl⟩ := exec_mkdec_succeeded h hs
  have hlen : (survivors s.kN s.mN s.eras).length = s.kN := survivors_length (erasCheck_eq_ok_iff.1 hc).2
  have hsrv : ((survivors s.kN s.mN s.eras).map unitByte).map BitVec.toNat = survivors s.kN s.mN s.eras :=
    map_toNat_map_unitByte fun u hu => (mem_survivors hu).1.trans_le hkm
  refine ⟨rfl, (List.length_map _).trans hlen, fun v hv => mem_survivors (hsrv ▸ List.mem_map_of_mem hv), ?_⟩
  have hleft := gfInvert_isLeftInverse ((List.length_map _).trans hlen) (by simp) hb
  rw [← hsrv] at hleft
  exact hleft

/-- After units of E were lost, MKDEC leaves what DECODE needs: the survivors are not in E, so their bytes are there. -/
theorem decodable_of_mkdec {s lost t : State} (hkm : s.nUnits ≤ 256) (hlost : LostOnly s lost)
    (h : exec .mkdec lost = .next t) (hs : Succeeded lost t) : Decodable s t := by
  obtain ⟨hshape, hkept⟩ := hlost
  have hbound : lost.nUnits ≤ 256 := by rw [hshape]; exact hkm
  obtain ⟨hwritten, hlen, hsrv, hinv⟩ := exec_mkdec_inverts hbound h hs
  have hsurvivor (r : Nat) (hr : r < t.kN) := hsrv _ (t.srvAt_mem (hlen ▸ hr))
  have hall : t = { s with dm := t.dm, srv := t.srv, dmv := t.dmv, sb := t.sb, replies := t.replies } := by
    rw [hwritten, hshape]
  refine ⟨hall, hlen, hinv, fun r hr => (hsurvivor r hr).1, fun r hr o ho => ?_⟩
  obtain ⟨hlt, hnot⟩ := hsurvivor r hr
  have hkeep : t.unitAt (t.srvAt r).toNat o = lost.unitAt (t.srvAt r).toNat o :=
    (congrArg (State.unitAt · (t.srvAt r).toNat o) hwritten :)
  rw [hall] at hlt hnot ho
  rw [hkeep]
  exact hkept _ hlt hnot o ho

/-! ### The claim -/

/-- Settles O30: MKDEC leaves an inverse of the survivors' rows, and DECODE tests E and SRV but not the stripe. -/
theorem roundTripRestoresLostUnits : Obligations.RoundTripRestoresLostUnits := by
  refine ⟨fun s hv hc hsrv => ⟨_, exec_decode_completes hv hc (erasedSurvivor_eq_none_iff.2 hsrv)
    (accessCheck_software s _), succeeded_answered rfl⟩, ?_⟩
  intro bk s lost t u hv henc hcons _ hlost hmk hmks hdec hdecs e he o ho
  have hkm : s.nUnits ≤ 256 := ((legalParams_iff _ _).1 (henc hv).1).2.2
  exact exec_decode_restores hv henc hcons (decodable_of_mkdec hkm hlost hmk hmks) hdec hdecs he ho

end Sys2Proof.Machine
end

