-- ==== Sys2Proof/Proofs/ControlCommands.lean ====
section
/-!
The control commands (R170 to R179): their words, the bits of the erasure set and of the views they read, how each ends,
and what every other command does to HALT.
-/
namespace Sys2Proof.Machine

/-! ### Their words (R82, R85) -/

theorem encodeA1_low16 (o a : Byte) : (encodeA1 o a).extractLsb' 0 16 = 0#16 := BitVec.extractLsb'_append_eq_right

theorem decode_setus (n : BitVec 24) : decode (encode (.setus n)) = .ok (.setus n) := by
  rw [encode, decode, opcOf_encodeW]
  exact congrArg (Except.ok ∘ Instr.setus) (payloadOf_encodeW _ n)

theorem decode_erasset (a : Byte) : decode (encode (.erasset a)) = .ok (.erasset a) := by
  rw [encode, decode, opcOf_encodeA1]
  exact decodeA1_encodeA1 _ a _

theorem decode_erasdel (a : Byte) : decode (encode (.erasdel a)) = .ok (.erasdel a) := by
  rw [encode, decode, opcOf_encodeA1]
  exact decodeA1_encodeA1 _ a _

theorem decodeRderr_encodeA1 (o a : Byte) :
    decodeRderr (encodeA1 o a) = if a.toNat ≤ 1 then .ok (.rderr a) else .error .selectorOutOfRange := by
  rw [decodeRderr, if_pos (encodeA1_low16 o a), fieldA_encodeA1]

theorem decodeRderas_encodeA1 (o a : Byte) :
    decodeRderas (encodeA1 o a) = if a.toNat ≤ 31 then .ok (.rderas a) else .error .byteIndexOutOfRange := by
  rw [decodeRderas, if_pos (encodeA1_low16 o a), fieldA_encodeA1]

theorem decode_rderr (a : Byte) :
    decode (encode (.rderr a)) = if a.toNat ≤ 1 then .ok (.rderr a) else .error .selectorOutOfRange := by
  rw [encode, decode, opcOf_encodeA1]
  exact decodeRderr_encodeA1 _ a

theorem decode_rderas (a : Byte) :
    decode (encode (.rderas a)) = if a.toNat ≤ 31 then .ok (.rderas a) else .error .byteIndexOutOfRange := by
  rw [encode, decode, opcOf_encodeA1]
  exact decodeRderas_encodeA1 _ a

/-! ### The erasure set, bit by bit (R171 to R173, R178) -/

theorem unitMask_getLsbD (a : Byte) (u : Nat) : (1#256 <<< a.toNat).getLsbD u = decide (u = a.toNat) := by
  have ha : a.toNat < 256 := a.isLt
  rw [← BitVec.twoPow_eq, BitVec.getLsbD_twoPow, decide_eq_true ha, Bool.true_and]
  exact decide_eq_decide.2 eq_comm

theorem erasInsert_getLsbD (e : BitVec 256) (a : Byte) (u : Nat) :
    (erasInsert e a).getLsbD u = (decide (u = a.toNat) || e.getLsbD u) := by
  rw [erasInsert, BitVec.getLsbD_or, unitMask_getLsbD, Bool.or_comm]

theorem erasRemove_getLsbD (e : BitVec 256) (a : Byte) {u : Nat} (hu : u < 256) :
    (erasRemove e a).getLsbD u = (!decide (u = a.toNat) && e.getLsbD u) := by
  rw [erasRemove, BitVec.getLsbD_and, BitVec.getLsbD_not, unitMask_getLsbD, decide_eq_true hu, Bool.true_and,
    Bool.and_comm]

theorem zext24_getLsbD (d : Byte) (i : Nat) : (zext24 d).getLsbD i = d.getLsbD i := by
  rw [zext24_eq_append, BitVec.getLsbD_append]
  split
  · rfl
  · rw [BitVec.getLsbD_zero, BitVec.getLsbD_of_ge d i (by omega)]

theorem erasByte_getLsbD (e : BitVec 256) (a : Byte) (i : Nat) :
    (erasByte e a).getLsbD i = (decide (i < 8) && e.getLsbD (8 * a.toNat + i)) :=
  BitVec.getLsbD_extractLsb' _ _ _ _

/-! ### The views (R34, R176) -/

theorem bit_getLsbD_zero (b : Bool) : (bit b).getLsbD 0 = b := by simp [bit]

theorem statusView_flags (s : State) :
    (statusView s).getLsbD 0 = s.emv ∧ (statusView s).getLsbD 1 = s.dmv ∧ (statusView s).getLsbD 2 = s.halt ∧
      (statusView s).getLsbD 3 = s.pending := by
  rw [statusView]
  refine ⟨?_, ?_, ?_, ?_⟩
  all_goals
    repeat rw [BitVec.getLsbD_append]
    exact bit_getLsbD_zero _

theorem statusView_fields (s : State) :
    (statusView s).extractLsb' 4 4 = s.err.kind ∧ (statusView s).extractLsb' 8 8 = s.k ∧
      (statusView s).extractLsb' 16 8 = s.m := by
  rw [statusView]
  refine ⟨?_, ?_, ?_⟩
  all_goals repeat rw [BitVec.extractLsb'_append_eq_of_le (by decide)]
  · exact BitVec.extractLsb'_append_eq_right
  · exact BitVec.extractLsb'_append_eq_right
  · exact BitVec.extractLsb'_eq_self

theorem errView0_halt (s : State) : (errView0 s).getLsbD 4 = s.halt := by
  rw [errView0, BitVec.getLsbD_append, BitVec.getLsbD_append]
  exact bit_getLsbD_zero _

theorem errView0_fields (s : State) :
    (errView0 s).extractLsb' 0 4 = s.err.kind ∧ (errView0 s).extractLsb' 5 3 = 0#3 ∧
      (errView0 s).extractLsb' 8 8 = s.err.op ∧ (errView0 s).extractLsb' 16 8 = 0#8 := by
  rw [errView0]
  refine ⟨BitVec.extractLsb'_append_eq_right, ?_, ?_, ?_⟩
  all_goals repeat rw [BitVec.extractLsb'_append_eq_of_le (by decide)]
  · exact BitVec.extractLsb'_append_eq_right
  · exact BitVec.extractLsb'_append_eq_right
  · exact BitVec.extractLsb'_eq_self

theorem errView1_fields (s : State) :
    (errView1 s).extractLsb' 12 12 = s.err.info0 ∧ (errView1 s).extractLsb' 0 12 = s.err.info1 :=
  ⟨BitVec.extractLsb'_append_eq_left, BitVec.extractLsb'_append_eq_right⟩

theorem errView0_none {s : State} (he : s.err = ErrRecord.none) (hh : s.halt = false) : errView0 s = 0#24 := by
  rw [errView0, he, hh]
  decide

theorem errView1_none {s : State} (he : s.err = ErrRecord.none) : errView1 s = 0#24 := by
  rw [errView1, he]
  decide

/-! ### How each control command ends -/

section Ends
variable (s : State)

theorem exec_setus (n : BitVec 24) : exec (.setus n) s = .next ((s.setUsize n).answered 0x0#4 0#24) :=
  respond_eq_answered _ _

theorem exec_erasclr : exec .erasclr s = .next ((s.setEras 0#256).answered 0x0#4 0#24) :=
  respond_eq_answered _ _

theorem exec_erasset (a : Byte) :
    exec (.erasset a) s = .next ((s.setEras (erasInsert s.eras a)).answered 0x0#4 0#24) :=
  respond_eq_answered _ _

theorem exec_erasdel (a : Byte) :
    exec (.erasdel a) s = .next ((s.setEras (erasRemove s.eras a)).answered 0x0#4 0#24) :=
  respond_eq_answered _ _

theorem exec_clrerr : exec .clrerr s = .next (s.clearErr.answered 0x0#4 0#24) := respond_eq_answered _ _

theorem exec_rdstat : exec .rdstat s = .next (s.answered 0x0#4 (statusView s)) := respond_eq_answered _ s

theorem exec_rderr_zero : exec (.rderr 0#8) s = .next (s.answered 0x0#4 (errView0 s)) := respond_eq_answered _ s

theorem exec_rderr_one : exec (.rderr 1#8) s = .next (s.answered 0x0#4 (errView1 s)) := respond_eq_answered _ s

theorem exec_rderas {a : Byte} (ha : a.toNat ≤ 31) :
    exec (.rderas a) s = .next (s.answered 0x0#4 (zext24 (erasByte s.eras a))) :=
  (if_pos ha).trans (respond_eq_answered _ s)

theorem exec_rdus : exec .rdus s = .next (s.answered 0x0#4 s.usize) := respond_eq_answered _ s

/-! ### ERR and HALT under the other commands (R32, R33, R211) -/

/-- How a command other than CLRERR and SRESET can end, as ERR and HALT see it: it responds and leaves both, or it
raises. -/
inductive RecordEnd : Result → Prop where
  | responds (d : BitVec 24) (t : State) (herr : t.err = s.err) (hhalt : t.halt = s.halt) : RecordEnd (respond d t)
  | raises (x : ErrorKind) (op : Byte) (i0 i1 : BitVec 12) : RecordEnd (raise x op i0 i1 s)

variable {s}

theorem RecordEnd.badCommand (w : Word) : RecordEnd s (raiseBadCommand w s) := .raises .badCommand _ _ _

theorem RecordEnd.ite {r q : Result} {c : Prop} [Decidable c] (hr : RecordEnd s r) (hq : RecordEnd s q) :
    RecordEnd s (if c then r else q) := by
  split
  · exact hr
  · exact hq

theorem execMkdec_recordEnd : RecordEnd s (execMkdec s) := by
  refine .ite (.raises _ _ _ _) ?_
  split
  · exact .raises _ _ _ _
  · exact .raises _ _ _ _
  · split
    · exact .raises _ _ _ _
    · exact .responds _ _ rfl rfl

theorem execEncode_recordEnd (bk : Datapath) : RecordEnd s (execEncode bk s) := by
  refine .ite (.raises _ _ _ _) ?_
  split
  · exact .raises _ _ _ _
  · exact .responds _ _ rfl rfl

theorem execDecode_recordEnd (bk : Datapath) : RecordEnd s (execDecode bk s) := by
  refine .ite (.raises _ _ _ _) ?_
  split
  · exact .raises _ _ _ _
  · exact .raises _ _ _ _
  · split
    · exact .raises _ _ _ _
    · split
      · exact .raises _ _ _ _
      · exact .responds _ _ rfl rfl

/-- Only CLRERR and SRESET write ERR or HALT without raising. -/
theorem exec_recordEnd {i : Instr} (hclr : i ≠ .clrerr) (hres : i ≠ .sreset) : RecordEnd s (exec i s) := by
  cases i with
  | clrerr => exact absurd rfl hclr
  | sreset => exact absurd rfl hres
  | mkdec => exact execMkdec_recordEnd
  | encode bk => exact execEncode_recordEnd bk
  | decode bk => exact execDecode_recordEnd bk
  | mkenc => exact .ite (.responds _ _ rfl rfl) (.raises _ _ _ _)
  | gfdiv | gfinv => exact .ite (.raises _ _ _ _) (.responds _ _ rfl rfl)
  | rdenc | rddec | rdsrv => exact .ite (.raises _ _ _ _) (.ite (.badCommand _) (.responds _ _ rfl rfl))
  | rderr => exact .ite (.responds _ _ rfl rfl) (.ite (.responds _ _ rfl rfl) (.badCommand _))
  | rderas => exact .ite (.responds _ _ rfl rfl) (.badCommand _)
  | gfmul | gfpow | setus | erasclr | erasset | erasdel | rdstat | rdus => exact .responds _ _ rfl rfl

/-- Every command but SRESET keeps HALT = 1 (R33). -/
theorem exec_keeps_halt {i : Instr} {t : State} (hres : i ≠ .sreset) (h : exec i s = .next t) (hs : s.halt = true) :
    t.halt = true := by
  by_cases hclr : i = .clrerr
  · subst hclr
    cases (exec_clrerr s).symm.trans h
    exact hs
  · have hend := exec_recordEnd (s := s) hclr hres
    rw [h] at hend
    cases hend with
    | responds d u herr hhalt => exact hhalt.trans hs
    | raises x op i0 i1 => rw [State.reply_halt, State.recordError_halt, hs, Bool.true_or]

end Ends

/-! ### CLRERR and SRESET at the gate (R213) -/

/-- A command that the gate does not accept is refused while an error is pending. -/
theorem runWord_refused {w : Word} {i : Instr} {s : State} (hd : decode w = .ok i) (hk : s.err.kind ≠ 0#4)
    (hacc : acceptedWhilePending s.halt i = false) : runWord w s = .next (s.answered 0xF#4 0#24) := by
  rw [runWord_ok hd, s.pending_iff.2 hk, hacc]
  exact refuse_eq_answered s

/-- A command that the gate always accepts runs in every state. -/
theorem runWord_accepted {w : Word} {i : Instr} {s : State} (hd : decode w = .ok i)
    (hacc : acceptedWhilePending s.halt i = true) : runWord w s = exec i s := by
  rw [runWord_ok hd, hacc, Bool.not_true, Bool.and_false, if_neg Bool.false_ne_true]

theorem decode_clrerr : decode 0x44000000#32 = .ok .clrerr := by decide

theorem decode_sreset : decode 0x47000000#32 = .ok .sreset := by decide

/-! ### The claims -/

/-- Settles O31: each command responds in every state, and the set's bits are those of its masks. -/
theorem operandSetUpComplete : Obligations.OperandSetUpComplete := fun n a s =>
  ⟨decode_setus n, by decide, decode_erasset a, decode_erasdel a, exec_setus s n,
    ⟨0#256, exec_erasclr s, fun _ _ => BitVec.getLsbD_zero⟩,
    ⟨erasInsert s.eras a, exec_erasset s a, fun u _ => erasInsert_getLsbD s.eras a u⟩,
    ⟨erasRemove s.eras a, exec_erasdel s a, fun _ hu => erasRemove_getLsbD s.eras a hu⟩⟩

/-- Settles O32: every other command keeps a set HALT, and the gate refuses CLRERR at HALT = 1 and SRESET never. -/
theorem clrerrSresetComplete : Obligations.ClrerrSresetComplete := by
  refine ⟨decode_clrerr, decode_sreset, fun i s t h hs ht => ?_, fun s rest => ⟨exec_clrerr s, ?_, ?_, ?_⟩⟩
  · by_contra hres
    exact Bool.false_ne_true (ht.symm.trans (exec_keeps_halt hres h hs))
  · intro hin hk hhalt
    rw [step_command hin]
    exact runWord_refused decode_clrerr hk (congrArg not hhalt)
  · exact ⟨_, exec_sreset s, rfl, matricesUnreadable_of_invalid rfl rfl⟩
  · intro hin
    rw [step_command hin]
    exact runWord_accepted decode_sreset rfl

/-- Settles O33: the answer is the status view, read off its concatenation. -/
theorem rdstatShowsStatus : Obligations.RdstatShowsStatus := by
  refine ⟨by decide, fun s => ⟨statusView s, exec_rdstat s, ?_⟩⟩
  obtain ⟨hemv, hdmv, hhalt, hpend⟩ := statusView_flags s
  exact ⟨hemv, hdmv, hhalt, hpend, statusView_fields s⟩

/-- Settles O34: the two views, read off their concatenations; a selector above 1 is rejected by the decoder. -/
theorem rderrShowsErrorRecord : Obligations.RderrShowsErrorRecord := by
  refine ⟨by decide, by decide, fun a ha => ?_, fun s he hh => ⟨?_, ?_⟩, fun s => ?_⟩
  · exact ⟨_, (decode_rderr a).trans (if_neg (by omega))⟩
  · rw [exec_rderr_zero, errView0_none he hh]
  · rw [exec_rderr_one, errView1_none he]
  · obtain ⟨hkind, hrest⟩ := errView0_fields s
    exact ⟨⟨_, exec_rderr_zero s, hkind, errView0_halt s, hrest⟩, _, exec_rderr_one s, errView1_fields s⟩

/-- Settles O35: byte a of ERAS widened by zeros; the bound on a is the decoder's and the command's alike. -/
theorem rderasRdusComplete : Obligations.RderasRdusComplete := by
  refine ⟨by decide, fun a s => ⟨exec_rdus s, fun ha => ?_, fun ha => ?_⟩⟩
  · exact ⟨_, (decode_rderas a).trans (if_neg (by omega))⟩
  · refine ⟨(decode_rderas a).trans (if_pos ha), _, exec_rderas s ha, fun i hi => ?_, fun i hi => ?_⟩
    · rw [zext24_getLsbD, erasByte_getLsbD, decide_eq_true hi, Bool.true_and]
    · rw [zext24_getLsbD, BitVec.getLsbD_of_ge _ i hi]

end Sys2Proof.Machine
end

