-- ==== Sys2Proof/Proofs/LegalWords.lean ====
section
/-!
A legal word is the word of the command it decodes to (R82, R85, R89), format by format.
-/
namespace Sys2Proof

section Formats
variable {w : Word} {o : Byte} {i : Instr}

/-! ### A word from its fields (R82) -/

theorem encodeW_fields (w : Word) : encodeW (opcOf w) (payloadOf w) = w := by
  have hw := w.isLt
  apply BitVec.eq_of_toNat_eq
  rw [encodeW_toNat, opcOf_toNat, payloadOf_toNat]
  omega

theorem encodeP_fields (w : Word) : encodeP (opcOf w) (fieldHi12 w) (fieldLo12 w) = w := by
  have hw := w.isLt
  apply BitVec.eq_of_toNat_eq
  rw [encodeP_toNat, opcOf_toNat, fieldHi12_toNat, fieldLo12_toNat]
  omega

theorem encodeZ_fields (hrz : w.extractLsb' 0 24 = 0#24) : encodeZ (opcOf w) = w := by
  rw [encodeZ, ← hrz]
  exact encodeW_fields w

theorem encodeA1_fields (hrz : w.extractLsb' 0 16 = 0#16) : encodeA1 (opcOf w) (fieldA w) = w := by
  have hw := w.isLt
  have hlow : w.toNat % 2 ^ 16 = 0 := by simpa using congrArg BitVec.toNat hrz
  apply BitVec.eq_of_toNat_eq
  rw [encodeA1_toNat, opcOf_toNat, fieldA_toNat]
  omega

theorem encodeA2_fields (hrz : w.extractLsb' 0 8 = 0#8) : encodeA2 (opcOf w) (fieldA w) (fieldB w) = w := by
  have hw := w.isLt
  have hlow : w.toNat % 2 ^ 8 = 0 := by simpa using congrArg BitVec.toNat hrz
  apply BitVec.eq_of_toNat_eq
  rw [encodeA2_toNat, opcOf_toNat, fieldA_toNat, fieldB_toNat]
  omega

theorem bkOf_datapathOf (b : BitVec 1) : bkOf (datapathOf b) = b := by
  revert b
  decide

theorem encodeF_fields (hrz : w.extractLsb' 1 23 = 0#23) :
    encodeF (opcOf w) (datapathOf (w.extractLsb' 0 1)) = w := by
  have hw := w.isLt
  have hmid : w.toNat / 2 % 2 ^ 23 = 0 := by
    simpa [Nat.shiftRight_eq_div_pow] using congrArg BitVec.toNat hrz
  apply BitVec.eq_of_toNat_eq
  rw [encodeF_toNat, bkOf_datapathOf, opcOf_toNat, BitVec.extractLsb'_toNat, Nat.shiftRight_zero]
  omega

/-! ### What each format's decoder accepts (R85) -/

/-- A check that rejects with an error has passed where the outcome is `.ok`. -/
theorem ok_of_ite_error {c : Prop} [Decidable c] {r : Except DecodeError Instr} {e : DecodeError}
    (h : (if c then r else .error e) = .ok i) : c ∧ r = .ok i := by
  split at h
  · exact ⟨‹c›, h⟩
  · cases h

theorem encode_of_decodeZ {j : Instr} (ho : opcOf w = o) (hj : encode j = encodeZ o) (h : decodeZ w j = .ok i) :
    encode i = w := by
  obtain ⟨hrz, hi⟩ := ok_of_ite_error h
  cases hi
  rw [hj, ← ho, encodeZ_fields hrz]

theorem encode_of_decodeA1 {f : Byte → Instr} (ho : opcOf w = o) (hf : ∀ a, encode (f a) = encodeA1 o a)
    (h : decodeA1 w f = .ok i) : encode i = w := by
  obtain ⟨hrz, hi⟩ := ok_of_ite_error h
  cases hi
  rw [hf, ← ho, encodeA1_fields hrz]

theorem encode_of_decodeA2 {f : Byte → Byte → Instr} (ho : opcOf w = o)
    (hf : ∀ a b, encode (f a b) = encodeA2 o a b) (h : decodeA2 w f = .ok i) : encode i = w := by
  obtain ⟨hrz, hi⟩ := ok_of_ite_error h
  cases hi
  rw [hf, ← ho, encodeA2_fields hrz]

theorem encode_of_decodeP {f : BitVec 12 → BitVec 12 → Instr} (ho : opcOf w = o)
    (hf : ∀ k m, encode (f k m) = encodeP o k m) (h : decodeP w f = .ok i) : encode i = w := by
  cases h
  rw [hf, ← ho, encodeP_fields]

theorem encode_of_decodeW {f : BitVec 24 → Instr} (ho : opcOf w = o) (hf : ∀ n, encode (f n) = encodeW o n)
    (h : decodeW w f = .ok i) : encode i = w := by
  cases h
  rw [hf, ← ho, encodeW_fields]

theorem encode_of_decodeF {f : Datapath → Instr} (ho : opcOf w = o) (hf : ∀ bk, encode (f bk) = encodeF o bk)
    (h : decodeF w f = .ok i) : encode i = w := by
  obtain ⟨hrz, hi⟩ := ok_of_ite_error h
  cases hi
  rw [hf, ← ho, encodeF_fields hrz]

/-- RDERR's decoder accepts what format A1 accepts, with a bound on the selector (R85 (c)). -/
theorem decodeA1_of_decodeRderr (h : decodeRderr w = .ok i) : decodeA1 w .rderr = .ok i := by
  obtain ⟨hrz, hbound⟩ := ok_of_ite_error h
  obtain ⟨-, hi⟩ := ok_of_ite_error hbound
  exact (if_pos hrz).trans hi

/-- RDERAS's decoder accepts what format A1 accepts, with a bound on the byte index (R85 (d)). -/
theorem decodeA1_of_decodeRderas (h : decodeRderas w = .ok i) : decodeA1 w .rderas = .ok i := by
  obtain ⟨hrz, hbound⟩ := ok_of_ite_error h
  obtain ⟨-, hi⟩ := ok_of_ite_error hbound
  exact (if_pos hrz).trans hi

end Formats

/-- A legal word is the one word of its command: the decoder drops no bit (R89). The rows of R84 are grouped by format. -/
theorem encode_of_decode {w : Word} {i : Instr} (h : decode w = .ok i) : encode i = w := by
  unfold decode at h
  split at h
  case h_6 | h_13 | h_16 | h_17 | h_19 | h_21 => exact encode_of_decodeZ ‹_› rfl h
  case h_3 | h_9 | h_14 | h_15 => exact encode_of_decodeA1 ‹_› (fun _ => rfl) h
  case h_1 | h_2 | h_4 | h_7 | h_8 => exact encode_of_decodeA2 ‹_› (fun _ _ => rfl) h
  case h_5 => exact encode_of_decodeP ‹_› (fun _ _ => rfl) h
  case h_12 => exact encode_of_decodeW ‹_› (fun _ => rfl) h
  case h_10 | h_11 => exact encode_of_decodeF ‹_› (fun _ => rfl) h
  case h_18 => exact encode_of_decodeA1 ‹_› (fun _ => rfl) (decodeA1_of_decodeRderr h)
  case h_20 => exact encode_of_decodeA1 ‹_› (fun _ => rfl) (decodeA1_of_decodeRderas h)
  case h_22 => cases h

end Sys2Proof
end

