-- ==== Sys2Proof/Proofs/PendingErrors.lean ====
section
/-!
The gate while an error is pending (R212, R213, R214): which commands it accepts, and that of these only CLRERR and SRESET
write the record.
-/
namespace Sys2Proof.Machine

/-! ### The gate in the words of R213 -/

theorem acceptedWhilePending_iff (halt : Bool) (i : Instr) :
    acceptedWhilePending halt i = true ↔
      mnemonicOf i ∈ ["RDSTAT", "RDERR", "RDERAS", "RDUS", "SRESET"] ∨ (mnemonicOf i = "CLRERR" ∧ halt = false) := by
  cases i with
  | clrerr => simp [acceptedWhilePending, mnemonicOf]
  | rdstat | rderr | sreset | rderas | rdus => exact iff_of_true rfl (.inl (by simp [mnemonicOf]))
  | _ => exact iff_of_false Bool.false_ne_true (by simp [mnemonicOf])

/-- With no error pending every legal word runs (R214). -/
theorem runWord_not_pending {w : Word} {i : Instr} {s : State} (hd : decode w = .ok i) (hk : s.err.kind = 0#4) :
    runWord w s = exec i s := by
  rw [runWord_ok hd, s.not_pending_iff.2 hk, Bool.false_and, if_neg Bool.false_ne_true]

/-- Settles O37: the four answers of the gate to a command word. -/
theorem gateRefusesWhilePending : Obligations.GateRefusesWhilePending := by
  intro s w rest hin
  rw [step_command hin]
  refine ⟨fun i hd hrun => ?_, fun i hd hk hmem hclr => ?_, fun x hd hk => ?_, fun x hd hk => ?_⟩
  · rcases hrun with hk | hacc
    · exact runWord_not_pending hd hk
    · exact runWord_accepted hd ((acceptedWhilePending_iff s.halt i).2 hacc)
  · refine runWord_refused hd hk (Bool.eq_false_iff.2 fun hacc => ?_)
    exact ((acceptedWhilePending_iff s.halt i).1 hacc).elim hmem hclr
  · exact runWord_illegal_pending hd hk
  · exact runWord_illegal hd hk

/-! ### The record while an error is pending (R212) -/

theorem exec_rderr_le_one {a : Byte} (ha : a.toNat ≤ 1) (s : State) :
    ∃ d, exec (.rderr a) s = .next (s.answered 0x0#4 d) := by
  obtain rfl | rfl : a = 0#8 ∨ a = 1#8 := by bv_omega
  · exact ⟨_, exec_rderr_zero s⟩
  · exact ⟨_, exec_rderr_one s⟩

/-- A legal word that the gate accepts is CLRERR's or SRESET's, or it reads: RDERR and RDERAS have no legal word that
could raise BadCommand. -/
theorem exec_of_accepted {w : Word} {i : Instr} {s : State} (hd : decode w = .ok i)
    (hacc : acceptedWhilePending s.halt i = true) :
    (i = .clrerr ∧ s.halt = false) ∨ i = .sreset ∨ ∃ d, exec i s = .next (s.answered 0x0#4 d) := by
  have hlegal : decode (encode i) = .ok i := by rw [encode_of_decode hd, hd]
  cases i with
  | clrerr => exact .inl ⟨rfl, by simpa [acceptedWhilePending] using hacc⟩
  | sreset => exact .inr (.inl rfl)
  | rdstat => exact .inr (.inr ⟨_, exec_rdstat s⟩)
  | rdus => exact .inr (.inr ⟨_, exec_rdus s⟩)
  | rderr a =>
    rw [decode_rderr] at hlegal
    split at hlegal
    next ha => exact .inr (.inr (exec_rderr_le_one ha s))
    next => cases hlegal
  | rderas a =>
    rw [decode_rderas] at hlegal
    split at hlegal
    next ha => exact .inr (.inr ⟨_, exec_rderas s ha⟩)
    next => cases hlegal
  | _ => exact absurd hacc Bool.false_ne_true

/-- An outcome has one next state: a record that differs in `t` differs in `u`. -/
theorem err_ne_of_next {r : Result} {t u : State} {e : ErrRecord} (ht : r = .next t) (hne : t.err ≠ e)
    (hu : r = .next u) : u.err ≠ e := by
  cases hu.symm.trans ht
  exact hne

/-- A command word that changes the record of a pending error is CLRERR's, with HALT = 0, or SRESET's. -/
theorem runWord_changes_err {w : Word} {s t : State} (hk : s.err.kind ≠ 0#4) (h : runWord w s = .next t)
    (hne : t.err ≠ s.err) : (w = 0x44000000#32 ∧ s.halt = false) ∨ w = 0x47000000#32 := by
  cases hd : decode w with
  | error x => exact (err_ne_of_next h hne (runWord_illegal_pending hd hk) rfl).elim
  | ok i =>
    cases hacc : acceptedWhilePending s.halt i with
    | false => exact (err_ne_of_next h hne (runWord_refused hd hk hacc) rfl).elim
    | true =>
      rw [← encode_of_decode hd]
      obtain ⟨rfl, hhalt⟩ | rfl | ⟨d, hread⟩ := exec_of_accepted hd hacc
      · exact .inl ⟨by decide, hhalt⟩
      · exact .inr (by decide)
      · exact (err_ne_of_next h hne ((runWord_accepted hd hacc).trans hread) rfl).elim

/-- Settles O40: the host's other moves leave ERR, and a command word goes through the gate. -/
theorem firstErrorStays : Obligations.FirstErrorStays := by
  intro s t hk hstep hne
  rcases step_cases s with ⟨-, h⟩ | ⟨rest, ⟨w, hin, h⟩ | ⟨a, v, -, h⟩ | ⟨a, -, h⟩ | ⟨a, -, h⟩ | ⟨hin, -⟩⟩
  · exact (err_ne_of_next hstep hne h rfl).elim
  · refine ⟨rest, ?_⟩
    obtain ⟨rfl, hhalt⟩ | rfl := runWord_changes_err (s := s.setInbox rest) hk (h.symm.trans hstep) hne
    · exact .inl ⟨hin, hhalt⟩
    · exact .inr (.inl hin)
  · exact (err_ne_of_next hstep hne h rfl).elim
  · exact (err_ne_of_next hstep hne h rfl).elim
  · exact (err_ne_of_next hstep hne h rfl).elim
  · exact ⟨rest, .inr (.inr hin)⟩

end Sys2Proof.Machine
end

