-- ==== Sys2Proof/Proofs/FieldLaws.lean ====
section
/-!
The bytes are a field (R101, R104): its laws, the generator 0x02, and that every residue modulo GF_POLY is a byte's, so
that GF_POLY is irreducible.
-/
namespace Sys2Proof.Machine
open Polynomial

/-! ### The laws of the product (R104) -/

theorem gfMul_xor (a b c : Byte) : gfMul a (b ^^^ c) = gfMul a b ^^^ gfMul a c :=
  gfElem_injective (by simp [mul_add])

/-- A product with a nonzero byte is undone by its inverse. -/
theorem gfMul_eq_zero {a b : Byte} (h : gfMul a b = 0x00#8) : a = 0x00#8 ∨ b = 0x00#8 := by
  by_contra! hne
  have ha := (gfMul_eq_iff_eq_gfMul_gfInv hne.2 _ a).1 h
  rw [gfMul_comm, gfMul_zero] at ha
  exact hne.1 ha

/-- Settles O2: each law is the one of the residues, and the inverse of a nonzero byte is its one quotient of 1. -/
theorem gfMulFieldLaws : Obligations.GfMulFieldLaws := fun a b c =>
  ⟨gfMul_comm a b, gfMul_assoc a b c, gfMul_xor a b c, gfMul_one a, gfMul_zero a, gfMul_eq_zero,
    fun ha => ⟨gfInv a, gfMul_gfInv ha, fun d => (gfMul_eq_one_iff ha d).1⟩⟩

/-- Settles O5: the first 255 powers of 0x02 are distinct, and as many as the nonzero bytes. -/
theorem twoHasOrder255 : Obligations.TwoHasOrder255 := fun a ha => by
  obtain ⟨n, hn, rfl⟩ := exists_gfPow_two_eq ha
  exact ⟨n, ⟨hn, rfl⟩, fun m hm => gfPow_two_injOn hm.1 hn hm.2⟩

/-! ### Every residue is a byte's -/

/-- The byte of the first eight coefficients of a polynomial (R100). -/
def byteOfPoly (p : (ZMod 2)[X]) : Byte := BitVec.ofFnLE fun i : Fin 8 => decide (p.coeff i = 1)

theorem bytePoly_byteOfPoly {p : (ZMod 2)[X]} (hp : p.degree < (8 : Nat)) : bytePoly (byteOfPoly p) = p := by
  have hbit (c : ZMod 2) : (if c = 1 then 1 else 0) = c := by
    revert c
    decide
  ext i
  rw [bytePoly_coeff, byteOfPoly, BitVec.getLsbD_ofFnLE]
  split
  · simp only [decide_eq_true_eq, hbit]
  · next hi => simp [coeff_eq_zero_of_degree_lt (hp.trans_le (Nat.cast_le.2 (Nat.le_of_not_lt hi)))]

theorem gfElem_surjective : Function.Surjective gfElem := fun x =>
  ⟨byteOfPoly (AdjoinRoot.modByMonicHom gfPoly_monic x), by
    have hdeg : (AdjoinRoot.modByMonicHom gfPoly_monic x).degree < (8 : Nat) := by
      obtain ⟨p, rfl⟩ := AdjoinRoot.mk_surjective x
      rw [AdjoinRoot.modByMonicHom_mk, ← gfPoly_degree]
      exact degree_modByMonic_lt _ gfPoly_monic
    rw [gfElem, bytePoly_byteOfPoly hdeg, AdjoinRoot.mk_leftInverse gfPoly_monic x]⟩

/-! ### GF_POLY is irreducible (R101) -/

theorem gfElem_eq_zero {a : Byte} : gfElem a = 0 ↔ a = 0x00#8 := by rw [← gfElem_zero, gfElem_inj]

/-- Residues have no zero divisors, since bytes have none. -/
theorem gfPoly_prime : Prime gfPoly := by
  refine ⟨gfPoly_monic.ne_zero, fun hunit => ?_, fun p q hdvd => ?_⟩
  · have hdeg := degree_eq_zero_of_isUnit hunit
    rw [gfPoly_degree] at hdeg
    exact absurd hdeg (by decide)
  · obtain ⟨a, ha⟩ := gfElem_surjective (AdjoinRoot.mk gfPoly p)
    obtain ⟨b, hb⟩ := gfElem_surjective (AdjoinRoot.mk gfPoly q)
    rw [← AdjoinRoot.mk_eq_zero, map_mul, ← ha, ← hb, ← gfElem_gfMul, gfElem_eq_zero] at hdvd
    rw [← AdjoinRoot.mk_eq_zero, ← AdjoinRoot.mk_eq_zero, ← ha, ← hb, gfElem_eq_zero, gfElem_eq_zero]
    exact gfMul_eq_zero hdvd

theorem fact_gfPoly_irreducible : Fact (Irreducible gfPoly) := ⟨gfPoly_prime.irreducible⟩

end Sys2Proof.Machine
end

