-- ==== Sys2Proof/Proofs/SingularMatrices.lean ====
section
/-!
What gf_invert's two answers mean (R127, R128). A left inverse is a right inverse, as for matrices of residues; and where
no pivot is left, a nonzero vector gives 0 with every row of W, and so with every row of the matrix, which rules out an
inverse.
-/
namespace Sys2Proof

/-- n × n matrices of residues modulo GF_POLY, which Mathlib's lemmas speak of. -/
abbrev ResidueMatrix (n : Nat) := Matrix (Fin n) (Fin n) (AdjoinRoot gfPoly)

end Sys2Proof

namespace Sys2Proof.Machine

/-! ### Inverses on both sides -/

/-- The n × n matrix of the residues of a matrix's entries. -/
noncomputable def residueMatrix (n : Nat) (x : Matrix) : ResidueMatrix n :=
  Matrix.of fun i j => gfElem (matGet x i j)

theorem isLeftInverse_iff {n : Nat} {b a : Matrix} :
    IsLeftInverse n b a ↔ residueMatrix n b * residueMatrix n a = 1 := by
  have hentry (i j : Fin n) : (residueMatrix n b * residueMatrix n a) i j = gfElem (matMulAt n b a i j) := by
    simp [residueMatrix, Matrix.mul_apply, matMulAt, Finset.sum_range]
  have hone (i j : Fin n) :
      (1 : ResidueMatrix n) i j = gfElem (if (i : Nat) = j then 1#8 else 0#8) := by
    simp [Matrix.one_apply, apply_ite gfElem, Fin.ext_iff]
  simp only [← Matrix.ext_iff, hentry, hone, gfElem_inj, Fin.forall_iff]

/-- A left inverse is a right inverse. -/
theorem isLeftInverse_comm {n : Nat} {b a : Matrix} : IsLeftInverse n b a ↔ IsLeftInverse n a b := by
  rw [isLeftInverse_iff, isLeftInverse_iff, mul_eq_one_comm]

/-- Two left inverses have the same entries: each is the other, multiplied by the identity. -/
theorem matGet_eq_of_isLeftInverse {n : Nat} {b b' a : Matrix} (h : IsLeftInverse n b a) (h' : IsLeftInverse n b' a)
    {i j : Nat} (hi : i < n) (hj : j < n) : matGet b' i j = matGet b i j := by
  have hright := isLeftInverse_iff.1 (isLeftInverse_comm.1 h)
  have heq := left_inv_eq_right_inv (isLeftInverse_iff.1 h') hright
  exact gfElem_injective (congrFun (congrFun heq ⟨i, hi⟩) ⟨j, hj⟩)

/-- Settles O14: the loop leaves a left inverse, which is a right inverse and unique. -/
theorem gfInvertReturnsTheInverse : Obligations.GfInvertReturnsTheInverse := fun _ _ _ hlen hrows h =>
  have hleft := gfInvert_isLeftInverse hlen hrows h
  ⟨hleft, isLeftInverse_comm.1 hleft, fun _ h' _ hi _ hj => matGet_eq_of_isLeftInverse hleft h' hi hj⟩

/-! ### Vectors that every row takes to 0 -/

/-- Every row of the n × n matrix with entries `x` gives 0 with the vector `v`. -/
def Annihilates (n : Nat) (x : Nat → Nat → Byte) (v : Nat → Byte) : Prop :=
  ∀ i < n, xorSum n (fun j => gfMul (x i j) (v j)) = 0x00#8

/-- A matrix with a left inverse gives 0 with the zero vector alone. -/
theorem eq_zero_of_isLeftInverse {n : Nat} {b a : Matrix} (h : IsLeftInverse n b a) {v : Nat → Byte}
    (hv : Annihilates n (matGet a) v) {j : Nat} (hj : j < n) : v j = 0x00#8 := by
  rw [← xorSum_inverse_mul h (v := fun _ => 0x00#8) (fun r hr => (hv r hr).symm) hj]
  exact gfElem_injective (by simp)

section Steps
variable {n c : Nat} {rows : List AugRow} {v : Nat → Byte}

/-- After the swap the pivot stands at (c, c). -/
theorem wAt_swapRows_pivot {p : Nat} (hc : c < rows.length) (hp : p < rows.length) (j : Nat) :
    wAt (swapRows c p rows) c j = wAt rows p j := by
  rw [wAt, rowAt_swapRows hc hp, wAt]
  split
  · next h => rw [h]
  · rw [if_pos rfl]

/-- The swap only changes the rows' order. -/
theorem annihilates_of_swapRows {p : Nat} (hlen : rows.length = n) (hc : c < n) (hp : p < n)
    (h : Annihilates n (wAt (swapRows c p rows)) v) : Annihilates n (wAt rows) v := by
  intro i hi
  obtain ⟨i', hi', hback⟩ : ∃ i' < n, (if i' = p then c else if i' = c then p else i') = i :=
    ⟨if i = p then c else if i = c then p else i, by split_ifs <;> omega, by split_ifs <;> omega⟩
  have hrow (j : Nat) : wAt rows i j = wAt (swapRows c p rows) i' j := by
    rw [wAt, wAt, rowAt_swapRows (by omega) (by omega), hback]
  simp only [hrow]
  exact h i' hi'

/-- Clearing a column scales the pivot's row by a nonzero byte and adds multiples of it to the others. -/
theorem annihilates_of_clearColumn {a : Matrix} (hred : Reduced n c a rows) (hc : c < n) (hpiv : wAt rows c c ≠ 0#8)
    (h : Annihilates n (wAt (clearColumn c (scaleRow (gfInv (wAt rows c c)) (rowAt rows c)) rows)) v) :
    Annihilates n (wAt rows) v := by
  have hlen := hred.length_eq
  have hscaled := (hred.rowOf c hc).scaleRow (gfInv (wAt rows c c))
  have hw (j : Nat) : (scaleRow (gfInv (wAt rows c c)) (rowAt rows c)).w.getD j 0#8 =
      gfMul (gfInv (wAt rows c c)) (wAt rows c j) := getD_map_gfMul _ _ j
  have hpivot : xorSum n (fun j => gfMul (wAt rows c j) (v j)) = 0x00#8 := by
    have hrow := h c hc
    have hentry (j : Nat) : wAt (clearColumn c (scaleRow (gfInv (wAt rows c c)) (rowAt rows c)) rows) c j =
        gfMul (gfInv (wAt rows c c)) (wAt rows c j) := by
      rw [wAt, rowAt_clearColumn (by omega), if_pos rfl, hw]
    simp only [hentry, xorSum_mul_left] at hrow
    exact (gfMul_eq_zero hrow).resolve_left (gfInv_ne_zero hpiv)
  intro i hi
  by_cases hic : i = c
  · rw [hic, hpivot]
  · have hrow := h i hi
    simp only [wAt_clearColumn_other (show i < rows.length by omega)
      ((hred.rowOf i hi).w_length.trans hscaled.w_length.symm) hic, hw, xorSum_add_mul, xorSum_mul_left, hpivot,
      gfMul_zero, gfAdd_zero] at hrow
    exact hrow

/-- With the columns below `c` done and no pivot for `c`: 1 at `c`, and below it the entries of column `c`. -/
def singularVector (rows : List AugRow) (c j : Nat) : Byte :=
  if j = c then 1#8 else if j < c then wAt rows j c else 0#8

theorem annihilates_singularVector {a : Matrix} (hred : Reduced n c a rows) (hc : c < n)
    (hnone : pivotRow n c rows = none) : Annihilates n (wAt rows) (singularVector rows c) := by
  intro i hi
  have hbelow (hci : c ≤ i) : wAt rows i c = 0#8 := by
    by_contra hne
    exact List.find?_eq_none.1 hnone i (List.mem_range'_1.2 ⟨hci, by omega⟩) (decide_eq_true hne)
  have hterm (j : Nat) (hj : j < n) : gfMul (wAt rows i j) (singularVector rows c j) =
      gfAdd (if i = j then (if i < c then wAt rows i c else 0#8) else 0#8) (if c = j then wAt rows i c else 0#8) := by
    rcases Nat.lt_trichotomy j c with hlt | rfl | hgt
    · rw [singularVector, if_neg (by omega), if_pos hlt, hred.done i hi j hlt, if_neg (by omega : ¬c = j), gfAdd_zero]
      split
      · next h => subst h; rw [if_pos hlt, gfMul_comm, gfMul_one]
      · rw [gfMul_comm, gfMul_zero]
    · have hdiag : (if i = j then (if i < j then wAt rows i j else 0#8) else 0#8) = 0#8 := by
        rw [← ite_and, if_neg (by omega)]
      rw [singularVector, if_pos rfl, if_pos rfl, gfMul_one, hdiag, gfAdd, BitVec.zero_xor]
    · rw [singularVector, if_neg (by omega), if_neg (by omega), gfMul_zero, if_neg (by omega : ¬c = j), gfAdd_zero]
      rw [← ite_and, if_neg (by omega)]
  rw [xorSum_congr hterm]
  apply gfElem_injective
  have hsum : gfElem (if i < c then wAt rows i c else 0#8) + gfElem (wAt rows i c) = 0 := by
    rw [← gfElem_gfAdd, gfElem_eq_zero]
    split
    · exact gfAdd_self _
    · rw [hbelow (by omega), gfAdd_self]
  simpa [Finset.sum_add_distrib, apply_ite gfElem, hi, hc] using hsum

end Steps

/-! ### The loop -/

theorem gfInvertFrom_singular {n : Nat} {a : Matrix} {c' : Nat} (fuel c : Nat) (rows : List AugRow)
    (hfuel : c + fuel = n) (hred : Reduced n c a rows) (h : gfInvertFrom n fuel c rows = .singular c') :
    ∃ v, Annihilates n (wAt rows) v ∧ ∃ j < n, v j ≠ 0x00#8 := by
  induction fuel generalizing c rows with
  | zero => cases h
  | succ fuel ih =>
    have hc : c < n := by omega
    rw [gfInvertFrom] at h
    split at h
    · next hnone =>
      exact ⟨singularVector rows c, annihilates_singularVector hred hc hnone, c, hc, by simp [singularVector]⟩
    · next p hp =>
      obtain ⟨hcp, hpn, hne⟩ := pivotRow_some hp
      have hlen := hred.length_eq
      have hpiv : wAt (swapRows c p rows) c c ≠ 0#8 := by rwa [wAt_swapRows_pivot (by omega) (by omega)]
      have hswap := hred.swapRows hcp hpn
      obtain ⟨v, hv, hne0⟩ := ih (c + 1) _ (by omega) (hswap.clearColumn hc hpiv) h
      exact ⟨v, annihilates_of_swapRows hlen hc hpn (annihilates_of_clearColumn hswap hc hpiv hv), hne0⟩

/-- Where gf_invert reports Singular, some nonzero vector gives 0 with every row. -/
theorem annihilates_of_gfInvert_singular {n : Nat} {a : Matrix} (hlen : a.length = n)
    (hrows : ∀ row ∈ a, row.length = n) {c : Nat} (h : gfInvert a n = .singular c) :
    ∃ v, Annihilates n (matGet a) v ∧ ∃ j < n, v j ≠ 0x00#8 := by
  obtain ⟨v, hv, hne⟩ := gfInvertFrom_singular n 0 _ (Nat.zero_add n) (reduced_start hlen hrows) h
  refine ⟨v, fun i hi => ?_, hne⟩
  have hrow : wAt (List.zipWith AugRow.mk a (identityMatrix n)) i = matGet a i := by
    funext j
    simp [wAt, rowAt, matGet, List.getD, identityMatrix, hlen, hi]
  rw [← hrow]
  exact hv i hi

/-- A matrix that gives 0 with the zero vector alone has an inverse, which gf_invert finds. -/
theorem exists_gfInvert_inverse {n : Nat} {a : Matrix} (hlen : a.length = n) (hrows : ∀ row ∈ a, row.length = n)
    (hker : ∀ v, Annihilates n (matGet a) v → ∀ j < n, v j = 0x00#8) : ∃ b, gfInvert a n = .inverse b := by
  cases h : gfInvert a n with
  | inverse b => exact ⟨b, rfl⟩
  | singular c =>
    obtain ⟨v, hv, j, hj, hne⟩ := annihilates_of_gfInvert_singular hlen hrows h
    exact absurd (hker v hv j hj) hne

/-- Settles O15: a nonzero vector rules out an inverse, and gf_invert's other answer is one. -/
theorem gfInvertSingularIffNoInverse : Obligations.GfInvertSingularIffNoInverse := by
  intro n a hlen hrows
  constructor
  · rintro ⟨c, h⟩ ⟨b, hb⟩
    obtain ⟨v, hv, j, hj, hne⟩ := annihilates_of_gfInvert_singular hlen hrows h
    exact hne (eq_zero_of_isLeftInverse hb hv hj)
  · intro hnone
    cases h : gfInvert a n with
    | singular c => exact ⟨c, rfl⟩
    | inverse b => exact absurd ⟨b, gfInvert_isLeftInverse hlen hrows h⟩ hnone

end Sys2Proof.Machine
end

