-- ==== Sys2Proof/Proofs/CauchyMatrices.lean ====
section
/-!
The parity block is a Cauchy matrix (R121, R124): a vector that enough of its rows give 0 with is the zero vector, since
the polynomial that interpolates it has more roots than its degree. So every square submatrix has an inverse, and so have
any K rows of the encode matrix (R135).
-/
namespace Sys2Proof.Machine

/-! ### Cauchy matrices over a field -/

section Field
variable {F ι κ : Type*} [Field F] [DecidableEq ι] {cols : Finset ι} {rows : Finset κ} {y : ι → F} {x : κ → F}

/-- The sums below are the values at the rows of the polynomial that interpolates `r` at the columns: as many roots as
the columns leave it no value but 0. -/
theorem eq_zero_of_nodalWeight_rows (hy : Set.InjOn y cols) (hx : Set.InjOn x rows)
    (hxy : ∀ i ∈ rows, ∀ j ∈ cols, x i ≠ y j) (hcard : cols.card ≤ rows.card) {r : ι → F}
    (h : ∀ i ∈ rows, ∑ j ∈ cols, Lagrange.nodalWeight cols y j * (x i - y j)⁻¹ * r j = 0) : ∀ j ∈ cols, r j = 0 := by
  have hroot (i : κ) (hi : i ∈ rows) : (Lagrange.interpolate cols y r).eval (x i) = 0 := by
    rw [Lagrange.eval_interpolate_not_at_node r (hxy i hi), h i hi, mul_zero]
  have hzero : Lagrange.interpolate cols y r = 0 :=
    Polynomial.eq_zero_of_degree_lt_of_eval_index_eq_zero rows hx
      ((Lagrange.degree_interpolate_lt r hy).trans_le (Nat.cast_le.2 hcard)) hroot
  intro j hj
  rw [← Lagrange.eval_interpolate_at_node r hy hj, hzero, Polynomial.eval_zero]

/-- A vector over the columns `y` that as many rows `x` of the Cauchy matrix 1/(x − y) give 0 with is the zero
vector. -/
theorem eq_zero_of_cauchy_rows (hy : Set.InjOn y cols) (hx : Set.InjOn x rows)
    (hxy : ∀ i ∈ rows, ∀ j ∈ cols, x i ≠ y j) (hcard : cols.card ≤ rows.card) {v : ι → F}
    (h : ∀ i ∈ rows, ∑ j ∈ cols, (x i - y j)⁻¹ * v j = 0) : ∀ j ∈ cols, v j = 0 := by
  have hw (j : ι) (hj : j ∈ cols) : Lagrange.nodalWeight cols y j ≠ 0 := Lagrange.nodalWeight_ne_zero hy hj
  have hscaled := eq_zero_of_nodalWeight_rows hy hx hxy hcard (r := fun j => v j / Lagrange.nodalWeight cols y j)
    fun i hi => (Finset.sum_congr rfl fun j hj => by have := hw j hj; field_simp).trans (h i hi)
  exact fun j hj => (div_eq_zero_iff.1 (hscaled j hj)).resolve_right (hw j hj)

end Field

/-! ### The parity block (R123) -/

/-- A difference of residues is the residue of the exclusive-or. -/
theorem gfElem_xor_eq_sub (a b : Byte) : gfElem (a ^^^ b) = gfElem a - gfElem b := by
  rw [eq_sub_iff_add_eq, ← gfElem_xor, BitVec.xor_assoc, BitVec.xor_self, BitVec.xor_zero]

theorem gfElem_gfInv_eq_inv [Fact (Irreducible gfPoly)] {a : Byte} (ha : a ≠ 0x00#8) :
    gfElem (gfInv a) = (gfElem a)⁻¹ := by
  apply eq_inv_of_mul_eq_one_right
  rw [← gfElem_gfMul, gfMul_gfInv ha, gfElem_one]

/-- The residue of a unit index: the points of the Cauchy matrix (R121). -/
noncomputable def cauchyPoint (u : Nat) : AdjoinRoot gfPoly := gfElem (BitVec.ofNat 8 u)

theorem cauchyPoint_inj {u v : Nat} (hu : u < 256) (hv : v < 256) (h : cauchyPoint u = cauchyPoint v) : u = v :=
  ofNat_byte_inj hu hv (gfElem_injective h)

theorem gfElem_matGet_parity [Fact (Irreducible gfPoly)] {k m i j : Nat} (hkm : k + m ≤ 256) (hki : k ≤ i)
    (hi : i < k + m) (hj : j < k) :
    gfElem (matGet (buildEncodeMatrix k m) i j) = (cauchyPoint i - cauchyPoint j)⁻¹ := by
  rw [matGet_buildEncodeMatrix_parity hki hi hj,
    gfElem_gfInv_eq_inv (ofNat_byte_xor_ne_zero (by omega) (by omega) (by omega)), gfElem_xor_eq_sub, cauchyPoint,
    cauchyPoint]

/-- A vector over some columns of the parity block that as many of its rows give 0 with is the zero vector. The sets are
of indices into the rows `row` and the columns `col`. -/
theorem eq_zero_of_parity_rows {k m : Nat} (hkm : k + m ≤ 256) {rows cols : Finset Nat} {row col : Nat → Nat}
    (hrow : ∀ i ∈ rows, k ≤ row i ∧ row i < k + m) (hcol : ∀ j ∈ cols, col j < k) (hrowInj : Set.InjOn row rows)
    (hcolInj : Set.InjOn col cols) (hcard : cols.card ≤ rows.card) {v : Nat → Byte}
    (h : ∀ i ∈ rows, ∑ j ∈ cols, gfElem (gfMul (matGet (buildEncodeMatrix k m) (row i) (col j)) (v j)) = 0) :
    ∀ j ∈ cols, v j = 0x00#8 := by
  have := fact_gfPoly_irreducible
  intro j hj
  refine gfElem_eq_zero.1 (eq_zero_of_cauchy_rows (y := cauchyPoint ∘ col) (x := cauchyPoint ∘ row)
    (v := gfElem ∘ v)
    (fun j hj j' hj' he => ?_) (fun i hi i' hi' he => ?_) (fun i hi j hj he => ?_) hcard (fun i hi => ?_) j hj)
  · have := hcol j hj
    have := hcol j' hj'
    exact hcolInj hj hj' (cauchyPoint_inj (by omega) (by omega) he)
  · have := hrow i hi
    have := hrow i' hi'
    exact hrowInj hi hi' (cauchyPoint_inj (by omega) (by omega) he)
  · have := hrow i hi
    have := hcol j hj
    have := cauchyPoint_inj (by omega) (by omega) he
    omega
  · rw [← h i hi]
    refine Finset.sum_congr rfl fun j hj => ?_
    rw [gfElem_gfMul, gfElem_matGet_parity hkm (hrow i hi).1 (hrow i hi).2 (hcol j hj)]
    rfl

/-! ### Square submatrices (R124) -/

theorem matGet_submatrix (x : Matrix) (rows cols : List Nat) {p q : Nat} (hp : p < rows.length) (hq : q < cols.length) :
    matGet (rows.map fun i => cols.map fun j => matGet x i j) p q = matGet x (rows.getD p 0) (cols.getD q 0) := by
  simp [matGet, List.getD, hp, hq]

theorem getD_injOn_of_nodup {l : List Nat} (h : l.Nodup) :
    Set.InjOn (fun p => l.getD p 0) (Finset.range l.length) := by
  intro p hp q hq he
  simp only [Finset.coe_range, Set.mem_Iio] at hp hq
  simp only [List.getD_eq_getElem _ _ hp, List.getD_eq_getElem _ _ hq] at he
  exact (h.getElem_inj_iff).1 he

theorem getD_of_forall_mem {l : List Nat} {P : Nat → Prop} (h : ∀ u ∈ l, P u) {p : Nat} (hp : p < l.length) :
    P (l.getD p 0) := by
  rw [List.getD_eq_getElem _ _ hp]
  exact h _ (List.getElem_mem hp)

/-- Settles O12: gf_invert finds the inverse, since only the zero vector gives 0 with every row of a Cauchy matrix. -/
theorem paritySubmatricesInvertible : Obligations.ParitySubmatricesInvertible := by
  intro k m rows cols _ _ hkm hrows hcols hlen hrow hcol
  have hshape : ∀ row ∈ rows.map fun i => cols.map fun j => matGet (buildEncodeMatrix k m) i j,
      row.length = rows.length := by
    simp [hlen]
  obtain ⟨b, hb⟩ := exists_gfInvert_inverse (List.length_map _) hshape fun v hv j hj => by
    refine eq_zero_of_parity_rows hkm (rows := Finset.range rows.length) (cols := Finset.range rows.length)
      (row := fun p => rows.getD p 0) (col := fun q => cols.getD q 0) (v := v)
      (fun p hp => getD_of_forall_mem hrow (Finset.mem_range.1 hp))
      (fun q hq => getD_of_forall_mem hcol (hlen ▸ Finset.mem_range.1 hq))
      (getD_injOn_of_nodup hrows) (hlen ▸ getD_injOn_of_nodup hcols) le_rfl (fun p hp => ?_) j (Finset.mem_range.2 hj)
    have hp := Finset.mem_range.1 hp
    rw [← gfElem_xorSum, ← gfElem_zero, ← hv p hp]
    exact congrArg gfElem (xorSum_congr fun q hq => by rw [matGet_submatrix _ _ _ hp (hlen ▸ hq)])
  have hleft := gfInvert_isLeftInverse (List.length_map _) hshape hb
  exact ⟨b, hleft, isLeftInverse_comm.1 hleft⟩

/-! ### Any K rows of the encode matrix (R135) -/

/-- A vector that K rows of the encode matrix give 0 with is the zero vector: a data row gives its own entry, and the
parity rows are as many as the data rows that are missing. -/
theorem eq_zero_of_encode_rows {k m : Nat} (hkm : k + m ≤ 256) {rows : Finset Nat} (hrows : ∀ u ∈ rows, u < k + m)
    (hcard : rows.card = k) {v : Nat → Byte}
    (h : ∀ u ∈ rows, xorSum k (fun j => gfMul (matGet (buildEncodeMatrix k m) u j) (v j)) = 0x00#8) :
    ∀ j < k, v j = 0x00#8 := by
  have hdata (j : Nat) (hj : j < k) (hmem : j ∈ rows) : v j = 0x00#8 := by
    rw [← h j hmem, xorSum_congr fun c hc => by rw [matGet_buildEncodeMatrix_data m hj hc], xorSum_unit_mul hj]
  have hmissing : ∀ j ∈ Finset.range k \ rows, v j = 0x00#8 := by
    refine eq_zero_of_parity_rows hkm (rows := rows \ Finset.range k) (row := id) (col := id) (fun u hu => ?_)
      (fun j hj => ?_) Function.injective_id.injOn Function.injective_id.injOn ?_ (fun u hu => ?_)
    · simp only [Finset.mem_sdiff, Finset.mem_range] at hu
      exact ⟨by simpa using hu.2, hrows u hu.1⟩
    · simp only [Finset.mem_sdiff, Finset.mem_range] at hj
      exact hj.1
    · exact (Finset.card_sdiff_comm (by rw [Finset.card_range, hcard])).le
    · rw [← gfElem_zero, ← h u (Finset.mem_sdiff.1 hu).1, gfElem_xorSum]
      refine Finset.sum_subset Finset.sdiff_subset fun j hj hnot => ?_
      rw [hdata j (Finset.mem_range.1 hj) (by simpa [Finset.mem_range.1 hj] using hnot), gfMul_zero, gfElem_zero]
  intro j hj
  by_cases hmem : j ∈ rows
  · exact hdata j hj hmem
  · exact hmissing j (Finset.mem_sdiff.2 ⟨Finset.mem_range.2 hj, hmem⟩)

/-- gf_invert inverts any K distinct rows of the encode matrix. -/
theorem exists_gfInvert_selectRows {k m : Nat} (hkm : k + m ≤ 256) {rows : List Nat} (hnodup : rows.Nodup)
    (hlen : rows.length = k) (hrows : ∀ u ∈ rows, u < k + m) :
    ∃ b, gfInvert (selectRows (buildEncodeMatrix k m) k rows) k = .inverse b := by
  refine exists_gfInvert_inverse ((List.length_map _).trans hlen) (by simp [selectRows]) fun v hv =>
    eq_zero_of_encode_rows hkm (rows := rows.toFinset) (by simpa using hrows)
      ((List.toFinset_card_of_nodup hnodup).trans hlen) fun u hu => ?_
  obtain ⟨r, hr, rfl⟩ := List.mem_iff_getElem.1 (List.mem_toFinset.1 hu)
  rw [← hv r (hlen ▸ hr)]
  exact xorSum_congr fun j hj => by rw [matGet_selectRows _ _ _ hr hj]

/-- Settles O18: the survivors are K distinct rows of the encode matrix. -/
theorem mkdecNeverSingular : Obligations.MkdecNeverSingular := by
  intro s henc hv hc
  obtain ⟨hlegal, hem⟩ := henc hv
  obtain ⟨b, hb⟩ := exists_gfInvert_selectRows ((legalParams_iff _ _).1 hlegal).2.2
    (survivors_pairwise_lt s.kN s.mN s.eras).nodup
    (survivors_length (erasCheck_eq_ok_iff.1 hc).2) fun u hu => (mem_survivors hu).1
  rw [← hem] at hb
  exact ⟨_, exec_mkdec_inverse hv hc hb, succeeded_answered rfl, rfl, rfl, rfl⟩

end Sys2Proof.Machine
end

