-- ==== Sys2Proof/Proofs/CodecInputs.lean ====
section
/-!
What the bytes of ENCODE and DECODE depend on (R151, R153, R156, R162): the sources of their dot products, which neither
command writes.
-/
namespace Sys2Proof.Machine

/-- A dot product reads its source units at one offset alone (R150, R155). -/
theorem dot_eq_of_sources {s s' : State} {n : Nat} {g src : Nat → Byte} {t : BitVec 24}
    (h : ∀ r < n, s.sbRead (sbAddr (src r) t) = s'.sbRead (sbAddr (src r) t)) : dot s n g src t = dot s' n g src t :=
  xorSum_congr fun r hr => by rw [h r hr]

/-! ### ENCODE (R151, R156) -/

section Encode
variable {bk : Datapath} {s t : State}

/-- ENCODE leaves the data units alone: while K + M is at most 256 no parity unit has an address of theirs. -/
theorem sbRead_encodeCells_data (hkm : s.nUnits ≤ 256) {j : Nat} (hj : j < s.kN) (o : BitVec 24) :
    (s.sbWriteAll (encodeCells bk s)).sbRead (sbAddr (unitByte j) o) = s.sbRead (sbAddr (unitByte j) o) := by
  have hk : s.kN ≤ s.nUnits := Nat.le_add_right _ _
  refine sbRead_encodeCells_other fun i hki hi _ _ haddr => ?_
  have := unitByte_inj (by omega) (by omega) (sbAddr_inj haddr).1
  omega

/-- A parity byte after an ENCODE that succeeded. -/
theorem sbRead_parity_of_exec_encode (hkm : s.nUnits ≤ 256) (h : exec (.encode bk) s = .next t) (hs : Succeeded s t)
    {i o : Nat} (hki : s.kN ≤ i) (hi : i < s.nUnits) (ho : o < s.usize.toNat) :
    t.sbRead (sbAddr (unitByte i) (BitVec.ofNat 24 o)) =
      dot s s.kN (matGet s.em i) unitByte (BitVec.ofNat 24 o) := by
  rw [exec_encode_succeeded h hs, State.answered_sbRead, sbRead_encodeCells_parity hkm hki hi ho]

end Encode

/-- Settles O22: the second ENCODE reads the data bytes the first one read, and writes where it wrote. -/
theorem encodeIsIdempotent : Obligations.EncodeIsIdempotent := by
  intro bk bk' s t u hkm h hs h' hs' x
  obtain rfl := exec_encode_succeeded h hs
  by_cases hx : ∃ i, s.kN ≤ i ∧ i < s.nUnits ∧ ∃ o < s.usize.toNat, x = sbAddr (unitByte i) (BitVec.ofNat 24 o)
  · obtain ⟨i, hki, hi, o, ho, rfl⟩ := hx
    rw [sbRead_parity_of_exec_encode hkm h hs hki hi ho]
    exact (sbRead_parity_of_exec_encode (s := (s.sbWriteAll (encodeCells bk s)).answered 0x0#4 0#24) hkm h' hs' hki hi
      ho).trans (dot_eq_of_sources fun j hj => sbRead_encodeCells_data hkm hj _)
  · rw [exec_encode_succeeded h' hs']
    exact sbRead_encodeCells_other fun i hki hi o ho heq => hx ⟨i, hki, hi, o, ho, heq⟩

/-- Settles O27: a parity byte is a dot product of a row of EM and the data bytes, whatever the datapath. -/
theorem encodeDependsOnItsInputsOnly : Obligations.EncodeDependsOnItsInputsOnly := by
  intro bk bk' s s' t t' hem hk hm husize hkm hdata h hs h' hs' i hki hi o ho
  have hkN : s'.kN = s.kN := congrArg BitVec.toNat hk.symm
  have hnUnits : s'.nUnits = s.nUnits := congrArg₂ (·.toNat + ·.toNat) hk.symm hm.symm
  rw [State.unitAt, sbRead_parity_of_exec_encode hkm h hs hki hi ho, State.unitAt,
    sbRead_parity_of_exec_encode (hnUnits ▸ hkm) h' hs' (hkN ▸ hki) (hnUnits ▸ hi) (husize ▸ ho), hkN, ← hem]
  exact dot_eq_of_sources fun j hj => hdata j hj o ho

/-! ### DECODE (R152, R153, R156) -/

section Decode
variable {bk : Datapath} {s t : State}

/-- An erased unit's byte after a DECODE that succeeded. -/
theorem sbRead_erased_of_exec_decode (h : exec (.decode bk) s = .next t) (hs : Succeeded s t) {e o : Nat}
    (he : s.eras.getLsbD e = true) (ho : o < s.usize.toNat) :
    t.sbRead (sbAddr (unitByte e) (BitVec.ofNat 24 o)) =
      dot s s.kN (recCoeff s.em s.dm s.kN e) s.srvAt (BitVec.ofNat 24 o) := by
  obtain ⟨hc, -, rfl⟩ := exec_decode_succeeded h hs
  rw [State.answered_sbRead, sbRead_decodeCells_erased hc he ho]

end Decode

/-- Settles O28: a recovered byte is a dot product of a recovery row and the bytes of the units of SRV. -/
theorem decodeDependsOnItsInputsOnly : Obligations.DecodeDependsOnItsInputsOnly := by
  intro bk bk' s s' t t' hem hdm hsrv hk _ husize heras hbytes h hs h' hs' e he o ho
  have hkN : s'.kN = s.kN := congrArg BitVec.toNat hk.symm
  have hsrvAt : s'.srvAt = s.srvAt := funext fun r => congrArg (·.getD r 0#8) hsrv.symm
  rw [State.unitAt, sbRead_erased_of_exec_decode h hs he ho, State.unitAt,
    sbRead_erased_of_exec_decode h' hs' (heras ▸ he) (husize ▸ ho), hkN, hsrvAt, ← hem, ← hdm]
  refine dot_eq_of_sources fun r hr => ?_
  have hbyte := hbytes r hr o ho
  rw [State.unitAt_toNat, State.unitAt_toNat] at hbyte
  exact hbyte

/-- With an erasure set that DECODE accepts, the units of SRV were not lost, and DM still inverts their rows (R153). -/
theorem decodable_of_stored {bk : Datapath} {s lost t : State} (hv : s.dmv = true) (hdec : s.decInv)
    (hinv : s.dmInverse) (hlost : LostOnly s lost) (h : exec (.decode bk) lost = .next t) (hs : Succeeded lost t) :
    Decodable s lost := by
  obtain ⟨hshape, hkept⟩ := hlost
  obtain ⟨sb, rfl⟩ : ∃ sb, lost = { s with sb := sb } := ⟨_, hshape⟩
  obtain ⟨-, hlen, -, hunits⟩ := hdec hv
  obtain ⟨-, hsurv, -⟩ := exec_decode_succeeded h hs
  have hlt (r : Nat) (hr : r < s.kN) : (s.srvAt r).toNat < s.nUnits := hunits _ (s.srvAt_mem (hlen ▸ hr))
  exact ⟨rfl, hlen, (hinv hv).1, hlt, fun r hr => hkept _ (hlt r hr) (erasedSurvivor_eq_none_iff.1 hsurv r hr)⟩

/-- Settles O29: any set that DECODE accepts leaves what it needs of the stripe. -/
theorem storedInverseServesOtherSets : Obligations.StoredInverseServesOtherSets :=
  fun _ _ _ _ hv henc hdec hinv hcons hlost h hs _ he _ ho =>
    exec_decode_restores (hdec hv).1 henc hcons (decodable_of_stored hv hdec hinv hlost h hs) h hs he ho

end Sys2Proof.Machine
end

