-- ==== Sys2Proof/Proofs/AccessOrder.lean ====
section
/-!
The order of a command's accesses (R74): a loop that writes bytes one after another, each from bytes that it does not
write, leaves what writing them all at the end leaves.
-/
namespace Sys2Proof.Machine

/-! ### Loops of writes -/

/-- Two states that differ in bytes at the addresses of a list of writes alone. -/
def AgreesOff {α : Type} (addr : α → BitVec 32) (l : List α) (s s' : State) : Prop :=
  ∀ x, (∀ c ∈ l, x ≠ addr c) → s'.sbRead x = s.sbRead x

/-- If every byte written is the same wherever states agree off the writes, the loop writes the bytes computed at its
start. -/
theorem foldl_sbWrite_eq_sbWriteAll {α : Type} {addr : α → BitVec 32} {val : State → α → Byte} {all : List α}
    {s : State} (hval : ∀ s', AgreesOff addr all s s' → ∀ c ∈ all, val s' c = val s c) (l : List α) (hl : ∀ c ∈ l, c ∈ all)
    (s1 : State) (hs1 : AgreesOff addr all s s1) :
    l.foldl (fun s2 c => s2.sbWrite (addr c) (val s2 c)) s1 =
      s1.sbWriteAll (l.map fun c => ((addr c).toNat, val s c)) := by
  induction l generalizing s1 with
  | nil => rfl
  | cons c l ih =>
    have hc : c ∈ all := hl c List.mem_cons_self
    have hnext : AgreesOff addr all s (s1.sbWrite (addr c) (val s c)) := fun x hx => by
      rw [State.sbRead_sbWrite_other _ _ (hx c hc), hs1 x hx]
    rw [List.foldl_cons, hval s1 hs1 c hc, ih (fun d hd => hl d (List.mem_cons_of_mem _ hd)) _ hnext]
    rfl

/-! ### The loops of R151 and R152 -/

/-- The units of `us` one after another, each byte a dot product of SB as the writes before it left it. -/
def interleaved (s : State) (n : Nat) (g : Nat → Nat → Byte) (src : Nat → Byte) (us : List Nat) : State :=
  us.foldl (fun s1 u => (List.range s.usize.toNat).foldl (fun s2 o =>
    s2.sbWrite (sbAddr (unitByte u) (BitVec.ofNat 24 o)) (dot s2 n (g u) src (BitVec.ofNat 24 o))) s1) s

/-- While no source is a unit written, the loops write the bytes that their start gives. -/
theorem interleaved_eq_sbWriteAll {s : State} {n : Nat} {g : Nat → Nat → Byte} {src : Nat → Byte} {us : List Nat}
    (hsrc : ∀ r < n, ∀ u ∈ us, src r ≠ unitByte u) :
    interleaved s n g src us = s.sbWriteAll (outputCells s n g src us) := by
  have hloop := foldl_sbWrite_eq_sbWriteAll (addr := fun c : Nat × Nat => sbAddr (unitByte c.1) (BitVec.ofNat 24 c.2))
    (val := fun s' c => dot s' n (g c.1) src (BitVec.ofNat 24 c.2)) (all := us ×ˢ List.range s.usize.toNat) (s := s)
    (fun s' hs' c _ => dot_eq_of_sources fun r hr => hs' _ fun d hd haddr =>
      hsrc r hr d.1 (List.mem_product.1 hd).1 (sbAddr_inj haddr).1) _ (fun _ hc => hc) s fun _ _ => rfl
  simpa [interleaved, outputCells, unitCells, SProd.sprod, List.product, List.foldl_flatMap, List.foldl_map,
    List.map_flatMap, Function.comp_def] using hloop

theorem encodeInterleaved_eq (s : State) :
    encodeInterleaved s = interleaved s s.kN (matGet s.em) unitByte (List.range' s.kN s.mN) := rfl

theorem decodeInterleaved_eq (s : State) :
    decodeInterleaved s = interleaved s s.kN (recCoeff s.em s.dm s.kN) s.srvAt (erasedUnits s) :=
  List.foldl_filter.symm

/-- Settles O26: ENCODE reads the data units and writes the parity units; DECODE reads the units of SRV, and accepts no
set that holds one of them. -/
theorem accessOrderIsIrrelevant : Obligations.AccessOrderIsIrrelevant := by
  refine fun bk s t hs => ⟨fun hkm h => ?_, fun h => ?_⟩
  · rw [exec_encode_succeeded h hs, encodeCells_eq, encodeInterleaved_eq, interleaved_eq_sbWriteAll]
    intro j hj i hi haddr
    obtain ⟨hki, hlt⟩ := List.mem_range'_1.1 hi
    have hbound : s.kN + s.mN ≤ 256 := hkm
    have := unitByte_inj (by omega) (by omega) haddr
    omega
  · obtain ⟨hc, hsurv, rfl⟩ := exec_decode_succeeded h hs
    rw [decodeCells_eq, decodeInterleaved_eq, interleaved_eq_sbWriteAll]
    intro r hr e he haddr
    have hlost := (mem_erasedUnits hc).1 he
    have hunit : (s.srvAt r).toNat = e :=
      haddr ▸ BitVec.toNat_ofNat e 8 ▸ Nat.mod_eq_of_lt (BitVec.lt_of_getLsbD hlost)
    have hkept := erasedSurvivor_eq_none_iff.1 hsurv r hr
    rw [hunit, State.erased, hlost] at hkept
    cases hkept

end Sys2Proof.Machine
end

