-- ==== Sys2Proof/Proofs/CommandWrites.lean ====
section
/-!
What a command can do, said once (R73, R211): it raises one of its kinds, or it leaves a state of its own and responds.
From this: which commands write which state (R20), where DivisionByZero comes from (R115), that every step ends (R261),
and that only the offload datapath reads ACC (R36).
-/
namespace Sys2Proof.Machine

/-! ### What a command writes and raises -/

/-- `Writes s i u`: `u` is what the command `i`, completing in the state `s`, has written before it responds. -/
inductive Writes (s : State) : Instr → State → Prop where
  | nothing (i : Instr) : Writes s i s
  | encodeMatrix (k m : BitVec 12) (hlegal : legalParams k.toNat m.toNat = true) :
      Writes s (.mkenc k m) (s.loadEncode (buildEncodeMatrix k.toNat m.toNat) (k.setWidth 8) (m.setWidth 8))
  | decodeMatrix (b : Matrix) (hv : s.emv = true) (hc : erasCheck s.kN s.mN s.eras = .ok)
      (hb : gfInvert (selectRows s.em s.kN (survivors s.kN s.mN s.eras)) s.kN = .inverse b) :
      Writes s .mkdec (s.loadDecode b ((survivors s.kN s.mN s.eras).map unitByte))
  | parityUnits (bk : Datapath) : Writes s (.encode bk) (s.sbWriteAll (encodeCells bk s))
  | erasedUnits (bk : Datapath) : Writes s (.decode bk) (s.sbWriteAll (decodeCells bk s))
  | unitSize (n : BitVec 24) : Writes s (.setus n) (s.setUsize n)
  | noneErased : Writes s .erasclr (s.setEras 0#256)
  | oneErased (a : Byte) : Writes s (.erasset a) (s.setEras (erasInsert s.eras a))
  | onePresent (a : Byte) : Writes s (.erasdel a) (s.setEras (erasRemove s.eras a))
  | noError : Writes s .clrerr s.clearErr
  | everything : Writes s .sreset s.softReset

/-- The kinds a command can raise, by its operands. -/
def raisable : Instr → List ErrorKind
  | .gfdiv _ b => if b = 0#8 then [.divisionByZero] else []
  | .gfinv a => if a = 0#8 then [.divisionByZero] else []
  | .mkenc _ _ => [.invalidParameters]
  | .mkdec => [.matrixNotValid, .inconsistentErasureSet, .singularMatrix]
  | .rdenc _ _ | .rddec _ _ | .rdsrv _ => [.matrixNotValid, .badCommand]
  | .encode _ => [.matrixNotValid, .unregisteredBuffer]
  | .decode _ => [.matrixNotValid, .inconsistentErasureSet, .unregisteredBuffer]
  | .rderr a => if a.toNat ≤ 1 then [] else [.badCommand]
  | .rderas a => if a.toNat ≤ 31 then [] else [.badCommand]
  | .gfmul _ _ | .gfpow _ _ | .setus _ | .erasclr | .erasset _ | .erasdel _ | .clrerr | .rdstat | .sreset | .rdus => []

/-- The two ends of a command (R90, R211). -/
inductive ExecEnd (s : State) (i : Instr) : Result → Prop where
  | responds (d : BitVec 24) (u : State) (hw : Writes s i u) : ExecEnd s i (respond d u)
  | raises (x : ErrorKind) (i0 i1 : BitVec 12) (hx : x ∈ raisable i) :
      ExecEnd s i (raise x (opcOf (encode i)) i0 i1 s)

section Ends
variable {s : State}

theorem ExecEnd.reads (i : Instr) (d : BitVec 24) : ExecEnd s i (respond d s) := .responds d s (.nothing i)

/-- A raise under a literal opcode, given that the command's word carries it. -/
theorem ExecEnd.raisesAs {i : Instr} {lit : Byte} {x : ErrorKind} {i0 i1 : BitVec 12} (hop : opcOf (encode i) = lit)
    (hx : x ∈ raisable i := by simp [raisable]) : ExecEnd s i (raise x lit i0 i1 s) :=
  hop ▸ .raises x i0 i1 hx

theorem ExecEnd.ite {i : Instr} {c : Prop} [Decidable c] {r q : Result} (hr : c → ExecEnd s i r)
    (hq : ¬c → ExecEnd s i q) : ExecEnd s i (if c then r else q) := by
  split
  · exact hr ‹_›
  · exact hq ‹_›

theorem execMkdec_execEnd : ExecEnd s .mkdec (execMkdec s) := by
  have hop : opcOf (encode .mkdec) = 0x21#8 := opcOf_encodeZ _
  refine .ite (fun _ => .raisesAs hop) fun hv => ?_
  split
  · exact .raisesAs hop
  · exact .raisesAs hop
  · next hc =>
    split
    · exact .raisesAs hop
    · next hb => exact .responds _ _ (.decodeMatrix _ (Bool.not_eq_false _ ▸ hv) hc hb)

theorem execEncode_execEnd (bk : Datapath) : ExecEnd s (.encode bk) (execEncode bk s) := by
  have hop : opcOf (encode (.encode bk)) = 0x30#8 := opcOf_encodeF _ bk
  refine .ite (fun _ => .raisesAs hop) fun _ => ?_
  split
  · exact .raisesAs hop
  · exact .responds _ _ (.parityUnits bk)

theorem execDecode_execEnd (bk : Datapath) : ExecEnd s (.decode bk) (execDecode bk s) := by
  have hop : opcOf (encode (.decode bk)) = 0x31#8 := opcOf_encodeF _ bk
  refine .ite (fun _ => .raisesAs hop) fun _ => ?_
  split
  · exact .raisesAs hop
  · exact .raisesAs hop
  · split
    · exact .raisesAs hop
    · split
      · exact .raisesAs hop
      · exact .responds _ _ (.erasedUnits bk)

theorem execRderr_execEnd (a : Byte) : ExecEnd s (.rderr a) (execRderr a s) := by
  refine .ite (fun _ => .reads _ _) fun h0 => .ite (fun _ => .reads _ _) fun h1 => .raises _ _ _ ?_
  have habove : ¬a.toNat ≤ 1 := by bv_omega
  simp [raisable, habove]

/-- Every command, in every state, completes with its own writes or raises one of its kinds. -/
theorem exec_execEnd (i : Instr) (s : State) : ExecEnd s i (exec i s) := by
  cases i with
  | gfmul | gfpow | rdstat | rdus => exact .reads _ _
  | gfdiv a b => exact .ite (fun hb => .raisesAs (opcOf_encodeA2 _ a b) (by simp [raisable, hb])) fun _ => .reads _ _
  | gfinv a => exact .ite (fun ha => .raisesAs (opcOf_encodeA1 _ a) (by simp [raisable, ha])) fun _ => .reads _ _
  | mkenc k m =>
    exact .ite (fun h => .responds _ _ (.encodeMatrix k m h)) fun _ => .raisesAs (opcOf_encodeP _ k m)
  | mkdec => exact execMkdec_execEnd
  | rdenc a b | rddec a b =>
    exact .ite (fun _ => .raisesAs (opcOf_encodeA2 _ a b)) fun _ =>
      .ite (fun _ => .raises _ _ _ (by simp [raisable])) fun _ => .reads _ _
  | rdsrv a =>
    exact .ite (fun _ => .raisesAs (opcOf_encodeA1 _ a)) fun _ =>
      .ite (fun _ => .raises _ _ _ (by simp [raisable])) fun _ => .reads _ _
  | encode bk => exact execEncode_execEnd bk
  | decode bk => exact execDecode_execEnd bk
  | setus n => exact .responds _ _ (.unitSize n)
  | erasclr => exact .responds _ _ .noneErased
  | erasset a => exact .responds _ _ (.oneErased a)
  | erasdel a => exact .responds _ _ (.onePresent a)
  | clrerr => exact .responds _ _ .noError
  | rderr a => exact execRderr_execEnd a
  | sreset => exact .responds _ _ .everything
  | rderas a => exact .ite (fun _ => .reads _ _) fun ha => .raises _ _ _ (by simp [raisable, ha])

/-- No end is a fault or a refusal of the model's. -/
theorem ExecEnd.exists_next {i : Instr} {r : Result} (h : ExecEnd s i r) : ∃ t, r = .next t := by
  cases h with
  | responds => exact ⟨_, rfl⟩
  | raises => exact ⟨_, rfl⟩

/-- The state after a command: what it has written, answered, or the error. -/
theorem exec_next_cases {i : Instr} {t : State} (h : exec i s = .next t) :
    (∃ d u, Writes s i u ∧ t = u.answered 0x0#4 d) ∨
    ∃ x i0 i1, x ∈ raisable i ∧ t = s.failed (errorCode x) (opcOf (encode i)) i0 i1 (isFatal x) := by
  have hend := exec_execEnd i s
  rw [h] at hend
  cases hend with
  | responds d u hw => exact .inl ⟨d, u, hw, rfl⟩
  | raises x i0 i1 hx => exact .inr ⟨x, i0, i1, hx, rfl⟩

end Ends

/-! ### Every step ends (R214, R261) -/

theorem CommandEnd.exists_next {op : Byte} {s : State} {r : Result} (h : CommandEnd op s r) : ∃ t, r = .next t := by
  cases h with
  | responds => exact ⟨_, rfl⟩
  | raises => exact ⟨_, rfl⟩

theorem runWord_exists_next (w : Word) (s : State) : ∃ t, runWord w s = .next t := by
  rcases runWord_end s w with h | ⟨op, hend⟩
  · exact ⟨_, h⟩
  · exact hend.exists_next

/-- Settles O39: a command ends as its end says, and every other move of the host ends at once. -/
theorem everyCommandTerminates : Obligations.EveryCommandTerminates := by
  refine ⟨fun i s => (exec_execEnd i s).exists_next, fun s => ?_⟩
  rcases step_cases s with ⟨-, h⟩ | ⟨rest, ⟨w, -, h⟩ | ⟨_, _, -, h⟩ | ⟨_, -, h⟩ | ⟨_, -, h⟩ | ⟨-, h⟩⟩
  · exact ⟨_, h⟩
  · exact h ▸ runWord_exists_next w _
  all_goals exact ⟨_, h⟩

/-! ### DivisionByZero (R115) -/

theorem divisionByZero_mem_raisable {i : Instr} (h : .divisionByZero ∈ raisable i) :
    i = .gfinv 0x00#8 ∨ ∃ a, i = .gfdiv a 0x00#8 := by
  cases i with
  | gfdiv a b =>
    simp only [raisable] at h
    split at h
    · next hb => exact .inr ⟨a, by rw [hb]⟩
    · cases h
  | gfinv a =>
    simp only [raisable] at h
    split at h
    · next ha => exact .inl (by rw [ha])
    · cases h
  | rderr | rderas =>
    simp only [raisable] at h
    split at h <;> simp at h
  | _ => simp [raisable] at h

/-- A command that completes leaves ERR, or clears it. -/
theorem Writes.err {s u : State} {i : Instr} (h : Writes s i u) : u.err = s.err ∨ u.err = ErrRecord.none := by
  cases h with
  | noError | everything => exact .inr rfl
  | _ => exact .inl rfl

/-- Settles O9: distinct unit indices differ in the field, a pivot is chosen nonzero, and the kind's two raisers test
their operand. -/
theorem divisionByZeroOnlyFromZeroOperand : Obligations.DivisionByZeroOnlyFromZeroOperand := by
  refine ⟨fun k m i j hlegal hki hi hj => ?_, fun n c p rows hc hp hpiv => ?_, fun i s t h ht hs => ?_⟩
  · have hbound := (legalParams_iff k m).1 hlegal
    exact ofNat_byte_xor_ne_zero (by omega) (by omega) (by omega)
  · exact (wAt_swapRows_pivot hc hp c).trans_ne (pivotRow_some hpiv).2.2
  · rcases exec_next_cases h with ⟨d, u, hw, rfl⟩ | ⟨x, i0, i1, hx, rfl⟩
    · rcases hw.err with he | he
      · exact absurd (he ▸ ht) hs
      · exact absurd (he ▸ ht) (by decide)
    · obtain rfl : x = .divisionByZero := errorCode_inj ht
      exact divisionByZero_mem_raisable hx

/-! ### Which commands write which state (R20) -/

theorem mnemonicOf_of_raises {i : Instr} {x : ErrorKind} (hx : x ∈ raisable i) (hwf : WellFormed i) :
    mnemonicOf i ∈ ["GFDIV", "GFINV", "MKENC", "MKDEC", "RDENC", "RDDEC", "RDSRV", "ENCODE", "DECODE", "CLRERR",
      "SRESET"] := by
  cases i with
  | rderr | rderas =>
    have hle := of_decide_eq_true hwf
    simp [raisable, hle] at hx
  | gfdiv | gfinv | mkenc | mkdec | rdenc | rddec | rdsrv | encode | decode => simp [mnemonicOf]
  | _ => cases hx

theorem mnemonicOf_of_raises_fatal {i : Instr} {x : ErrorKind} (hx : x ∈ raisable i) (hfatal : isFatal x = true) :
    mnemonicOf i ∈ ["GFDIV", "GFINV", "MKDEC", "SRESET"] := by
  cases i with
  | gfdiv | gfinv | mkdec => simp [mnemonicOf]
  | rderr | rderas =>
    simp only [raisable] at hx
    split at hx <;> simp_all [isFatal]
  | mkenc | rdenc | rddec | rdsrv | encode | decode =>
    simp only [raisable, List.mem_cons, List.not_mem_nil, or_false] at hx
    rcases hx with rfl | rfl | rfl <;> cases hfatal
  | _ => cases hx

/-- Settles O47: a command that completes has made its own writes, and one that raises has written ERR and HALT. -/
theorem onlyTheNamedCommandsWrite : Obligations.OnlyTheNamedCommandsWrite := by
  intro i s t h
  rcases exec_next_cases h with ⟨d, u, hw, rfl⟩ | ⟨x, i0, i1, hx, rfl⟩
  · cases hw with
    | nothing => simp [State.answered]
    | _ => simp [State.answered, mnemonicOf]
  · refine ⟨fun _ => ⟨rfl, rfl, rfl⟩, fun _ _ => rfl, fun _ => rfl, fun _ => rfl, fun _ => ⟨rfl, rfl⟩, fun _ => rfl,
      fun _ => rfl, fun hwf hnot => absurd (mnemonicOf_of_raises hx hwf) hnot, fun hnot => ?_, fun _ hhalt => ?_,
      rfl, rfl, rfl⟩
    · have hreported : isFatal x = false :=
        Bool.eq_false_iff.2 fun hfatal => hnot (mnemonicOf_of_raises_fatal hx hfatal)
      rw [State.failed, hreported, Bool.or_false]
    · rw [State.failed, hhalt, Bool.true_or]

/-! ### ACC (R36, R154) -/

/-- A result with ACC replaced in its next state. -/
def withAccess (acc : BitVec 256) : Result → Result
  | .next t => .next (t.setAccess acc)
  | r => r

section Access
variable {s : State} {acc : BitVec 256}

theorem ite_withAccess {c : Prop} [Decidable c] {r q r' q' : Result} (hr : r' = withAccess acc r)
    (hq : q' = withAccess acc q) : (if c then r' else q') = withAccess acc (if c then r else q) := by
  split
  · exact hr
  · exact hq

/-- A command commutes with a change of ACC where both of its ends are known. -/
theorem exec_setAccess_of_next {i : Instr} {t : State} (h : exec i s = .next t)
    (h' : exec i (s.setAccess acc) = .next (t.setAccess acc)) :
    exec i (s.setAccess acc) = withAccess acc (exec i s) := by
  rw [h', h, withAccess]

theorem exec_mkdec_setAccess : exec .mkdec (s.setAccess acc) = withAccess acc (exec .mkdec s) := by
  cases hv : s.emv with
  | false =>
    exact exec_setAccess_of_next (exec_mkdec_invalid hv) (exec_mkdec_invalid (s := s.setAccess acc) hv)
  | true =>
    cases hc : erasCheck s.kN s.mN s.eras with
    | outOfRange u =>
      exact exec_setAccess_of_next (exec_mkdec_outOfRange hv hc) (exec_mkdec_outOfRange (s := s.setAccess acc) hv hc)
    | tooMany n =>
      exact exec_setAccess_of_next (exec_mkdec_tooMany hv hc) (exec_mkdec_tooMany (s := s.setAccess acc) hv hc)
    | ok =>
      cases hinv : gfInvert (selectRows s.em s.kN (survivors s.kN s.mN s.eras)) s.kN with
      | singular c =>
        exact exec_setAccess_of_next (exec_mkdec_singular hv hc hinv)
          (exec_mkdec_singular (s := s.setAccess acc) hv hc hinv)
      | inverse b =>
        exact exec_setAccess_of_next (exec_mkdec_inverse hv hc hinv)
          (exec_mkdec_inverse (s := s.setAccess acc) hv hc hinv)

theorem exec_decode_software_setAccess :
    exec (.decode .software) (s.setAccess acc) = withAccess acc (exec (.decode .software) s) := by
  cases hv : s.dmv with
  | false =>
    exact exec_setAccess_of_next (exec_decode_invalid hv _) (exec_decode_invalid (s := s.setAccess acc) hv _)
  | true =>
    cases hc : erasCheck s.kN s.mN s.eras with
    | outOfRange u =>
      exact exec_setAccess_of_next (exec_decode_outOfRange hv hc) (exec_decode_outOfRange (s := s.setAccess acc) hv hc)
    | tooMany n =>
      exact exec_setAccess_of_next (exec_decode_tooMany hv hc) (exec_decode_tooMany (s := s.setAccess acc) hv hc)
    | ok =>
      cases hsurv : erasedSurvivor s with
      | some r =>
        exact exec_setAccess_of_next (exec_decode_erasedSurvivor hv hc hsurv)
          (exec_decode_erasedSurvivor (s := s.setAccess acc) hv hc hsurv)
      | none =>
        exact exec_setAccess_of_next (exec_decode_completes hv hc hsurv rfl)
          (exec_decode_completes (s := s.setAccess acc) hv hc hsurv rfl)

/-- A command but the two offload forms does the same whatever ACC is. -/
theorem exec_setAccess {i : Instr} (henc : i ≠ .encode .hardwareOffload) (hdec : i ≠ .decode .hardwareOffload) :
    exec i (s.setAccess acc) = withAccess acc (exec i s) := by
  cases i with
  | encode bk =>
    cases bk with
    | software => exact ite_withAccess rfl rfl
    | hardwareOffload => exact absurd rfl henc
  | decode bk =>
    cases bk with
    | software => exact exec_decode_software_setAccess
    | hardwareOffload => exact absurd rfl hdec
  | mkdec => exact exec_mkdec_setAccess
  | gfdiv | gfinv | mkenc | rderas => exact ite_withAccess rfl rfl
  | rdenc | rddec | rdsrv | rderr => exact ite_withAccess rfl (ite_withAccess rfl rfl)
  | _ => rfl

end Access

/-- Settles O48: no other command's pseudocode reads ACC, and none writes it. -/
theorem accessMapMattersToOffloadOnly : Obligations.AccessMapMattersToOffloadOnly := by
  intro i s t acc henc hdec h
  exact (exec_setAccess henc hdec).trans (congrArg (withAccess acc) h)

end Sys2Proof.Machine
end

