-- ==== Sys2Proof/Proofs/Invariant.lean ====
section
/-!
What every step keeps (R26 to R31, R33, R208): first what a command word can leave, behind the gate (R213), then the
invariant through each write, error and move of the host.
-/
namespace Sys2Proof.Machine

/-! ### What a command word leaves (R213, R214) -/

theorem ne_backendMismatch_of_raisable {i : Instr} {x : ErrorKind} (hx : x ∈ raisable i) : x ≠ .backendMismatch := by
  rintro rfl
  cases i with
  | gfdiv | gfinv | rderr | rderas =>
    simp only [raisable] at hx
    split at hx <;> simp at hx
  | _ => simp [raisable] at hx

/-- `WordEnd w s t`: the word `w` can leave `t` from `s`. The gate refuses it, or with no error pending it raises, under
its own opcode, or its command completes; CLRERR runs with HALT = 0 or no error pending. -/
inductive WordEnd (w : Word) (s : State) : State → Prop where
  | refused (hk : s.err.kind ≠ 0#4) : WordEnd w s (s.answered 0xF#4 0#24)
  | raised (hk : s.err.kind = 0#4) (x : ErrorKind) (i0 i1 : BitVec 12) (hx : x ≠ .backendMismatch) :
      WordEnd w s (s.failed (errorCode x) (opcOf w) i0 i1 (isFatal x))
  | completed (i : Instr) (d : BitVec 24) (u : State) (hw : Writes s i u)
      (hclr : i = .clrerr → s.halt = false ∨ s.err.kind = 0#4) : WordEnd w s (u.answered 0x0#4 d)

section Word
variable {w : Word} {i : Instr} {s t : State}

/-- A command run with no error pending (R214). -/
theorem wordEnd_of_exec (hd : decode w = .ok i) (hk : s.err.kind = 0#4) (h : exec i s = .next t) : WordEnd w s t := by
  rcases exec_next_cases h with ⟨d, u, hw, rfl⟩ | ⟨x, i0, i1, hx, rfl⟩
  · exact .completed i d u hw fun _ => .inr hk
  · rw [encode_of_decode hd]
    exact .raised hk x i0 i1 (ne_backendMismatch_of_raisable hx)

/-- A command that the gate accepts raises nothing (R213). -/
theorem wordEnd_of_accepted (hd : decode w = .ok i) (hacc : acceptedWhilePending s.halt i = true)
    (h : exec i s = .next t) : WordEnd w s t := by
  obtain ⟨rfl, hhalt⟩ | rfl | ⟨d, hread⟩ := exec_of_accepted hd hacc
  · cases (exec_clrerr s).symm.trans h
    exact .completed .clrerr _ _ .noError fun _ => .inl hhalt
  · cases (exec_sreset s).symm.trans h
    exact .completed .sreset _ _ .everything nofun
  · cases hread.symm.trans h
    exact .completed .rdstat _ _ (.nothing _) nofun

theorem runWord_wordEnd (h : runWord w s = .next t) : WordEnd w s t := by
  by_cases hk : s.err.kind = 0#4
  · cases hd : decode w with
    | ok i => exact wordEnd_of_exec hd hk ((runWord_not_pending hd hk).symm.trans h)
    | error x =>
      cases (runWord_illegal hd hk).symm.trans h
      exact .raised hk .badCommand _ _ (by decide)
  · cases hd : decode w with
    | ok i =>
      cases hacc : acceptedWhilePending s.halt i with
      | true => exact wordEnd_of_accepted hd hacc ((runWord_accepted hd hacc).symm.trans h)
      | false =>
        cases (runWord_refused hd hk hacc).symm.trans h
        exact .refused hk
    | error x =>
      cases (runWord_illegal_pending hd hk).symm.trans h
      exact .refused hk

end Word

/-! ### The error record (R32, R33, R208) -/

section Record
variable {s : State}

theorem State.errInv.halt_eq_false (h : s.errInv) (hk : s.err.kind = 0#4) : s.halt = false := by
  obtain ⟨-, -, hhalt⟩ := h
  refine Bool.eq_false_iff.2 fun ht => ?_
  have hfatal := hhalt.1 ht
  rw [hk] at hfatal
  exact absurd hfatal (by decide)

theorem errInv_of_noError (he : s.err = ErrRecord.none) (hh : s.halt = false) : s.errInv := by
  rw [State.errInv, he, hh]
  decide

/-- A recorded error is of a kind the CORE records, and HALT is set for the fatal ones. -/
theorem errInv_failed (h : s.errInv) (hk : s.err.kind = 0#4) {x : ErrorKind} (hx : x ≠ .backendMismatch) (op : Byte)
    (i0 i1 : BitVec 12) : (s.failed (errorCode x) op i0 i1 (isFatal x)).errInv := by
  refine ⟨List.mem_cons_of_mem _ (errorCode_mem hx), fun hzero => absurd hzero (errorCode_ne_zero x), ?_⟩
  rw [State.failed, h.halt_eq_false hk, Bool.false_or]
  exact isFatal_iff x

end Record

/-! ### The invariant through a command's writes -/

section Writes
variable {s u : State} {i : Instr}

/-- K and M as MKENC stores them: legal parameters are below 256. -/
theorem toNat_setWidth_of_legal {k m : BitVec 12} (h : legalParams k.toNat m.toNat = true) :
    (k.setWidth 8).toNat = k.toNat ∧ (m.setWidth 8).toNat = m.toNat := by
  have := (legalParams_iff _ _).1 h
  simp only [BitVec.toNat_setWidth]
  omega

theorem Writes.errInv (hw : Writes s i u) (h : s.errInv) (hclr : i = .clrerr → s.halt = false ∨ s.err.kind = 0#4) :
    u.errInv := by
  cases hw with
  | noError => exact errInv_of_noError rfl ((hclr rfl).elim id h.halt_eq_false)
  | everything => exact errInv_of_noError rfl rfl
  | _ => exact h

theorem Writes.encInv (hw : Writes s i u) (h : s.encInv) : u.encInv := by
  cases hw with
  | encodeMatrix k m hlegal =>
    obtain ⟨hk, hm⟩ := toNat_setWidth_of_legal hlegal
    intro _
    simp only [State.kN, State.mN, State.loadEncode_k, State.loadEncode_m, State.loadEncode_em, hk, hm, and_true]
    exact hlegal
  | everything => exact nofun
  | _ => exact h

/-- The survivors MKDEC stores: K ascending unit indices (R29). -/
theorem decInv_loadDecode (hv : s.emv = true) (henc : s.encInv) (hc : erasCheck s.kN s.mN s.eras = .ok) (b : Matrix) :
    (s.loadDecode b ((survivors s.kN s.mN s.eras).map unitByte)).decInv := by
  intro _
  obtain ⟨-, -, hkm⟩ := (legalParams_iff _ _).1 (henc hv).1
  have htoNat (v : Nat) (hmem : v ∈ survivors s.kN s.mN s.eras) : (unitByte v).toNat = v :=
    Nat.mod_eq_of_lt ((mem_survivors hmem).1.trans_le hkm)
  refine ⟨hv, (List.length_map _).trans (survivors_length (erasCheck_eq_ok_iff.1 hc).2), ?_, fun v hmem => ?_⟩
  · refine List.pairwise_map.2 ((survivors_pairwise_lt s.kN s.mN s.eras).imp_of_mem fun ha hb hlt => ?_)
    rwa [htoNat _ ha, htoNat _ hb]
  · obtain ⟨v, hsurv, rfl⟩ := List.mem_map.1 hmem
    rw [htoNat v hsurv]
    exact (mem_survivors hsurv).1

theorem Writes.decInv (hw : Writes s i u) (henc : s.encInv) (h : s.decInv) : u.decInv := by
  cases hw with
  | encodeMatrix | everything => exact nofun
  | decodeMatrix b hv hc hb => exact decInv_loadDecode hv henc hc b
  | _ => exact h

theorem Writes.memory_wf (hw : Writes s i u) (h : Memory.wf s.sb) : Memory.wf u.sb := by
  cases hw with
  | parityUnits bk => exact memWriteAll_wf h fun _ => encodeCells_addr_lt
  | erasedUnits bk => exact memWriteAll_wf h fun _ => decodeCells_addr_lt
  | _ => exact h

/-- The matrix MKDEC stores inverts the rows of the survivors it stores, on both sides (R28, R129). -/
theorem dmInverse_loadDecode (hv : s.emv = true) (henc : s.encInv) (hc : erasCheck s.kN s.mN s.eras = .ok) {b : Matrix}
    (hb : gfInvert (selectRows s.em s.kN (survivors s.kN s.mN s.eras)) s.kN = .inverse b) :
    (s.loadDecode b ((survivors s.kN s.mN s.eras).map unitByte)).dmInverse := by
  obtain ⟨-, -, hkm⟩ := (legalParams_iff _ _).1 (henc hv).1
  have hlen : (survivors s.kN s.mN s.eras).length = s.kN := survivors_length (erasCheck_eq_ok_iff.1 hc).2
  have hleft := gfInvert_isLeftInverse ((List.length_map _).trans hlen) (by simp) hb
  rw [← map_toNat_map_unitByte fun v hmem => (mem_survivors hmem).1.trans_le hkm] at hleft
  exact fun _ => ⟨hleft, isLeftInverse_comm.1 hleft⟩

theorem Writes.dmInverse (hw : Writes s i u) (henc : s.encInv) (h : s.dmInverse) : u.dmInverse := by
  cases hw with
  | encodeMatrix | everything => exact nofun
  | decodeMatrix b hv hc hb => exact dmInverse_loadDecode hv henc hc hb
  | _ => exact h

end Writes

/-! ### The claims -/

/-- Settles O45: at reset no error is recorded, no matrix is valid, and SB lists nothing. -/
theorem resetMeetsInvariant : Obligations.ResetMeetsInvariant := fun _ _ =>
  ⟨⟨errInv_of_noError rfl rfl, nofun, nofun, reset_memory_wf⟩, nofun⟩

theorem WordEnd.inv {w : Word} {s t : State} (h : WordEnd w s t) (hs : s.Inv) : t.Inv := by
  obtain ⟨herr, henc, hdec, hsb⟩ := hs
  cases h with
  | refused => exact ⟨herr, henc, hdec, hsb⟩
  | raised hk x i0 i1 hx => exact ⟨errInv_failed herr hk hx _ _ _, henc, hdec, hsb⟩
  | completed i d u hw hclr => exact ⟨hw.errInv herr hclr, hw.encInv henc, hw.decInv henc hdec, hw.memory_wf hsb⟩

theorem WordEnd.dmInverse {w : Word} {s t : State} (h : WordEnd w s t) (henc : s.encInv) (hs : s.dmInverse) :
    t.dmInverse := by
  cases h with
  | refused | raised => exact hs
  | completed i d u hw hclr => exact hw.dmInverse henc hs

/-- Settles O44: a command word by its ends; of the host's own moves only a byte write and a reset touch what the
invariant speaks of. -/
theorem stepKeepsInvariant : Obligations.StepKeepsInvariant := by
  intro s t hs hstep
  rcases step_cases s with ⟨-, h⟩ | ⟨rest, ⟨w, -, h⟩ | ⟨a, v, -, h⟩ | ⟨_, -, h⟩ | ⟨_, -, h⟩ | ⟨-, h⟩⟩
  · cases h.symm.trans hstep
    exact hs
  · exact (runWord_wordEnd (h.symm.trans hstep)).inv hs
  · cases h.symm.trans hstep
    obtain ⟨herr, henc, hdec, hsb⟩ := hs
    exact ⟨herr, henc, hdec, sbWrite_wf (s := s.setInbox rest) hsb a v⟩
  · cases h.symm.trans hstep
    exact hs
  · cases h.symm.trans hstep
    exact hs
  · cases h.symm.trans hstep
    exact ⟨errInv_of_noError rfl rfl, nofun, nofun, hardwareReset_wf _⟩

/-- Settles O46: MKDEC writes DM and SRV together, MKENC and the resets clear DMV, and nothing else writes K, EM, DM or
SRV. -/
theorem stepKeepsDecodeMatrixInverse : Obligations.StepKeepsDecodeMatrixInverse := by
  intro s t hs hinv hstep
  obtain ⟨-, henc, -, -⟩ := hs
  rcases step_cases s with ⟨-, h⟩ | ⟨rest, ⟨w, -, h⟩ | ⟨_, _, -, h⟩ | ⟨_, -, h⟩ | ⟨_, -, h⟩ | ⟨-, h⟩⟩
  · cases h.symm.trans hstep
    exact hinv
  · exact (runWord_wordEnd (h.symm.trans hstep)).dmInverse henc hinv
  · cases h.symm.trans hstep
    exact hinv
  · cases h.symm.trans hstep
    exact hinv
  · cases h.symm.trans hstep
    exact hinv
  · cases h.symm.trans hstep
    exact nofun

end Sys2Proof.Machine
end

