-- ==== Sys2Proof/Proofs/PreciseErrors.lean ====
section
/-!
What an error leaves (R215 to R217): ERR and HALT alone have changed, and CLRERR after it brings the state back.
-/
namespace Sys2Proof.Machine

/-- Bits 31:28 of a response word are its status (R90). -/
theorem responseWord_status (st : BitVec 4) (d : BitVec 24) : (responseWord st d).toNat / 2 ^ 28 = st.toNat := by
  have hd := d.isLt
  rw [responseWord_toNat]
  omega

theorem Writes.replies {s u : State} {i : Instr} (h : Writes s i u) : u.replies = s.replies := by
  cases h <;> rfl

/-- The response a command gave is the last of its answers. -/
theorem response_eq_of_answered {s : State} {st : BitVec 4} {d : BitVec 24} {l : List Reply} {r : Word}
    (hl : s.replies = l) (h : (s.answered st d).replies = l ++ [.response r]) : r = responseWord st d := by
  rw [State.answered, hl] at h
  exact (Reply.response.inj (List.singleton_inj.1 (List.append_cancel_left h))).symm

/-- Settles O41: a status of 1 to 8 is neither a refusal's nor a success's, and a raise writes ERR and HALT alone. -/
theorem errorsArePrecise : Obligations.ErrorsArePrecise := by
  intro s t w r rest hin hstep hreplies hlow hhigh
  have hend := runWord_wordEnd ((step_command hin).symm.trans hstep)
  cases hend with
  | refused hk =>
    rw [response_eq_of_answered rfl hreplies, responseWord_status] at hhigh
    exact absurd hhigh (by decide)
  | completed i d u hw hclr =>
    rw [response_eq_of_answered hw.replies hreplies, responseWord_status] at hlow
    exact absurd hlow (by decide)
  | raised hk x i0 i1 hx =>
    have hr := response_eq_of_answered (s := s.setInbox rest) (st := errorCode x) rfl hreplies
    refine ⟨rfl, rfl, ?_, hk⟩
    rw [hr]
    exact (responseWord_fields (errorCode x) 0#24).1.symm

/-- With HALT = 0 the gate lets CLRERR run, and it completes (R174, R213). -/
theorem runWord_clrerr {s : State} (h : s.halt = false) :
    runWord 0x44000000#32 s = .next (s.clearErr.answered 0x0#4 0#24) :=
  (runWord_accepted decode_clrerr (congrArg not h)).trans (exec_clrerr s)

/-- CLRERR after an error that left HALT alone, from a state with nothing recorded, leaves only the two answers. -/
theorem clearErr_failed {s : State} {code : BitVec 4} {op : Byte} {i0 i1 : BitVec 12} {fatal : Bool}
    (he : s.err = ErrRecord.none) (hf : fatal = false) :
    (s.failed code op i0 i1 fatal).clearErr = { s with replies := (s.failed code op i0 i1 fatal).replies } := by
  rw [State.clearErr, State.failed, hf, Bool.or_false, ← he]

/-- Settles O43: with nothing recorded before, the only end that records an error is a raise, and CLRERR is accepted. -/
theorem clrerrReturnsToTheStateBefore : Obligations.ClrerrReturnsToTheStateBefore := by
  intro s t u w rest hs hk hin hstep hpending hhalt hclr
  obtain ⟨-, hnone, -⟩ := hs
  have hend := runWord_wordEnd ((step_command hin).symm.trans hstep)
  cases hend with
  | refused hne => exact absurd hk hne
  | completed i d v hw _ =>
    rcases hw.err with he | he
    · exact absurd (congrArg ErrRecord.kind he |>.trans hk) hpending
    · exact absurd (congrArg ErrRecord.kind he) hpending
  | raised _ x i0 i1 _ =>
    have hfatal : isFatal x = false := (Bool.or_eq_false_iff.1 hhalt).2
    rw [step_command rfl, runWord_clrerr (by exact hhalt)] at hclr
    cases hclr
    have hback := clearErr_failed (s := s.setInbox rest) (code := errorCode x) (op := opcOf w) (i0 := i0) (i1 := i1)
      (hnone hk) hfatal
    exact congrArg (·.answered 0x0#4 0#24) hback

end Sys2Proof.Machine
end

