-- ==== Sys2Proof/Proofs/CommandTable.lean ====
section
/-!
Words and commands (R82, R84, R85, R89): decode and encode undo each other, and the match and mask table selects the
words that the decoder accepts.
-/
namespace Sys2Proof.Machine

/-! ### decode and encode (R89) -/

theorem decode_encode_datapath (bk : Datapath) :
    decode (encode (.encode bk)) = .ok (.encode bk) ∧ decode (encode (.decode bk)) = .ok (.decode bk) := by
  cases bk <;> decide

theorem decode_encode {i : Instr} (h : WellFormed i) : decode (encode i) = .ok i := by
  cases i with
  | gfmul a b => exact decode_gfmul a b
  | gfdiv a b => exact decode_gfdiv a b
  | gfinv a => exact decode_gfinv a
  | gfpow a b => exact decode_gfpow a b
  | mkenc k m => exact decode_mkenc k m
  | rdenc a b => exact decode_rdenc a b
  | rddec a b => exact decode_rddec a b
  | rdsrv a => exact decode_rdsrv a
  | encode bk => exact (decode_encode_datapath bk).1
  | decode bk => exact (decode_encode_datapath bk).2
  | setus n => exact decode_setus n
  | erasset a => exact decode_erasset a
  | erasdel a => exact decode_erasdel a
  | rderr a => exact (decode_rderr a).trans (if_pos (of_decide_eq_true h))
  | rderas a => exact (decode_rderas a).trans (if_pos (of_decide_eq_true h))
  | mkdec | erasclr | clrerr | rdstat | sreset | rdus => decide

/-- Settles O52: each format's decoder reads back the fields its encoder wrote. -/
theorem decodeOfEncode : Obligations.DecodeOfEncode := fun _ => decode_encode

/-- The decoder checks the two operand conditions of R85. -/
theorem wellFormed_of_decode {w : Word} {i : Instr} (h : decode w = .ok i) : WellFormed i := by
  rw [← encode_of_decode h] at h
  cases i with
  | rderr a =>
    rw [decode_rderr] at h
    exact decide_eq_true (ok_of_ite_error h).1
  | rderas a =>
    rw [decode_rderas] at h
    exact decide_eq_true (ok_of_ite_error h).1
  | _ => rfl

/-- Settles O53: the decoder drops no bit and checks the operand conditions. -/
theorem encodeOfDecode : Obligations.EncodeOfDecode := fun _ _ h => ⟨wellFormed_of_decode h, encode_of_decode h⟩

/-! ### A row selects a word (R84) -/

/-- Where a row's mask is all ones, a word it selects has the bits of its match. -/
theorem extractLsb'_of_selected {w mask bits : Word} (h : w &&& mask = bits) {start len : Nat}
    (hmask : mask.extractLsb' start len = BitVec.allOnes len) :
    w.extractLsb' start len = bits.extractLsb' start len := by
  rw [← h, BitVec.extractLsb'_and, hmask, BitVec.and_allOnes]

theorem opcodeTable_mask_opcode : ∀ row ∈ opcodeTable, row.mask.extractLsb' 24 8 = BitVec.allOnes 8 := by decide

theorem opcodeTable_opcodes_nodup : (opcodeTable.map fun row => opcOf row.matchBits).Nodup := by decide

/-- A selected word has the row's opcode. -/
theorem opcOf_of_selected {w : Word} {row : TableRow} (hrow : row ∈ opcodeTable) (h : w &&& row.mask = row.matchBits) :
    opcOf w = opcOf row.matchBits :=
  extractLsb'_of_selected h (opcodeTable_mask_opcode row hrow)

/-- Every word that a row of this match and mask selects decodes to a command of its mnemonic. -/
def RowDecodes (name : String) (bits mask : Word) : Prop :=
  ∀ w : Word, w &&& mask = bits → ∃ i, decode w = .ok i ∧ mnemonicOf i = name

section Rows
variable {name : String} {bits mask : Word}

/-- A row whose mask covers the opcode and the bits from `start` on selects words with these bits of its match. -/
theorem rowDecodes_of_fields (start len : Nat) (hopc : mask.extractLsb' 24 8 = BitVec.allOnes 8)
    (hmask : mask.extractLsb' start len = BitVec.allOnes len)
    (h : ∀ w, opcOf w = opcOf bits → w.extractLsb' start len = bits.extractLsb' start len →
      ∃ i, decode w = .ok i ∧ mnemonicOf i = name) : RowDecodes name bits mask := fun w hw =>
  h w (extractLsb'_of_selected hw hopc) (extractLsb'_of_selected hw hmask)

theorem rowDecodes_Z (i : Instr)
    (hdec : ∀ w, opcOf w = opcOf bits → decode w = decodeZ w i := by intro w ho; rw [decode, ho]; rfl)
    (hzero : bits.extractLsb' 0 24 = 0#24 := by decide) (hname : mnemonicOf i = name := by intros; rfl) :
    RowDecodes name bits 0xFFFFFFFF#32 :=
  rowDecodes_of_fields 0 24 (by decide) (by decide) fun w ho hrz =>
    ⟨i, (hdec w ho).trans (if_pos (hrz.trans hzero)), hname⟩

theorem rowDecodes_A1 (f : Byte → Instr)
    (hdec : ∀ w, opcOf w = opcOf bits → decode w = decodeA1 w f := by intro w ho; rw [decode, ho]; rfl)
    (hzero : bits.extractLsb' 0 16 = 0#16 := by decide) (hname : ∀ a, mnemonicOf (f a) = name := by intros; rfl) :
    RowDecodes name bits 0xFF00FFFF#32 :=
  rowDecodes_of_fields 0 16 (by decide) (by decide) fun w ho hrz =>
    ⟨_, (hdec w ho).trans (if_pos (hrz.trans hzero)), hname _⟩

theorem rowDecodes_A2 (f : Byte → Byte → Instr)
    (hdec : ∀ w, opcOf w = opcOf bits → decode w = decodeA2 w f := by intro w ho; rw [decode, ho]; rfl)
    (hzero : bits.extractLsb' 0 8 = 0#8 := by decide) (hname : ∀ a b, mnemonicOf (f a b) = name := by intros; rfl) :
    RowDecodes name bits 0xFF0000FF#32 :=
  rowDecodes_of_fields 0 8 (by decide) (by decide) fun w ho hrz =>
    ⟨_, (hdec w ho).trans (if_pos (hrz.trans hzero)), hname _ _⟩

theorem rowDecodes_F (f : Datapath → Instr)
    (hdec : ∀ w, opcOf w = opcOf bits → decode w = decodeF w f := by intro w ho; rw [decode, ho]; rfl)
    (hzero : bits.extractLsb' 1 23 = 0#23 := by decide) (hname : ∀ bk, mnemonicOf (f bk) = name := by intros; rfl) :
    RowDecodes name bits 0xFFFFFFFE#32 :=
  rowDecodes_of_fields 1 23 (by decide) (by decide) fun w ho hrz =>
    ⟨_, (hdec w ho).trans (if_pos (hrz.trans hzero)), hname _⟩

/-- Formats P and W have no bit to check: the mask covers the opcode alone. -/
theorem rowDecodes_opcode (f : Word → Instr)
    (hdec : ∀ w, opcOf w = opcOf bits → decode w = .ok (f w) := by intro w ho; rw [decode, ho]; rfl)
    (hname : ∀ w, mnemonicOf (f w) = name := by intros; rfl) :
    RowDecodes name bits 0xFF000000#32 :=
  rowDecodes_of_fields 24 8 (by decide) (by decide) fun w ho _ => ⟨f w, hdec w ho, hname w⟩

end Rows

/-- Bits 7:1 of a byte below 2, and bits 7:5 of one below 32, are zero. -/
theorem byte_and_eq_zero_iff (a : Byte) : (a &&& 0xFE#8 = 0#8 ↔ a.toNat ≤ 1) ∧ (a &&& 0xE0#8 = 0#8 ↔ a.toNat ≤ 31) := by
  revert a
  decide +kernel

/-- The bits of operand a that a mask covers. -/
theorem fieldA_and_of_selected {w mask bits : Word} (h : w &&& mask = bits) :
    fieldA w &&& fieldA mask = fieldA bits := by
  rw [← h, fieldA, fieldA, fieldA, BitVec.extractLsb'_and]

theorem rowDecodes_rderr : RowDecodes "RDERR" 0x46000000#32 0xFFFEFFFF#32 := fun w h => by
  have ho : opcOf w = 0x46#8 := extractLsb'_of_selected h (by decide)
  have hrz : w.extractLsb' 0 16 = 0#16 := extractLsb'_of_selected h (by decide)
  have hsel : fieldA w &&& 0xFE#8 = 0#8 := fieldA_and_of_selected h
  refine ⟨.rderr (fieldA w), ?_, rfl⟩
  rw [decode, ho]
  exact (if_pos hrz).trans (if_pos ((byte_and_eq_zero_iff _).1.1 hsel))

theorem rowDecodes_rderas : RowDecodes "RDERAS" 0x48000000#32 0xFFE0FFFF#32 := fun w h => by
  have ho : opcOf w = 0x48#8 := extractLsb'_of_selected h (by decide)
  have hrz : w.extractLsb' 0 16 = 0#16 := extractLsb'_of_selected h (by decide)
  have hsel : fieldA w &&& 0xE0#8 = 0#8 := fieldA_and_of_selected h
  refine ⟨.rderas (fieldA w), ?_, rfl⟩
  rw [decode, ho]
  exact (if_pos hrz).trans (if_pos ((byte_and_eq_zero_iff _).2.1 hsel))

theorem opcodeTable_rowDecodes : ∀ row ∈ opcodeTable, RowDecodes row.mnemonic row.matchBits row.mask := by
  simp only [opcodeTable, List.cons_append, List.nil_append, List.forall_mem_cons]
  exact ⟨rowDecodes_A2 .gfmul, rowDecodes_A2 .gfdiv, rowDecodes_A1 .gfinv, rowDecodes_A2 .gfpow,
    rowDecodes_opcode fun w => .mkenc (fieldHi12 w) (fieldLo12 w), rowDecodes_Z .mkdec, rowDecodes_A2 .rdenc,
    rowDecodes_A2 .rddec, rowDecodes_A1 .rdsrv, rowDecodes_F .encode, rowDecodes_F .decode,
    rowDecodes_opcode fun w => .setus (payloadOf w), rowDecodes_Z .erasclr, rowDecodes_A1 .erasset,
    rowDecodes_A1 .erasdel, rowDecodes_Z .clrerr, rowDecodes_Z .rdstat, rowDecodes_rderr, rowDecodes_Z .sreset,
    rowDecodes_rderas, rowDecodes_Z .rdus, nofun⟩

/-! ### Every command's word is selected by its row (R84) -/

theorem append_and_append_eq {n m : Nat} {x p c : BitVec n} {y q d : BitVec m} (hx : x &&& p = c) (hy : y &&& q = d) :
    (x ++ y) &&& (p ++ q) = c ++ d := by
  rw [BitVec.and_append, hx, hy]

section Selected
variable (o : Byte)

/-- Format A1 under a mask that covers the opcode, the rz bits and the bits `p` of operand a. -/
theorem encodeA1_and_mask {a p : Byte} (h : a &&& p = 0#8) :
    encodeA1 o a &&& (BitVec.allOnes 8 ++ p ++ BitVec.allOnes 16) = encodeA1 o 0#8 :=
  append_and_append_eq (append_and_append_eq BitVec.and_allOnes h) BitVec.zero_and

theorem encodeA2_and_mask (a b : Byte) :
    encodeA2 o a b &&& (BitVec.allOnes 8 ++ 0#8 ++ 0#8 ++ BitVec.allOnes 8) = encodeA2 o 0#8 0#8 :=
  append_and_append_eq (append_and_append_eq (append_and_append_eq BitVec.and_allOnes BitVec.and_zero) BitVec.and_zero)
    BitVec.zero_and

theorem encodeP_and_mask (k m : BitVec 12) :
    encodeP o k m &&& (BitVec.allOnes 8 ++ 0#12 ++ 0#12) = encodeP o 0#12 0#12 :=
  append_and_append_eq (append_and_append_eq BitVec.and_allOnes BitVec.and_zero) BitVec.and_zero

theorem encodeW_and_mask (n : BitVec 24) : encodeW o n &&& (BitVec.allOnes 8 ++ 0#24) = encodeW o 0#24 :=
  append_and_append_eq BitVec.and_allOnes BitVec.and_zero

theorem encodeF_and_mask (bk : Datapath) :
    encodeF o bk &&& (BitVec.allOnes 8 ++ BitVec.allOnes 23 ++ 0#1) = o ++ 0#23 ++ 0#1 :=
  append_and_append_eq (append_and_append_eq BitVec.and_allOnes BitVec.zero_and) BitVec.and_zero

end Selected

/-- The row of a well-formed command selects its word. -/
theorem exists_row_of_wellFormed {i : Instr} (h : WellFormed i) :
    ∃ row ∈ opcodeTable, encode i &&& row.mask = row.matchBits ∧ mnemonicOf i = row.mnemonic := by
  cases i with
  | gfmul a b => exact ⟨opcodeTable[0], List.getElem_mem _, encodeA2_and_mask _ a b, rfl⟩
  | gfdiv a b => exact ⟨opcodeTable[1], List.getElem_mem _, encodeA2_and_mask _ a b, rfl⟩
  | gfinv a => exact ⟨opcodeTable[2], List.getElem_mem _, encodeA1_and_mask _ BitVec.and_zero, rfl⟩
  | gfpow a b => exact ⟨opcodeTable[3], List.getElem_mem _, encodeA2_and_mask _ a b, rfl⟩
  | mkenc k m => exact ⟨opcodeTable[4], List.getElem_mem _, encodeP_and_mask _ k m, rfl⟩
  | mkdec => exact ⟨opcodeTable[5], List.getElem_mem _, rfl, rfl⟩
  | rdenc a b => exact ⟨opcodeTable[6], List.getElem_mem _, encodeA2_and_mask _ a b, rfl⟩
  | rddec a b => exact ⟨opcodeTable[7], List.getElem_mem _, encodeA2_and_mask _ a b, rfl⟩
  | rdsrv a => exact ⟨opcodeTable[8], List.getElem_mem _, encodeA1_and_mask _ BitVec.and_zero, rfl⟩
  | encode bk => exact ⟨opcodeTable[9], List.getElem_mem _, encodeF_and_mask _ bk, rfl⟩
  | decode bk => exact ⟨opcodeTable[10], List.getElem_mem _, encodeF_and_mask _ bk, rfl⟩
  | setus n => exact ⟨opcodeTable[11], List.getElem_mem _, encodeW_and_mask _ n, rfl⟩
  | erasclr => exact ⟨opcodeTable[12], List.getElem_mem _, rfl, rfl⟩
  | erasset a => exact ⟨opcodeTable[13], List.getElem_mem _, encodeA1_and_mask _ BitVec.and_zero, rfl⟩
  | erasdel a => exact ⟨opcodeTable[14], List.getElem_mem _, encodeA1_and_mask _ BitVec.and_zero, rfl⟩
  | clrerr => exact ⟨opcodeTable[15], List.getElem_mem _, rfl, rfl⟩
  | rdstat => exact ⟨opcodeTable[16], List.getElem_mem _, rfl, rfl⟩
  | rderr a =>
    have ha := (byte_and_eq_zero_iff a).1.2 (of_decide_eq_true h)
    exact ⟨opcodeTable[17], List.getElem_mem _, encodeA1_and_mask _ ha, rfl⟩
  | sreset => exact ⟨opcodeTable[18], List.getElem_mem _, rfl, rfl⟩
  | rderas a =>
    have ha := (byte_and_eq_zero_iff a).2.2 (of_decide_eq_true h)
    exact ⟨opcodeTable[19], List.getElem_mem _, encodeA1_and_mask _ ha, rfl⟩
  | rdus => exact ⟨opcodeTable[20], List.getElem_mem _, rfl, rfl⟩

/-! ### The claims -/

/-- Settles O54: a selected word has the row's opcode, of which there is one row, and the zero bits its decoder checks;
the word of a command has both. -/
theorem matchAndMaskSelectTheCommand : Obligations.MatchAndMaskSelectTheCommand := by
  refine fun w => ⟨fun row hrow hsel => opcodeTable_rowDecodes row hrow w hsel, fun i hd => ?_,
    fun row hrow row' hrow' hsel hsel' => ?_⟩
  · rw [← encode_of_decode hd]
    exact exists_row_of_wellFormed (wellFormed_of_decode hd)
  · exact List.inj_on_of_nodup_map opcodeTable_opcodes_nodup hrow hrow'
      ((opcOf_of_selected hrow hsel).symm.trans (opcOf_of_selected hrow' hsel'))

/-- Settles O55: the decoder, evaluated on each word. -/
theorem spelledWordsDecode : Obligations.SpelledWordsDecode := ⟨rfl, rfl, rfl, rfl, rfl, rfl⟩

end Sys2Proof.Machine
end

