-- ==== Sys2Proof/Proofs/HostMoves.lean ====
section
/-!
The host's moves (R72, R226, R240): a command word with no error pending, an SB byte written and read, a change of ACC,
a hardware reset, and no move at all.
-/
namespace Sys2Proof.Machine

section Moves
variable {s : State} {rest : List HostMove}

theorem step_writeByte {a : BitVec 32} {v : Byte} (h : s.inbox = .writeByte a v :: rest) :
    step s = .next ((s.setInbox rest).sbWrite a v) := step_move h

theorem step_readByte {a : BitVec 32} (h : s.inbox = .readByte a :: rest) :
    step s = .next ((s.setInbox rest).reply (.byte (s.sbRead a))) := step_move h

theorem step_setAcc {acc : BitVec 256} (h : s.inbox = .setAcc acc :: rest) :
    step s = .next ((s.setInbox rest).setAccess acc) := step_move h

theorem step_hardReset (h : s.inbox = .hardReset :: rest) : step s = .next (s.setInbox rest).hardwareReset :=
  step_move h

end Moves

/-- A written byte reads back, and every other one is left alone (R64). -/
theorem State.sbRead_sbWrite (s : State) (a x : BitVec 32) (v : Byte) :
    (s.sbWrite a v).sbRead x = if x = a then v else s.sbRead x := by
  split
  · next h => rw [h, State.sbRead_sbWrite_same]
  · next h => exact s.sbRead_sbWrite_other v h

/-- Settles O36: with no error pending the gate lets every legal word run. -/
theorem stepRunsTheDecodedCommand : Obligations.StepRunsTheDecodedCommand := fun _ _ _ _ hin hd hk =>
  (step_command hin).trans (runWord_not_pending hd hk)

/-- Settles O49: a hardware reset drops everything of the CORE's, and SB lists nothing. -/
theorem hardwareResetState : Obligations.HardwareResetState := fun _ _ hin =>
  ⟨_, step_hardReset hin, rfl, rfl, rfl, rfl, rfl, rfl, rfl, rfl, rfl, rfl, fun _ => rfl,
    matricesUnreadable_of_invalid rfl rfl⟩

/-- Settles O51: the write is the one of the memory's laws, and the read answers what SB then holds. -/
theorem hostWriteThenRead : Obligations.HostWriteThenRead := by
  intro s t u a b v rest hin hwrite hread
  cases (step_writeByte hin).symm.trans hwrite
  cases (step_readByte rfl).symm.trans hread
  refine ⟨?_, fun x => State.sbRead_sbWrite _ a x v⟩
  rw [State.sbRead_sbWrite]
  rfl

/-- Settles O56: the move writes ACC alone. -/
theorem hostChangesAccessMap : Obligations.HostChangesAccessMap := fun _ _ _ hin =>
  ⟨_, step_setAcc hin, rfl, fun _ _ => rfl, fun _ => rfl⟩

/-- Settles O57: with no move to take the step waits. -/
theorem waitingChangesNothing : Obligations.WaitingChangesNothing := fun _ => step_idle

end Sys2Proof.Machine
end
